-- ==== Sys2Proof/Word.lean ====
section
/-! DEFINITION. The two words of the command port and the byte (spec/30_encoding.md R60, R63; 00_scope.md R5). -/

namespace Sys2Proof

/-- A command word or a response word: CMD_W = RSP_W = 64 bits (R5). -/
abbrev Word := BitVec 64

/-- A byte value or symbol: SYM_W = 8 bits (R5). -/
abbrev Byte := BitVec 8

/-- A frequency: FREQ_W = 32 bits, unsigned (R5). -/
abbrev Freq := BitVec 32

end Sys2Proof
end

