-- ==== Sys2Proof/Config.lean ====
section
/-! DEFINITION. What is fixed when the block is instantiated: the straps of spec/00_scope.md R6 and the sentinel of
93_implementation_defined.md U3, at this hardware's values. The sizes of R5 stand as numerals in the types they bound
(NSYM = 256 entries, NODE_CAP = 511 slots, PQ_CAP = 256, CODE_MAX = 255 bits; Machine/State.lean).
No free value is needed: the spec leaves no value open (00_scope.md R9). -/

namespace Sys2Proof

/-- The serializer's traversal orders, the two values of the strap SER_ORDER (R6, R122). -/
inductive SerOrder where
  | post
  | pre
deriving DecidableEq, Repr

/-- SER_ORDER of this hardware: POST (R6, R120; 90_conflicts.md C1). -/
def Config.serOrder : SerOrder := .post

/-- PAD_BIT of this hardware: 0 (R6, R153). -/
def Config.padBit : Bool := false

/-- The `character` of an internal node: the sentinel 0 (R21, U3). -/
def Config.sentinel : Byte := 0

end Sys2Proof
end

