-- ==== Sys2Proof/Syntax.lean ====
section
/-! DEFINITION. The 18 commands of spec/30_encoding.md R66, one constructor per row of spec/opcode_table.json, with the
operand bits that R67 leaves free. -/

namespace Sys2Proof

/-- One command with its operands. The width of an operand is the number of operand bits R67 leaves free. -/
inductive Instr where
  /-- RESET (46_system.md R161). -/
  | reset
  /-- RDREG reg (46_system.md R163); 6 and 7 are reserved and ill-formed. -/
  | rdreg (reg : BitVec 3)
  /-- NODE_RD id, field (46_system.md R165). -/
  | nodeRd (id : BitVec 9) (field : BitVec 1)
  /-- FREQ_WR sym, count (40_frequency_interface.md R81). -/
  | freqWr (sym : Byte) (count : Freq)
  /-- SEED (40_frequency_interface.md R83). -/
  | seed
  /-- SRCERR (40_frequency_interface.md R86). -/
  | srcerr
  /-- ENQL sym, freq (41_priority_queue.md R96). -/
  | enql (sym : Byte) (freq : Freq)
  /-- ENQ id (41_priority_queue.md R98). -/
  | enq (id : BitVec 9)
  /-- DEQ (41_priority_queue.md R100). -/
  | deq
  /-- MERGE (42_tree_builder.md R107). -/
  | merge
  /-- BUILD (42_tree_builder.md R109). -/
  | build
  /-- SER (43_tree_serializer.md R123). -/
  | ser
  /-- MKTAB (44_encoding_table.md R134). -/
  | mktab
  /-- CODE_RD sym, chunk (44_encoding_table.md R136). -/
  | codeRd (sym : Byte) (chunk : BitVec 3)
  /-- EMIT sym (44_encoding_table.md R138). -/
  | emit (sym : Byte)
  /-- OPEN (45_bit_writer.md R148). -/
  | openSink
  /-- WBITS value, width (45_bit_writer.md R150); every 16-bit width is a legal word. -/
  | wbits (value : Byte) (width : BitVec 16)
  /-- CLOSE (45_bit_writer.md R152). -/
  | closeSink
deriving DecidableEq, Repr

/-- The read class {RDREG, NODE_RD, CODE_RD} (46_system.md R166). -/
def Instr.readClass : Instr → Bool
  | .rdreg _ | .nodeRd _ _ | .codeRd _ _ => true
  | .reset | .freqWr _ _ | .seed | .srcerr | .enql _ _ | .enq _ | .deq | .merge | .build | .ser | .mktab
  | .emit _ | .openSink | .wbits _ _ | .closeSink => false

end Sys2Proof
end

