-- ==== Sys2Proof/Machine/State.lean ====
section
/-! DEFINITION. The state of HTB (spec/10_state.md R15 to R35), the two host-side lists a step reads and extends, the
fault kinds of 60_exceptions.md R176, and what can stop the model. -/

namespace Sys2Proof.Machine

/-- A node id, 0 to 510 (R5: NODE_CAP = 511). NIL (0x1FF) is no id; where a 9-bit field may hold NIL the model has
`Option NodeId`, as in R35. -/
abbrev NodeId := Fin 511

/-- The ownership tag `st` (R22). -/
inductive Tag where
  /-- 0: allocated, in neither the queue nor a tree. -/
  | held
  /-- 1: an entry of PQ. -/
  | queued
  /-- 2: the child of exactly one internal node. -/
  | child
  /-- 3: the node ROOT names. -/
  | root
deriving DecidableEq, Repr

/-- An allocated node (R21). `left` and `right` are one field: both NIL (a leaf) or both ids (an internal node),
the only two cases there are (00_scope.md R12). Log entry 5. -/
structure Node where
  character : Byte
  frequency : Freq
  children : Option (NodeId × NodeId)
  st : Tag
deriving DecidableEq, Repr

/-- An entry of the encoding table (R26): the pattern is 255 bits wide, the length 8. -/
structure CodeEntry where
  bits : BitVec 255
  len : BitVec 8
deriving DecidableEq, Repr

/-- An event of the output stream (R28). -/
inductive OutEvent where
  | byte (b : Byte)
  /-- End of a sink scope. -/
  | eos
deriving DecidableEq, Repr

/-- What comes from outside (70_reset_and_hazards.md R215): a command word of the host, or the platform's reset. -/
inductive HostEvent where
  | command (w : Word)
  | hardwareReset
deriving DecidableEq, Repr

/-- The fault kinds (60_exceptions.md R176). -/
inductive FaultKind where
  | sourceRead
  | allocation
  | emptyQueue
  | illegalCommand
  | sequence
  | sinkClosed
  | badWidth
  | noCode
  | freqOverflow
  | badNode
deriving DecidableEq, Repr

/-- The state. Names in capitals are the spec's (R15, R35); `host` and `rsp` are the model's host side. -/
structure State where
  /-- The frequency table (R20), indexed by byte value. -/
  FREQ : Vector Freq 256
  /-- The number of allocated nodes and the next id (R16, R23): 0 to 511. -/
  NEXT : Fin 512
  /-- The node arena (R21); a slot without a value is `none` (R33). -/
  N : Vector (Option Node) 511
  /-- The priority queue, front first (R24). -/
  PQ : List NodeId
  /-- The finished tree's root, `none` for NIL (R25). -/
  ROOT : Option NodeId
  /-- A BUILD has completed since reset (R25). -/
  BUILT : Bool
  /-- The encoding table (R26), indexed by byte value. -/
  CODE : Vector CodeEntry 256
  /-- A sink scope is open (R27). -/
  OPEN : Bool
  /-- The bits accepted that have not completed a byte, left-aligned (R27). -/
  ACC : Byte
  /-- How many bits ACC holds (R27). -/
  NBITS : Fin 8
  /-- The code of the first fault since reset, or 0 (R29). -/
  FAULT : Byte
  /-- The output stream (R28); outside the block, only appended to. -/
  OUT : List OutEvent
  /-- What will be presented to the block, in order (R7, R18, R215). Log entry 1. -/
  host : List HostEvent
  /-- The responses returned, in order, one per command (R63). Log entry 2. -/
  rsp : List Word
deriving DecidableEq, Repr

/-- Why the model stops. No state that meets the invariants of R31 reaches either. Both are safe. -/
inductive Fault where
  /-- Raised where an id the engine follows (an entry of PQ, a child, ROOT) or an id below NEXT names a slot that
  holds no value (R33: "it should make the read impossible or a fault"). Safe. -/
  | slotWithoutValue (id : NodeId)
  /-- Raised by SER and MKTAB where a path from ROOT has more than the 256 nodes the stack holds (R30). Safe. -/
  | traversalStackFull (id : NodeId)
deriving DecidableEq, Repr

/-- Why an instruction has no meaning. -/
inductive Refusal where
  /-- Raised by no arm of `exec` as it stands: every row of the opcode table has its meaning. Safe. -/
  | notModelled (mnemonic : String)
deriving DecidableEq, Repr

/-- An entry of CODE with no code (R26, R32). -/
def CodeEntry.empty : CodeEntry := ⟨0, 0⟩

/-- The machine right after reset (R32, 70_reset_and_hazards.md R200): nothing presented, no response given, the
output trace empty (R28, R203). -/
def State.reset : State where
  FREQ := Vector.replicate 256 0
  NEXT := 0
  N := Vector.replicate 511 none
  PQ := []
  ROOT := none
  BUILT := false
  CODE := Vector.replicate 256 CodeEntry.empty
  OPEN := false
  ACC := 0
  NBITS := 0
  FAULT := 0
  OUT := []
  host := []
  rsp := []

end Sys2Proof.Machine
end

