-- ==== Sys2Proof/Machine/Ops.lean ====
section
/-! DEFINITION. The shared operations: access to the storage spaces (spec/20_memory.md R40 to R42), responses
(30_encoding.md R63), raising a fault and being refused (60_exceptions.md R180, R181), the frame in which a command's
rule runs (46_system.md R160), release (R161, R200) and the bit accumulator (45_bit_writer.md R145, R146, R152). -/

namespace Sys2Proof.Machine

/-! ### Storage -/

/-- A byte value as an index: every 8-bit value is a legal index of FREQ and CODE (R41). -/
def symIndex (sym : Byte) : Fin 256 := ⟨sym.toNat, sym.isLt⟩

/-- `FREQ[sym]`. -/
def State.freq (s : State) (sym : Byte) : Freq := s.FREQ.get (symIndex sym)

/-- `FREQ[sym] <- count`. -/
def State.setFreq (s : State) (sym : Byte) (count : Freq) : State :=
  { s with FREQ := s.FREQ.set (symIndex sym) count }

/-- `CODE[sym]`. -/
def State.code (s : State) (sym : Byte) : CodeEntry := s.CODE.get (symIndex sym)

/-- `N[id]`: the slot, which may hold no value (R33). -/
def State.slot (s : State) (id : NodeId) : Option Node := s.N.get id

/-- `N[id] <- node`. -/
def State.setSlot (s : State) (id : NodeId) (node : Node) : State := { s with N := s.N.set id (some node) }

/-- `N[id].st <- tag`: the one partial write there is (R42). A slot that holds no value still holds none after. -/
def State.setTag (s : State) (id : NodeId) (tag : Tag) : State :=
  { s with N := s.N.set id ((s.N.get id).map fun n => { n with st := tag }) }

/-- `NEXT <- n`. -/
def State.setNext (s : State) (n : Fin 512) : State := { s with NEXT := n }

/-- `PQ <- pq`. -/
def State.setQueue (s : State) (pq : List NodeId) : State := { s with PQ := pq }

/-- `len(PQ)`, the derived register PQLEN (R16). -/
def State.pqLen (s : State) : Nat := s.PQ.length

/-! ### Fault kinds and responses -/

/-- The code of a fault kind (R176). -/
def faultCode : FaultKind → Byte
  | .sourceRead => 0x01
  | .allocation => 0x02
  | .emptyQueue => 0x03
  | .illegalCommand => 0x10
  | .sequence => 0x11
  | .sinkClosed => 0x12
  | .badWidth => 0x13
  | .noCode => 0x14
  | .freqOverflow => 0x15
  | .badNode => 0x16

/-- The response code of a refusal (R181). -/
def refusedCode : Byte := 0xFF

/-- The response word `{code[63:56], aux[55:32], val[31:0]}` (R63). -/
def responseWord (code : Byte) (aux : BitVec 24) (val : BitVec 32) : Word :=
  (code ++ aux ++ val : BitVec (8 + 24 + 32))

/-- What a command's rule hands to `respond(aux, val)` (R11). -/
structure Reply where
  aux : BitVec 24
  val : BitVec 32
deriving DecidableEq, Repr

/-- `respond(val)`: aux is 0 when not given (R11). -/
def Reply.val32 (val : BitVec 32) : Reply := ⟨0, val⟩

/-- A count as a result value. -/
def Reply.count (n : Nat) : Reply := Reply.val32 (BitVec.ofNat 32 n)

/-- The response goes to the host. -/
def State.respond (s : State) (code : Byte) (aux : BitVec 24) (val : BitVec 32) : State :=
  { s with rsp := s.rsp ++ [responseWord code aux val] }

/-! ### Raising a fault -/

/-- R180(1): FAULT takes the code of the first fault and keeps it. -/
def State.recordFault (s : State) (f : FaultKind) : State :=
  { s with FAULT := if s.FAULT = 0 then faultCode f else s.FAULT }

/-- Fault entry, `raise F` (R180): record, respond the code with aux and val 0; nothing else changes, and control goes
nowhere. The way back is `release` (R184). -/
def State.raise (s : State) (f : FaultKind) : State := (s.recordFault f).respond (faultCode f) 0 0

/-- A refusal while FAULTED (R181): a response and no state change. -/
def State.refuse (s : State) : State := s.respond refusedCode 0 0

/-! ### The frame of a rule -/

/-- How a rule, or a part of one, ends: it returns a value, it raises (with what it wrote before), or the model stops. -/
inductive RuleResult (α : Type) where
  | done (a : α) (s : State)
  | raised (f : FaultKind) (s : State)
  | stuck (why : Fault)
deriving DecidableEq, Repr

/-- One part of a rule after another; a raise ends the rule (R11, R180(2)). -/
def RuleResult.andThen {α β : Type} (r : RuleResult α) (k : α → State → RuleResult β) : RuleResult β :=
  match r with
  | .done a s => k a s
  | .raised f s => .raised f s
  | .stuck why => .stuck why

/-- Step 3 of R160: the response of a completed rule, or fault entry. -/
def RuleResult.finish (r : RuleResult Reply) : Host.Outcome State Fault Refusal :=
  match r with
  | .done a s => .next (s.respond 0 a.aux a.val)
  | .raised f s => .next (s.raise f)
  | .stuck why => .fault why

/-- Steps 2 and 3 of R160 for a command that is refused while FAULTED. -/
def State.runUnlessFaulted (s : State) (rule : State → RuleResult Reply) : Host.Outcome State Fault Refusal :=
  if s.FAULT ≠ 0 then .next s.refuse else (rule s).finish

/-- Step 3 of R160 alone: RESET and the read class run in every state (R166). -/
def State.runAlways (s : State) (rule : State → RuleResult Reply) : Host.Outcome State Fault Refusal :=
  (rule s).finish

/-! ### The bit accumulator -/

/-- `v[i] <- t` for one bit of a byte. -/
def setBit (v : Byte) (i : Nat) (t : Bool) : Byte :=
  if t then v ||| (1#8 <<< i) else v &&& ~~~(1#8 <<< i)

/-- `OUT <- OUT ++ [e]` (R11). -/
def State.emitEvent (s : State) (e : OutEvent) : State := { s with OUT := s.OUT ++ [e] }

/-- `put_bit(t)` (R145). -/
def State.putBit (s : State) (t : Bool) : State :=
  let acc := setBit s.ACC (7 - s.NBITS.val) t
  if h : s.NBITS.val < 7 then { s with ACC := acc, NBITS := ⟨s.NBITS.val + 1, by omega⟩ }
  else { s with ACC := 0, NBITS := 0, OUT := s.OUT ++ [.byte acc] }

/-- The bits of a sequence accepted one after another, first bit first. -/
def State.putBitSeq (s : State) (bits : List Bool) : State := bits.foldl State.putBit s

/-- Fill the `8 − NBITS` unused low positions of ACC with the pad bit (R152). -/
def State.paddedAcc (pad : Bool) (s : State) : Byte :=
  (List.range (8 - s.NBITS.val)).foldl (fun acc i => setBit acc i pad) s.ACC

/-- What CLOSE and a RESET with an open sink do to OUT (R152, R161): the padded last byte if one is pending, then EOS. -/
def State.flushSink (pad : Bool) (s : State) : State :=
  if s.NBITS = 0 then s.emitEvent .eos else (s.emitEvent (.byte (s.paddedAcc pad))).emitEvent .eos

/-- The writer's registers outside a scope (R148, R152). -/
def State.clearWriter (s : State) (isOpen : Bool) : State := { s with OPEN := isOpen, ACC := 0, NBITS := 0 }

/-! ### Reset -/

/-- Every piece of the block's state takes its value of R32; OUT and the host's side are outside the block. -/
def State.release (s : State) : State :=
  { State.reset with OUT := s.OUT, host := s.host, rsp := s.rsp }

/-- Hardware reset (R200): an open scope is lost without flush and without EOS. -/
def State.hardwareReset (s : State) : State := s.release

end Sys2Proof.Machine
end

