-- ==== Sys2Proof/Machine/Operands.lean ====
section
/-! DEFINITION. The operand forms: node ids from and to 9-bit fields (spec/20_memory.md R41), and values and codes as bit
sequences, most significant bit first (20_memory.md R43; 00_scope.md R13). -/

namespace Sys2Proof.Machine

/-- NIL = 0x1FF as a 9-bit field (00_scope.md R5). -/
def nilField : BitVec 9 := 0x1FF

/-- A 9-bit operand as a node id; 511 is none (30_encoding.md R71). -/
def nodeOperand (id : BitVec 9) : Option NodeId :=
  if h : id.toNat < 511 then some ⟨id.toNat, h⟩ else none

/-- A node id as a 9-bit field. -/
def nodeField (id : NodeId) : BitVec 9 := BitVec.ofNat 9 id.val

/-- An id or NIL as a 9-bit field. -/
def optNodeField (id : Option NodeId) : BitVec 9 :=
  match id with
  | some n => nodeField n
  | none => nilField

/-- An id or NIL as a result value, zero-extended (30_encoding.md R65). -/
def Reply.node (id : Option NodeId) : Reply := Reply.val32 ((optNodeField id).setWidth 32)

/-- `v[w−1], v[w−2], ..., v[0]`: the order in which a granule's bits go out (R43(a), 45_bit_writer.md R146). -/
def msbFirst {n : Nat} (w : Nat) (v : BitVec n) : List Bool :=
  (List.range w).reverse.map v.getLsbD

/-- `put_bits(v, w)` (45_bit_writer.md R146). -/
def State.putBits (s : State) (v : Byte) (w : Nat) : State := s.putBitSeq (msbFirst w v)

/-- The bits of a code, first branch first (44_encoding_table.md R131, R138). -/
def CodeEntry.path (c : CodeEntry) : List Bool := msbFirst c.len.toNat c.bits

end Sys2Proof.Machine
end

