-- ==== Sys2Proof/Machine/Flags.lean ====
section
/-! DEFINITION. The read-only views of spec/10_state.md R17 and R19: STATUS (the only status register; a function of the
other state), ROOT, NEXT, PQLEN, BWST and PQHEAD. No command tests a flag. -/

namespace Sys2Proof.Machine

/-- One flag as a bit. -/
def flagBit (b : Bool) : BitVec 1 := BitVec.ofBool b

/-- The STATUS view (R19): `{7'b0, PQLEN[8:0], 1'b0, NBITS[2:0], BWOPEN, 1'b0, TREE, BUILT, FAULT[7:0]}`. -/
def State.status (s : State) : BitVec 32 :=
  (0#7 ++ BitVec.ofNat 9 s.pqLen ++ 0#1 ++ BitVec.ofNat 3 s.NBITS.val ++ flagBit s.OPEN ++ 0#1
    ++ flagBit s.ROOT.isSome ++ flagBit s.BUILT ++ s.FAULT : BitVec (7 + 9 + 1 + 3 + 1 + 1 + 1 + 1 + 8))

/-- The BWST view (R17): `{20'b0, OPEN, NBITS[2:0], ACC[7:0]}`. -/
def State.bwst (s : State) : BitVec 32 :=
  (0#20 ++ flagBit s.OPEN ++ BitVec.ofNat 3 s.NBITS.val ++ s.ACC : BitVec (20 + 1 + 3 + 8))

/-- The view of register number `reg` (R17); 6 and 7 are reserved. -/
def State.view (s : State) (reg : BitVec 3) : Option (BitVec 32) :=
  match reg.toNat with
  | 0 => some s.status
  | 1 => some ((optNodeField s.ROOT).setWidth 32)
  | 2 => some (BitVec.ofNat 32 s.NEXT.val)
  | 3 => some (BitVec.ofNat 32 s.pqLen)
  | 4 => some s.bwst
  | 5 => some ((optNodeField s.PQ.head?).setWidth 32)
  | _ => none

/-- The 2-bit code of a tag (R22). -/
def tagField : Tag → BitVec 2
  | .held => 0
  | .queued => 1
  | .child => 2
  | .root => 3

/-- NODE_RD field 1 (30_encoding.md R65): `{leaf, 3'b0, st[1:0], left[8:0], right[8:0], character[7:0]}`. -/
def nodeWord (n : Node) : BitVec 32 :=
  (flagBit n.children.isNone ++ 0#3 ++ tagField n.st ++ optNodeField (n.children.map Prod.fst)
    ++ optNodeField (n.children.map Prod.snd) ++ n.character : BitVec (1 + 3 + 2 + 9 + 9 + 8))

end Sys2Proof.Machine
end

