-- ==== Sys2Proof/Machine/BitWriter.lean ====
section
/-! DEFINITION. The bit writer's commands (spec/45_bit_writer.md R145 to R154): OPEN, WBITS and CLOSE. -/

namespace Sys2Proof.Machine

/-- The rule of OPEN (R148). -/
def openRule (s : State) : RuleResult Reply :=
  if s.OPEN then .raised .sequence s else .done (.val32 0) (s.clearWriter true)

/-- OPEN (R148). -/
def execOpen (s : State) : Host.Outcome State Fault Refusal := s.runUnlessFaulted openRule

/-- The rule of WBITS (R150): SinkClosed before BadWidth. -/
def wbitsRule (value : Byte) (width : BitVec 16) (s : State) : RuleResult Reply :=
  if s.OPEN = false then .raised .sinkClosed s
  else if width.toNat = 0 ∨ width.toNat > 8 then .raised .badWidth s
  else .done (.val32 0) (s.putBits value width.toNat)

/-- WBITS value, width (R150). -/
def execWbits (value : Byte) (width : BitVec 16) (s : State) : Host.Outcome State Fault Refusal :=
  s.runUnlessFaulted (wbitsRule value width)

/-- The rule of CLOSE (R152) with the strap's value. -/
def closeRule (pad : Bool) (s : State) : RuleResult Reply :=
  if s.OPEN = false then .raised .sinkClosed s
  else .done (.val32 0) ((s.flushSink pad).clearWriter false)

/-- CLOSE (R152). -/
def execClose (s : State) : Host.Outcome State Fault Refusal := s.runUnlessFaulted (closeRule Config.padBit)

end Sys2Proof.Machine
end

