-- ==== Sys2Proof/Machine/EncodingTable.lean ====
section
/-! DEFINITION. The encoding-table builder (spec/44_encoding_table.md R130 to R139): walk, MKTAB, CODE_RD and EMIT. -/

namespace Sys2Proof.Machine

/-- `CODE[sym] <- (bits, len)` in a table, narrowed to the entry's widths. With at most 256 nodes on a path `len` is at
most 255 and nothing is lost (R132). -/
def setCode (table : Vector CodeEntry 256) (sym : Byte) (bits len : Nat) : Vector CodeEntry 256 :=
  table.set (symIndex sym) ⟨BitVec.ofNat 255 bits, BitVec.ofNat 8 len⟩

/-- `walk(n, bits, len)` (R131, R132): left first, then right. The first number is how many entries of the 256-entry
stack (R30) are left. -/
def State.walk (s : State) : Nat → NodeId → Nat → Nat → Vector CodeEntry 256 → Except Fault (Vector CodeEntry 256)
  | 0, id, _, _, _ => .error (.traversalStackFull id)
  | stack + 1, id, bits, len, table =>
    match s.slot id with
    | none => .error (.slotWithoutValue id)
    | some n =>
      match n.children with
      | none => .ok (setCode table n.character bits len)
      | some (l, r) =>
        match s.walk stack l (2 * bits) (len + 1) table with
        | .error why => .error why
        | .ok table' => s.walk stack r (2 * bits + 1) (len + 1) table'

/-- A table in which every entry is zero-length (R134). -/
def emptyTable : Vector CodeEntry 256 := Vector.replicate 256 CodeEntry.empty

/-- The number of entries with a non-zero length (R134). -/
def usedCodes (table : Vector CodeEntry 256) : Nat := table.toList.countP fun c => c.len != 0

/-- The table MKTAB makes (R134): empty without a tree; the single-leaf correction of R133; else the walk. -/
def State.codeTable (s : State) : Except Fault (Vector CodeEntry 256) :=
  match s.ROOT with
  | none => .ok emptyTable
  | some r =>
    match s.slot r with
    | none => .error (.slotWithoutValue r)
    | some n =>
      match n.children with
      | none => .ok (setCode emptyTable n.character 0 1)
      | some _ => s.walk 256 r 0 0 emptyTable

/-- The rule of MKTAB (R134). -/
def mktabRule (s : State) : RuleResult Reply :=
  match s.codeTable with
  | .error why => .stuck why
  | .ok table => .done (.count (usedCodes table)) { s with CODE := table }

/-- MKTAB (R134). -/
def execMktab (s : State) : Host.Outcome State Fault Refusal := s.runUnlessFaulted mktabRule

/-- `P[32·chunk + 31 : 32·chunk]` of the pattern zero-extended to 256 bits (R136). -/
def CodeEntry.chunk (c : CodeEntry) (chunk : BitVec 3) : BitVec 32 :=
  (c.bits.setWidth 256).extractLsb' (32 * chunk.toNat) 32

/-- The rule of CODE_RD (R136). -/
def codeRdRule (sym : Byte) (chunk : BitVec 3) (s : State) : RuleResult Reply :=
  .done ⟨(s.code sym).len.setWidth 24, (s.code sym).chunk chunk⟩ s

/-- CODE_RD sym, chunk (R136): read class. -/
def execCodeRd (sym : Byte) (chunk : BitVec 3) (s : State) : Host.Outcome State Fault Refusal :=
  s.runAlways (codeRdRule sym chunk)

/-- The rule of EMIT (R138): SinkClosed before NoCode. -/
def emitRule (sym : Byte) (s : State) : RuleResult Reply :=
  if s.OPEN = false then .raised .sinkClosed s
  else if (s.code sym).len = 0 then .raised .noCode s
  else .done (.val32 ((s.code sym).len.setWidth 32)) (s.putBitSeq (s.code sym).path)

/-- EMIT sym (R138). -/
def execEmit (sym : Byte) (s : State) : Host.Outcome State Fault Refusal := s.runUnlessFaulted (emitRule sym)

end Sys2Proof.Machine
end

