-- ==== Sys2Proof/Machine/PriorityQueue.lean ====
section
/-! DEFINITION. The priority queue (spec/41_priority_queue.md R90 to R103): the order, the internal operations enqueue,
dequeue and new_leaf, and the commands ENQL, ENQ and DEQ. The operations take the comparator as a parameter
(93_implementation_defined.md U1); the commands give this hardware's. -/

namespace Sys2Proof.Machine

/-! ### The order -/

/-- The key of a node (R90): (frequency, kind, minor, id), every component unsigned. -/
structure OrderKey where
  frequency : Nat
  kind : Nat
  minor : Nat
  id : Nat
deriving DecidableEq, Repr

/-- R90: kind 0 for a leaf and 1 for an internal node; minor is a leaf's byte value and 0 otherwise. -/
def orderKey (id : NodeId) (n : Node) : OrderKey :=
  match n.children with
  | none => ⟨n.frequency.toNat, 0, n.character.toNat, id.val⟩
  | some _ => ⟨n.frequency.toNat, 1, 0, id.val⟩

/-- Lexicographically smaller (R90). -/
def OrderKey.smaller (k l : OrderKey) : Bool :=
  if k.frequency ≠ l.frequency then decide (k.frequency < l.frequency)
  else if k.kind ≠ l.kind then decide (k.kind < l.kind)
  else if k.minor ≠ l.minor then decide (k.minor < l.minor)
  else decide (k.id < l.id)

/-- A comparator (U1): whether id `x`, which names node `nx`, is before id `y`, which names `ny`. -/
abbrev Comparator := NodeId → Node → NodeId → Node → Bool

/-- The comparator `before(x, y)` of R90, this hardware's value of the parameter and the one named function R99 asks
for. -/
def nodeBefore (x : NodeId) (nx : Node) (y : NodeId) (ny : Node) : Bool :=
  (orderKey x nx).smaller (orderKey y ny)

/-! ### Internal operations -/

/-- The number of entries `e` of a queue with `before(e, id)` (R92), where `n` is the node `id` names. -/
def State.countBefore (s : State) (before : Comparator) (id : NodeId) (n : Node) : List NodeId → Except Fault Nat
  | [] => .ok 0
  | e :: rest =>
    match s.slot e, s.countBefore before id n rest with
    | none, _ => .error (.slotWithoutValue e)
    | some _, .error why => .error why
    | some m, .ok k => .ok (if before e m id n then k + 1 else k)

/-- `insert(PQ, k, id)` (R11): `id` becomes entry `k`. -/
def insertAt (pq : List NodeId) (k : Nat) (id : NodeId) : List NodeId := pq.take k ++ id :: pq.drop k

/-- `enqueue(id)` (R92). -/
def State.enqueue (s : State) (before : Comparator) (id : NodeId) : RuleResult Unit :=
  match s.slot id with
  | none => .stuck (.slotWithoutValue id)
  | some n =>
    match s.countBefore before id n s.PQ with
    | .error why => .stuck why
    | .ok k => .done () ((s.setQueue (insertAt s.PQ k id)).setTag id .queued)

/-- `dequeue()` (R93); on an empty queue the EmptyQueueError of R100. The caller sets the tag. -/
def State.dequeue (s : State) : RuleResult NodeId :=
  match s.PQ with
  | [] => .raised .emptyQueue s
  | id :: rest => .done id (s.setQueue rest)

/-- Allocation of one node and its enqueueing: the writes common to `new_leaf` (R94) and `merge_step` (R106).
The node is HELD until it is enqueued. -/
def State.allocate (s : State) (before : Comparator) (character : Byte) (frequency : Freq) (children : Option (NodeId × NodeId)) :
    RuleResult NodeId :=
  if h : s.NEXT.val < 511 then
    let id : NodeId := ⟨s.NEXT.val, h⟩
    let node : Node := { character, frequency, children, st := .held }
    (((s.setNext ⟨s.NEXT.val + 1, by omega⟩).setSlot id node).enqueue before id).andThen fun _ s => .done id s
  else .raised .allocation s

/-- `new_leaf(sym, f)` (R94): both capacity checks come before any write. -/
def State.newLeaf (s : State) (before : Comparator) (sym : Byte) (f : Freq) : RuleResult NodeId :=
  if s.NEXT.val > 510 then .raised .allocation s
  else if s.pqLen ≥ 256 then .raised .allocation s
  else s.allocate before sym f none

/-! ### Commands -/

/-- The rule of ENQL (R96). -/
def enqlRule (before : Comparator) (sym : Byte) (freq : Freq) (s : State) : RuleResult Reply :=
  (s.newLeaf before sym freq).andThen fun id s => .done (.node (some id)) s

/-- ENQL sym, freq (R96). -/
def execEnql (sym : Byte) (freq : Freq) (s : State) : Host.Outcome State Fault Refusal :=
  s.runUnlessFaulted (enqlRule nodeBefore sym freq)

/-- The rule of ENQ (R98): the checks in its order. -/
def enqRule (before : Comparator) (id : BitVec 9) (s : State) : RuleResult Reply :=
  match nodeOperand id with
  | none => .raised .badNode s
  | some x =>
    if x.val ≥ s.NEXT.val then .raised .badNode s
    else
      match s.slot x with
      | none => .stuck (.slotWithoutValue x)
      | some n =>
        if n.st ≠ .held then .raised .badNode s
        else if s.pqLen ≥ 256 then .raised .allocation s
        else (s.enqueue before x).andThen fun _ s => .done (.val32 0) s

/-- ENQ id (R98). -/
def execEnq (id : BitVec 9) (s : State) : Host.Outcome State Fault Refusal :=
  s.runUnlessFaulted (enqRule nodeBefore id)

/-- The rule of DEQ (R100). -/
def deqRule (s : State) : RuleResult Reply :=
  s.dequeue.andThen fun id s => .done (.node (some id)) (s.setTag id .held)

/-- DEQ (R100). -/
def execDeq (s : State) : Host.Outcome State Fault Refusal := s.runUnlessFaulted deqRule

end Sys2Proof.Machine
end

