-- ==== Sys2Proof/Machine/Frequency.lean ====
section
/-! DEFINITION. The frequency-table interface (spec/40_frequency_interface.md R80 to R87): FREQ_WR, SEED and SRCERR. -/

namespace Sys2Proof.Machine

/-- The rule of FREQ_WR (R81). -/
def freqWrRule (sym : Byte) (count : Freq) (s : State) : RuleResult Reply :=
  .done (.val32 0) (s.setFreq sym count)

/-- FREQ_WR sym, count (R81). -/
def execFreqWr (sym : Byte) (count : Freq) (s : State) : Host.Outcome State Fault Refusal :=
  s.runUnlessFaulted (freqWrRule sym count)

/-- The byte values in ascending order, 0 first (R82). -/
def allSyms : List Byte := (List.range 256).map (BitVec.ofNat 8)

/-- The loop of SEED (R83) over the symbols still to visit; `k` leaves were created before. A `new_leaf` that raises
ends it with the earlier leaves kept (R84). -/
def State.seedFrom (s : State) (before : Comparator) (k : Nat) : List Byte → RuleResult Reply
  | [] => .done (.count k) s
  | sym :: rest =>
    if s.freq sym = 0 then s.seedFrom before k rest
    else
      match s.newLeaf before sym (s.freq sym) with
      | .done _ s' => s'.seedFrom before (k + 1) rest
      | .raised f s' => .raised f s'
      | .stuck why => .stuck why

/-- The rule of SEED (R83). -/
def seedRule (before : Comparator) (s : State) : RuleResult Reply := s.seedFrom before 0 allSyms

/-- SEED (R83). -/
def execSeed (s : State) : Host.Outcome State Fault Refusal := s.runUnlessFaulted (seedRule nodeBefore)

/-- The rule of SRCERR (R86): it always raises. -/
def srcerrRule (s : State) : RuleResult Reply := .raised .sourceRead s

/-- SRCERR (R86). -/
def execSrcerr (s : State) : Host.Outcome State Fault Refusal := s.runUnlessFaulted srcerrRule

end Sys2Proof.Machine
end

