-- ==== Sys2Proof/Machine/System.lean ====
section
/-! DEFINITION. The system commands (spec/46_system.md R160 to R169): RESET, RDREG and NODE_RD. -/

namespace Sys2Proof.Machine

/-- The rule of RESET (R161) with the pad strap's value: an open sink is flushed as by CLOSE, then everything is
released. It is also the return from a fault (60_exceptions.md R184). -/
def resetRule (pad : Bool) (s : State) : RuleResult Reply :=
  .done (.val32 0) (if s.OPEN then (s.flushSink pad).release else s.release)

/-- RESET (R161): runs in every state. -/
def execReset (s : State) : Host.Outcome State Fault Refusal := s.runAlways (resetRule Config.padBit)

/-- The rule of RDREG (R163). No word encodes a reserved register number (30_encoding.md R67); such a term raises the
IllegalCommand its word would raise (R70). -/
def rdregRule (reg : BitVec 3) (s : State) : RuleResult Reply :=
  match s.view reg with
  | some v => .done (.val32 v) s
  | none => .raised .illegalCommand s

/-- RDREG reg (R163): read class. -/
def execRdreg (reg : BitVec 3) (s : State) : Host.Outcome State Fault Refusal := s.runAlways (rdregRule reg)

/-- The rule of NODE_RD (R165). -/
def nodeRdRule (id : BitVec 9) (field : BitVec 1) (s : State) : RuleResult Reply :=
  match nodeOperand id with
  | none => .raised .badNode s
  | some x =>
    if x.val ≥ s.NEXT.val then .raised .badNode s
    else
      match s.slot x with
      | none => .stuck (.slotWithoutValue x)
      | some n => .done (.val32 (if field = 0 then n.frequency else nodeWord n)) s

/-- NODE_RD id, field (R165): read class. -/
def execNodeRd (id : BitVec 9) (field : BitVec 1) (s : State) : Host.Outcome State Fault Refusal :=
  s.runAlways (nodeRdRule id field)

end Sys2Proof.Machine
end

