-- ==== Sys2Proof/Machine/TreeBuilder.lean ====
section
/-! DEFINITION. The tree builder (spec/42_tree_builder.md R105 to R115): merge_step, MERGE and BUILD,
for any comparator (93_implementation_defined.md U1); the commands give this hardware's. -/

namespace Sys2Proof.Machine

/-- `merge_step()` (R106): all three checks come before any write; left is the first removed, right the second. -/
def State.mergeStep (s : State) (before : Comparator) : RuleResult NodeId :=
  match s.PQ with
  | x :: y :: rest =>
    if s.NEXT.val > 510 then .raised .allocation s
    else
      match s.slot x, s.slot y with
      | none, _ => .stuck (.slotWithoutValue x)
      | some _, none => .stuck (.slotWithoutValue y)
      | some nx, some ny =>
        if nx.frequency.toNat + ny.frequency.toNat ≥ 2 ^ 32 then .raised .freqOverflow s
        else
          (((s.setQueue rest).setTag x .child).setTag y .child).allocate before Config.sentinel
            (BitVec.ofNat 32 (nx.frequency.toNat + ny.frequency.toNat)) (some (x, y))
  | _ => .raised .emptyQueue s

/-- The rule of MERGE (R107). -/
def mergeRule (before : Comparator) (s : State) : RuleResult Reply :=
  (s.mergeStep before).andThen fun p s => .done (.node (some p)) s

/-- MERGE (R107). -/
def execMerge (s : State) : Host.Outcome State Fault Refusal := s.runUnlessFaulted (mergeRule nodeBefore)

/-- BUILD's loop `while len(PQ) > 1` (R109). A merge step shortens the queue by one (R112), so as many rounds as the
queue has entries are enough. -/
def State.mergeAll (s : State) (before : Comparator) : Nat → RuleResult Unit
  | 0 => .done () s
  | rounds + 1 =>
    if s.pqLen > 1 then
      match s.mergeStep before with
      | .done _ s' => s'.mergeAll before rounds
      | .raised f s' => .raised f s'
      | .stuck why => .stuck why
    else .done () s

/-- The end of BUILD (R109): the drain, the tag ROOT, and the two registers. -/
def State.drainRoot (s : State) : RuleResult Reply :=
  s.dequeue.andThen fun r s => .done (.node (some r)) { s.setTag r .root with ROOT := some r, BUILT := true }

/-- The rule of BUILD (R109, R111). -/
def buildRule (before : Comparator) (s : State) : RuleResult Reply :=
  if s.ROOT.isSome then .raised .sequence s
  else if s.pqLen = 0 then .done (.node none) { s with BUILT := true }
  else (s.mergeAll before s.pqLen).andThen fun _ s => s.drainRoot

/-- BUILD (R109). -/
def execBuild (s : State) : Host.Outcome State Fault Refusal := s.runUnlessFaulted (buildRule nodeBefore)

end Sys2Proof.Machine
end

