-- ==== Sys2Proof/Machine/TreeSerializer.lean ====
section
/-! DEFINITION. The tree serializer (spec/43_tree_serializer.md R120 to R127): ser and SER. -/

namespace Sys2Proof.Machine

/-- `ser(n)` (R122), for either value of the strap. The number is how many entries of the 256-entry stack (R30) are
left for the path below; with none left the traversal stops. -/
def State.serBits (s : State) (order : SerOrder) : Nat → NodeId → Except Fault (List Bool)
  | 0, id => .error (.traversalStackFull id)
  | stack + 1, id =>
    match s.slot id with
    | none => .error (.slotWithoutValue id)
    | some n =>
      match n.children with
      | none => .ok (true :: msbFirst 8 n.character)
      | some (l, r) =>
        match s.serBits order stack l, s.serBits order stack r with
        | .error why, _ => .error why
        | .ok _, .error why => .error why
        | .ok lb, .ok rb =>
          match order with
          | .post => .ok (lb ++ rb ++ [false])
          | .pre => .ok (false :: (lb ++ rb))

/-- The rule of SER (R123) with the strap's value. -/
def serRule (order : SerOrder) (s : State) : RuleResult Reply :=
  if s.OPEN = false then .raised .sinkClosed s
  else
    match s.ROOT with
    | none => .done (.val32 0) s
    | some r =>
      match s.serBits order 256 r with
      | .error why => .stuck why
      | .ok bits => .done (.count bits.length) (s.putBitSeq bits)

/-- SER (R123). -/
def execSer (s : State) : Host.Outcome State Fault Refusal := s.runUnlessFaulted (serRule Config.serOrder)

end Sys2Proof.Machine
end

