-- ==== Sys2Proof/Machine/Dispatch.lean ====
section
/-! DEFINITION. One arm per command (spec/46_system.md R160 steps 2 and 3, inside each meaning). -/

namespace Sys2Proof.Machine

def exec (i : Instr) (s : State) : Host.Outcome State Fault Refusal :=
  match i with
  | .reset => Sys2Proof.Machine.execReset s
  | .rdreg reg => Sys2Proof.Machine.execRdreg reg s
  | .nodeRd id field => Sys2Proof.Machine.execNodeRd id field s
  | .freqWr sym count => Sys2Proof.Machine.execFreqWr sym count s
  | .seed => Sys2Proof.Machine.execSeed s
  | .srcerr => Sys2Proof.Machine.execSrcerr s
  | .enql sym freq => Sys2Proof.Machine.execEnql sym freq s
  | .enq id => Sys2Proof.Machine.execEnq id s
  | .deq => Sys2Proof.Machine.execDeq s
  | .merge => Sys2Proof.Machine.execMerge s
  | .build => Sys2Proof.Machine.execBuild s
  | .ser => Sys2Proof.Machine.execSer s
  | .mktab => Sys2Proof.Machine.execMktab s
  | .codeRd sym chunk => Sys2Proof.Machine.execCodeRd sym chunk s
  | .emit sym => Sys2Proof.Machine.execEmit sym s
  | .openSink => Sys2Proof.Machine.execOpen s
  | .wbits value width => Sys2Proof.Machine.execWbits value width s
  | .closeSink => Sys2Proof.Machine.execClose s

end Sys2Proof.Machine
end

