-- ==== Sys2Proof/WellFormed.lean ====
section
/-! DEFINITION. Which terms of `Instr` some command word encodes: R67's extra condition. Every other bound of an
operand is its width in `Instr`. -/

namespace Sys2Proof

/-- R67: RDREG needs `a ≤ 5` (`a` = 6 and 7 are reserved); no other row has an extra condition. -/
def Instr.wellFormed : Instr → Bool
  | .rdreg reg => decide (reg.toNat ≤ 5)
  | .reset | .nodeRd _ _ | .freqWr _ _ | .seed | .srcerr | .enql _ _ | .enq _ | .deq | .merge | .build | .ser
  | .mktab | .codeRd _ _ | .emit _ | .openSink | .wbits _ _ | .closeSink => true

end Sys2Proof
end

