-- ==== Sys2Proof/Decode.lean ====
section
/-! DEFINITION. Decoding and encoding of command words (spec/30_encoding.md R60, R61, R67 to R70). The rows of R67 stand
as data (match and mask), so that they read beside the spec's table; every word decodes to one command or is
illegal by name. -/

namespace Sys2Proof

/-- Field `op`, bits 63:56 (R60). -/
def opField (w : Word) : Byte := w.extractLsb' 56 8

/-- Field `a`, bits 55:48 (R60). -/
def aField (w : Word) : Byte := w.extractLsb' 48 8

/-- Field `b`, bits 47:32 (R60). -/
def bField (w : Word) : BitVec 16 := w.extractLsb' 32 16

/-- Field `imm`, bits 31:0 (R60). -/
def immField (w : Word) : BitVec 32 := w.extractLsb' 0 32

/-- The one word of the four fields, most significant first (R60). -/
def commandWord (op a : Byte) (b : BitVec 16) (imm : BitVec 32) : Word :=
  (op ++ a ++ b ++ imm : BitVec (8 + 8 + 16 + 32))

/-- Why a word is no command (R70). -/
inductive Illegal where
  /-- `op` is none of the 18 of R66. -/
  | unassignedOpcode
  /-- A listed `op` with a bit set that R67's mask says is 0. -/
  | unusedBitsNotZero
  /-- RDREG of register 6 or 7. -/
  | reservedRegister
deriving DecidableEq, Repr

/-- The result of decoding (R68): exactly one command, or illegal. -/
inductive Decoded where
  | instr (i : Instr)
  | illegal (why : Illegal)
deriving DecidableEq, Repr

/-- A row of R67. -/
structure Row where
  matchBits : Word
  mask : Word
deriving DecidableEq, Repr

/-- R67's match and mask of the row with opcode `op`, if `op` is assigned (R66). -/
def rowOf (op : Byte) : Option Row :=
  match op.toNat with
  | 0x01 => some ⟨0x0100000000000000, 0xFFFFFFFFFFFFFFFF⟩
  | 0x02 => some ⟨0x0200000000000000, 0xFFF8FFFFFFFFFFFF⟩
  | 0x03 => some ⟨0x0300000000000000, 0xFFFEFE00FFFFFFFF⟩
  | 0x10 => some ⟨0x1000000000000000, 0xFF00FFFF00000000⟩
  | 0x11 => some ⟨0x1100000000000000, 0xFFFFFFFFFFFFFFFF⟩
  | 0x12 => some ⟨0x1200000000000000, 0xFFFFFFFFFFFFFFFF⟩
  | 0x20 => some ⟨0x2000000000000000, 0xFF00FFFF00000000⟩
  | 0x21 => some ⟨0x2100000000000000, 0xFFFFFE00FFFFFFFF⟩
  | 0x22 => some ⟨0x2200000000000000, 0xFFFFFFFFFFFFFFFF⟩
  | 0x30 => some ⟨0x3000000000000000, 0xFFFFFFFFFFFFFFFF⟩
  | 0x31 => some ⟨0x3100000000000000, 0xFFFFFFFFFFFFFFFF⟩
  | 0x40 => some ⟨0x4000000000000000, 0xFFFFFFFFFFFFFFFF⟩
  | 0x50 => some ⟨0x5000000000000000, 0xFFFFFFFFFFFFFFFF⟩
  | 0x51 => some ⟨0x5100000000000000, 0xFF00FFF8FFFFFFFF⟩
  | 0x52 => some ⟨0x5200000000000000, 0xFF00FFFFFFFFFFFF⟩
  | 0x60 => some ⟨0x6000000000000000, 0xFFFFFFFFFFFFFFFF⟩
  | 0x61 => some ⟨0x6100000000000000, 0xFF000000FFFFFFFF⟩
  | 0x62 => some ⟨0x6200000000000000, 0xFFFFFFFFFFFFFFFF⟩
  | _ => none

/-- The command with opcode `w[63:56]` and the operands of `w`, read per R61 (R66: which field each operand is). -/
def operandsOf (w : Word) : Option Instr :=
  match (opField w).toNat with
  | 0x01 => some .reset
  | 0x02 => some (.rdreg ((aField w).extractLsb' 0 3))
  | 0x03 => some (.nodeRd ((bField w).extractLsb' 0 9) ((aField w).extractLsb' 0 1))
  | 0x10 => some (.freqWr (aField w) (immField w))
  | 0x11 => some .seed
  | 0x12 => some .srcerr
  | 0x20 => some (.enql (aField w) (immField w))
  | 0x21 => some (.enq ((bField w).extractLsb' 0 9))
  | 0x22 => some .deq
  | 0x30 => some .merge
  | 0x31 => some .build
  | 0x40 => some .ser
  | 0x50 => some .mktab
  | 0x51 => some (.codeRd (aField w) ((bField w).extractLsb' 0 3))
  | 0x52 => some (.emit (aField w))
  | 0x60 => some .openSink
  | 0x61 => some (.wbits (aField w) (bField w))
  | 0x62 => some .closeSink
  | _ => none

/-- R68: find the row of `w[63:56]`; the word is legal if its masked bits match and the extra condition holds. -/
def decode (w : Word) : Decoded :=
  match rowOf (opField w), operandsOf w with
  | some r, some i =>
    if w &&& r.mask ≠ r.matchBits then .illegal .unusedBitsNotZero
    else if i.wellFormed then .instr i
    else .illegal .reservedRegister
  | _, _ => .illegal .unassignedOpcode

/-- The word of a command (R60, R66; unused fields are 0, R69). Of an ill-formed term it is a word that decodes to
no command. -/
def encode : Instr → Word
  | .reset => commandWord 0x01 0 0 0
  | .rdreg reg => commandWord 0x02 (reg.setWidth 8) 0 0
  | .nodeRd id field => commandWord 0x03 (field.setWidth 8) (id.setWidth 16) 0
  | .freqWr sym count => commandWord 0x10 sym 0 count
  | .seed => commandWord 0x11 0 0 0
  | .srcerr => commandWord 0x12 0 0 0
  | .enql sym freq => commandWord 0x20 sym 0 freq
  | .enq id => commandWord 0x21 0 (id.setWidth 16) 0
  | .deq => commandWord 0x22 0 0 0
  | .merge => commandWord 0x30 0 0 0
  | .build => commandWord 0x31 0 0 0
  | .ser => commandWord 0x40 0 0 0
  | .mktab => commandWord 0x50 0 0 0
  | .codeRd sym chunk => commandWord 0x51 sym (chunk.setWidth 16) 0
  | .emit sym => commandWord 0x52 sym 0 0
  | .openSink => commandWord 0x60 0 0 0
  | .wbits value width => commandWord 0x61 value width 0
  | .closeSink => commandWord 0x62 0 0 0

/-- The word whose bits the opcode table numbers as `w`: a command is one 64-bit word, bit 0 its least significant
(R10, R60); bits at and above `nbits` are 0. -/
def tableWord (nbits w : Nat) : Word := BitVec.ofNat 64 (w % 2 ^ nbits)

/-- What the decoder reads from the word the opcode table numbers as `w`. -/
def decodeTableWord (nbits w : Nat) : Option Instr :=
  match decode (tableWord nbits w) with
  | .instr i => some i
  | .illegal _ => none

end Sys2Proof
end

