-- ==== Sys2Proof/Machine/Presented.lean ====
section
/-! DEFINITION. What is presented to the block next: HTB fetches nothing (spec/10_state.md R18), the host presents each
command word (00_scope.md R7) and the platform may reset the block (70_reset_and_hazards.md R200, R215). -/

namespace Sys2Proof.Machine

/-- The next thing presented, and the state in which it is no longer pending; `none` while nothing is presented. -/
def State.nextPresented (s : State) : Option (HostEvent × State) :=
  match s.host with
  | [] => none
  | e :: rest => some (e, { s with host := rest })

/-- Between commands the block holds its state and does nothing (60_exceptions.md R195; R202: it waits). -/
def State.idle (s : State) : State := s

/-- Step 1 of R160 for a word that is no command (30_encoding.md R70): IllegalCommand, whether FAULTED or not. -/
def State.illegalWord (s : State) (_why : Illegal) : State := s.raise .illegalCommand

/-- The word is what the host presents next. -/
def State.present (s : State) (w : Word) : State := { s with host := .command w :: s.host }

end Sys2Proof.Machine
end

