-- ==== Sys2Proof/Machine/Step.lean ====
section
/-! DEFINITION. One step: the block takes the next thing presented to it (spec/46_system.md R160; 70_reset_and_hazards.md
R200, R215). -/

namespace Sys2Proof.Machine

/-- R160 for a presented command word; R200 for the platform's reset; nothing where nothing is presented (R195). -/
def step (s : State) : Host.Outcome State Fault Refusal :=
  match s.nextPresented with
  | none => .next s.idle
  | some (.hardwareReset, s') => .next s'.hardwareReset
  | some (.command w, s') =>
    match decode w with
    | .illegal why => .next (s'.illegalWord why)
    | .instr i => exec i s'

/-- The state in which the word the opcode table numbers as `w` is presented next. -/
def State.withFetchWord (s : State) (nbits w : Nat) : State := s.present (tableWord nbits w)

end Sys2Proof.Machine
end

