-- ==== Sys2Proof/Safety.lean ====
section
/-! DEFINITION. What claims about HTB are stated in: the invariants of spec/10_state.md R31, the tree an id names as a
mathematical tree with its postorder bits and its root-to-leaf paths (43_tree_serializer.md R122, R126;
44_encoding_table.md R131 to R135), the bits a sink scope has accepted (45_bit_writer.md R147, R154), and the end of a
run (70_reset_and_hazards.md R216). Nothing here is called by the machine. -/

namespace Sys2Proof.Machine

/-! ### The invariants -/

/-- A comparator on two ids: both name nodes, and the first is before the second. -/
def State.beforeBy (s : State) (before : Comparator) (x y : NodeId) : Bool :=
  match s.slot x, s.slot y with
  | some nx, some ny => before x nx y ny
  | _, _ => false

/-- `State.beforeBy` as a proposition. -/
abbrev State.BeforeBy (s : State) (before : Comparator) (x y : NodeId) : Prop := s.beforeBy before x y = true

/-- This hardware's comparator on two ids (41_priority_queue.md R90). -/
abbrev State.before (s : State) (x y : NodeId) : Bool := s.beforeBy nodeBefore x y

/-- `State.before` as a proposition. -/
abbrev State.Before (s : State) (x y : NodeId) : Prop := s.BeforeBy nodeBefore x y

/-- What every tie-break has in common (93_implementation_defined.md U1; R91): a strict total order on nodes whose first
component is the frequency, and in which a node's place does not depend on its tag, the one field that changes. -/
structure Comparator.TieBreak (before : Comparator) : Prop where
  irreflexive : ∀ x nx, before x nx x nx = false
  transitive : ∀ x y z nx ny nz, before x nx y ny = true → before y ny z nz = true → before x nx z nz = true
  total : ∀ x y nx ny, x ≠ y → (before x nx y ny = true ↔ before y ny x nx = false)
  frequencyFirst : ∀ x y nx ny, nx.frequency.toNat < ny.frequency.toNat → before x nx y ny = true
  tagFree : ∀ x y nx ny a b, before x { nx with st := a } y { ny with st := b } = before x nx y ny

/-- `c` stands as `left` or `right` of node `p` (R31 item 4). -/
def State.ChildOf (s : State) (c p : NodeId) : Prop :=
  ∃ n l r, s.slot p = some n ∧ n.children = some (l, r) ∧ (c = l ∨ c = r)

/-- A slot holds a value exactly below NEXT (R33, R35). -/
def State.SlotsBelowNext (s : State) : Prop := ∀ id : NodeId, (s.slot id).isSome = true ↔ id.val < s.NEXT.val

/-- Every entry of the queue names a node. -/
def State.QueueReadable (s : State) : Prop := ∀ e ∈ s.PQ, (s.slot e).isSome = true

/-- The unused low positions of ACC are 0 (R27, R31 item 8). -/
def State.AccClean (s : State) : Prop := ∀ i, i < 8 - s.NBITS.val → s.ACC.getLsbD i = false

/-- R31, for a comparator. Item 3 holds by the type of `children`, the bound of NEXT in item 6 by its type; item 9 follows from
these and is a claim of its own. -/
structure State.InvFor (before : Comparator) (s : State) : Prop where
  /-- R33, R35: a slot holds a value exactly below NEXT. -/
  slots : s.SlotsBelowNext
  /-- Item 1: the entries are distinct. -/
  queueDistinct : s.PQ.Nodup
  /-- Item 1: the entries are exactly the nodes tagged QUEUED. -/
  queuedIff : ∀ id, id ∈ s.PQ ↔ ∃ n, s.slot id = some n ∧ n.st = .queued
  /-- Item 2: strictly ascending. -/
  queueSorted : s.PQ.Pairwise (s.BeforeBy before)
  /-- Item 4: a child's id is smaller than its parent's. -/
  childBelow : ∀ c p, s.ChildOf c p → c.val < p.val
  /-- Item 4: left and right differ. -/
  childrenDiffer : ∀ p n l r, s.slot p = some n → n.children = some (l, r) → l ≠ r
  /-- Item 4: an id is a child of at most one node. -/
  childOnce : ∀ c p q, s.ChildOf c p → s.ChildOf c q → p = q
  /-- Item 4: the children are exactly the nodes tagged CHILD. -/
  childIff : ∀ c n, s.slot c = some n → (n.st = .child ↔ ∃ p, s.ChildOf c p)
  /-- Item 5: the node tagged ROOT is the one ROOT names. -/
  rootIff : ∀ id n, s.slot id = some n → (n.st = .root ↔ s.ROOT = some id)
  /-- Item 5: ROOT names a node or is NIL. -/
  rootAllocated : ∀ id, s.ROOT = some id → (s.slot id).isSome = true
  /-- Item 6. -/
  queueBound : s.PQ.length ≤ 256
  /-- Item 7: an internal node's frequency is its children's sum, and its character the sentinel. -/
  sums : ∀ p n l r nl nr, s.slot p = some n → n.children = some (l, r) → s.slot l = some nl → s.slot r = some nr →
    n.frequency.toNat = nl.frequency.toNat + nr.frequency.toNat ∧ n.character = Config.sentinel
  /-- Item 8. -/
  closedWriter : s.OPEN = false → s.NBITS = 0 ∧ s.ACC = 0
  /-- Item 8. -/
  accClean : s.AccClean
  /-- Item 10. -/
  codeFits : ∀ sym, (s.code sym).bits.toNat < 2 ^ (s.code sym).len.toNat

/-- R31 for this hardware's comparator. -/
abbrev State.Inv (s : State) : Prop := State.InvFor nodeBefore s

/-- FAULT holds 0 or the code of a fault kind (60_exceptions.md R176). -/
def State.FaultKnown (s : State) : Prop := s.FAULT = 0 ∨ ∃ f : FaultKind, s.FAULT = faultCode f

/-- In every internal node the left child is before the right one (42_tree_builder.md R108). -/
def State.ChildrenInOrder (s : State) : Prop :=
  ∀ p n l r, s.slot p = some n → n.children = some (l, r) → s.Before l r

/-- The frequency of the node an id names. -/
def State.freqOf (s : State) (id : NodeId) : Nat := ((s.slot id).map fun n => n.frequency.toNat).getD 0

/-- The sum of the frequencies in the queue. -/
def State.queueTotal (s : State) : Nat := (s.PQ.map s.freqOf).sum

/-- Every entry of the queue is a leaf, and `chars` are their byte values, in queue order. -/
def State.QueueOfLeaves (s : State) (chars : List Byte) : Prop :=
  List.Forall₂ (fun e c => ∃ n, s.slot e = some n ∧ n.children = none ∧ n.character = c) s.PQ chars

/-! ### What a command adds -/

/-- `pq` with `id` at the place the order gives it among the entries (41_priority_queue.md R92), by the keys of state `t`. -/
def State.inserted (t : State) (pq : List NodeId) (id : NodeId) : List NodeId :=
  pq.take (pq.countP fun e => t.before e id) ++ id :: pq.drop (pq.countP fun e => t.before e id)

/-- The byte values with a non-zero entry in FREQ, ascending (40_frequency_interface.md R82). -/
def State.nonzeroSyms (s : State) : List Byte :=
  ((List.range 256).map (BitVec.ofNat 8)).filter fun sym => s.freq sym != 0

/-- From `s` to `t` a QUEUED leaf was added for each of `syms`, in that order, with its entry of FREQ as frequency
(R82, R83): ids from NEXT on; every other slot as before; the queue holds the old entries in their old order and the new
ids, and is sorted if it was. -/
def State.LeavesAdded (s t : State) (syms : List Byte) : Prop :=
  t.NEXT.val = s.NEXT.val + syms.length ∧
  (∀ (j : Nat) (hj : j < syms.length) (id : NodeId), id.val = s.NEXT.val + j →
    t.slot id = some ⟨syms[j], s.freq syms[j], none, .queued⟩) ∧
  (∀ id : NodeId, id.val < s.NEXT.val ∨ s.NEXT.val + syms.length ≤ id.val → t.slot id = s.slot id) ∧
  List.Perm t.PQ (s.PQ ++ (List.finRange 511).filter fun id =>
    decide (s.NEXT.val ≤ id.val) && decide (id.val < s.NEXT.val + syms.length)) ∧
  s.PQ.Sublist t.PQ ∧
  (s.SlotsBelowNext → s.PQ.Pairwise s.Before → t.PQ.Pairwise t.Before)

/-! ### Trees -/

/-- A finished tree's shape and leaf values. -/
inductive CodeTree where
  | leaf (c : Byte)
  | node (l r : CodeTree)
deriving DecidableEq, Repr

/-- The leaf values, left to right. -/
def CodeTree.leaves : CodeTree → List Byte
  | .leaf c => [c]
  | .node l r => l.leaves ++ r.leaves

/-- The greatest depth of a leaf (00_scope.md R12). -/
def CodeTree.depth : CodeTree → Nat
  | .leaf _ => 0
  | .node l r => max l.depth r.depth + 1

/-- The number of internal nodes. -/
def CodeTree.internals : CodeTree → Nat
  | .leaf _ => 0
  | .node l r => l.internals + r.internals + 1

/-- The postorder marker bits (R122). -/
def CodeTree.postorder : CodeTree → List Bool
  | .leaf c => true :: msbFirst 8 c
  | .node l r => l.postorder ++ r.postorder ++ [false]

/-- Every leaf's value and its path from the root, left = 0 and right = 1 (R131), leaves left to right. -/
def CodeTree.paths : CodeTree → List (Byte × List Bool)
  | .leaf c => [(c, [])]
  | .node l r => (l.paths.map fun q => (q.1, false :: q.2)) ++ (r.paths.map fun q => (q.1, true :: q.2))

/-- The unsigned number whose binary digits, first digit most significant, are the bits (R131). -/
def bitsNumber (bits : List Bool) : Nat := bits.foldl (fun n b => 2 * n + b.toNat) 0

/-- The pair (bits, len) the table holds for a byte value (R132 to R134): of the leaf visited last that carries the value;
(0, 1) for the single leaf; (0, 0) where no leaf carries it. -/
def CodeTree.codeOf (t : CodeTree) (sym : Byte) : Nat × Nat :=
  match ((t.paths.filter fun q => q.1 == sym).getLast?).map Prod.snd with
  | none => (0, 0)
  | some [] => (0, 1)
  | some path => (bitsNumber path, path.length)

/-- The sum over the leaves of weight times depth (42_tree_builder.md R114). -/
def CodeTree.cost (weight : Byte → Nat) (t : CodeTree) : Nat := (t.paths.map fun q => weight q.1 * q.2.length).sum

/-- A binary prefix code for the byte values `chars` (R114, R135): no code word is the start of another, and none is empty
(44_encoding_table.md R133: "a zero-length code is unusable by a writer"). It need not be complete. -/
def PrefixCode (chars : List Byte) (code : Byte → List Bool) : Prop :=
  (∀ c ∈ chars, code c ≠ []) ∧ ∀ c ∈ chars, ∀ d ∈ chars, c ≠ d → ¬ code c <+: code d

/-- The sum over the byte values of weight times code length (R114). -/
def codeCost (chars : List Byte) (weight len : Byte → Nat) : Nat := (chars.map fun c => weight c * len c).sum

/-- `weight` is the frequency of every leaf in the queue (R114). -/
def State.QueueWeights (s : State) (weight : Byte → Nat) : Prop :=
  ∀ e ∈ s.PQ, ∀ n, s.slot e = some n → weight n.character = n.frequency.toNat

/-- The tree under an id. -/
inductive State.TreeAt (s : State) : NodeId → CodeTree → Prop where
  | leaf {id : NodeId} {n : Node} : s.slot id = some n → n.children = none → State.TreeAt s id (.leaf n.character)
  | node {id l r : NodeId} {n : Node} {tl tr : CodeTree} : s.slot id = some n → n.children = some (l, r) →
      State.TreeAt s l tl → State.TreeAt s r tr → State.TreeAt s id (.node tl tr)

/-- The byte whose bits, most significant first, are the given ones. -/
def byteOfBits (bits : List Bool) : Byte := BitVec.ofNat 8 (bitsNumber bits)

/-- The inverse of R126, from how many leaf markers and internal markers are still to be read, the stack of the trees read
so far, and the bits: the tree left on the stack, and the bits after it. -/
def rebuild : Nat → Nat → List CodeTree → List Bool → Option (CodeTree × List Bool)
  | 0, 0, [t], rest => some (t, rest)
  | leaves + 1, internals, stack, true :: b7 :: b6 :: b5 :: b4 :: b3 :: b2 :: b1 :: b0 :: rest =>
    rebuild leaves internals (.leaf (byteOfBits [b7, b6, b5, b4, b3, b2, b1, b0]) :: stack) rest
  | leaves, internals + 1, r :: l :: stack, false :: rest => rebuild leaves internals (.node l r :: stack) rest
  | _, _, _, _ => none

/-! ### The stream -/

/-- The bytes appended to OUT since the last EOS, or since the start (R216). -/
def scopeBytes (out : List OutEvent) : List Byte :=
  out.foldl (fun acc e => match e with | .byte b => acc ++ [b] | .eos => []) []

/-- The bits accepted in the scope so far: the completed bytes' and the NBITS held in ACC (R27, R147). -/
def State.acceptedBits (s : State) : List Bool :=
  (scopeBytes s.OUT).flatMap (msbFirst 8) ++ (msbFirst 8 s.ACC).take s.NBITS.val

/-- Bits cut into bytes, the last byte filled with the pad bit (R154). -/
def packBytes (pad : Bool) : List Bool → List Byte
  | [] => []
  | b7 :: b6 :: b5 :: b4 :: b3 :: b2 :: b1 :: b0 :: rest =>
    byteOfBits [b7, b6, b5, b4, b3, b2, b1, b0] :: packBytes pad rest
  | short => [byteOfBits ((short ++ List.replicate 8 pad).take 8)]

/-- The artifact (R216): the bytes of the last closed scope, from the EOS before it or from the start up to the EOS that ends
OUT; none where OUT does not end with EOS. -/
def artifactOf (out : List OutEvent) : Option (List Byte) :=
  match out.getLast? with
  | some .eos => some (scopeBytes out.dropLast)
  | some (.byte _) => none
  | none => none

/-- The artifact of the run that has ended in a state (R216). -/
def State.artifact (s : State) : Option (List Byte) := artifactOf s.OUT

/-! ### Runs of commands -/

/-- Commands run one after another, each to completion (00_scope.md R7). -/
def execAll : List Instr → State → Host.Outcome State Fault Refusal
  | [], s => .next s
  | i :: rest, s =>
    match exec i s with
    | .next s' => execAll rest s'
    | .fault why => .fault why
    | .refused why => .refused why

/-- The WBITS commands SER equals (45_bit_writer.md R151), for a tree. -/
def CodeTree.wbits : CodeTree → List Instr
  | .leaf c => [.wbits 1 1, .wbits c 8]
  | .node l r => l.wbits ++ r.wbits ++ [.wbits 0 1]

/-- The WBITS commands that write the given slices of a bit sequence, each of 1 to 8 bits (R151; 20_memory.md R47). -/
def sliceGranules (slices : List (List Bool)) : List Instr :=
  slices.map fun b => .wbits (byteOfBits b) (BitVec.ofNat 16 b.length)

/-- The slices are of 1 to 8 bits (00_scope.md R5: MAXW = 8). -/
def GranuleSlices (slices : List (List Bool)) : Prop := ∀ b ∈ slices, 1 ≤ b.length ∧ b.length ≤ 8

/-! ### Words, responses and the end of a run -/

/-- The mnemonic of a command (30_encoding.md R66). -/
def mnemonicOf : Instr → String
  | .reset => "RESET"
  | .rdreg _ => "RDREG"
  | .nodeRd _ _ => "NODE_RD"
  | .freqWr _ _ => "FREQ_WR"
  | .seed => "SEED"
  | .srcerr => "SRCERR"
  | .enql _ _ => "ENQL"
  | .enq _ => "ENQ"
  | .deq => "DEQ"
  | .merge => "MERGE"
  | .build => "BUILD"
  | .ser => "SER"
  | .mktab => "MKTAB"
  | .codeRd _ _ => "CODE_RD"
  | .emit _ => "EMIT"
  | .openSink => "OPEN"
  | .wbits _ _ => "WBITS"
  | .closeSink => "CLOSE"

/-- The table of R67, row by row: mnemonic, match, mask. -/
def tableR67 : List (String × Word × Word) :=
  [("RESET", 0x0100000000000000, 0xFFFFFFFFFFFFFFFF), ("RDREG", 0x0200000000000000, 0xFFF8FFFFFFFFFFFF),
   ("NODE_RD", 0x0300000000000000, 0xFFFEFE00FFFFFFFF), ("FREQ_WR", 0x1000000000000000, 0xFF00FFFF00000000),
   ("SEED", 0x1100000000000000, 0xFFFFFFFFFFFFFFFF), ("SRCERR", 0x1200000000000000, 0xFFFFFFFFFFFFFFFF),
   ("ENQL", 0x2000000000000000, 0xFF00FFFF00000000), ("ENQ", 0x2100000000000000, 0xFFFFFE00FFFFFFFF),
   ("DEQ", 0x2200000000000000, 0xFFFFFFFFFFFFFFFF)] ++
  [("MERGE", 0x3000000000000000, 0xFFFFFFFFFFFFFFFF), ("BUILD", 0x3100000000000000, 0xFFFFFFFFFFFFFFFF),
   ("SER", 0x4000000000000000, 0xFFFFFFFFFFFFFFFF), ("MKTAB", 0x5000000000000000, 0xFFFFFFFFFFFFFFFF),
   ("CODE_RD", 0x5100000000000000, 0xFF00FFF8FFFFFFFF), ("EMIT", 0x5200000000000000, 0xFF00FFFFFFFFFFFF),
   ("OPEN", 0x6000000000000000, 0xFFFFFFFFFFFFFFFF), ("WBITS", 0x6100000000000000, 0xFF000000FFFFFFFF),
   ("CLOSE", 0x6200000000000000, 0xFFFFFFFFFFFFFFFF)]

/-- The `code` field of a response word (R63). -/
def respCode (q : Word) : Byte := q.extractLsb' 56 8

/-- The `aux` field of a response word (R63). -/
def respAux (q : Word) : BitVec 24 := q.extractLsb' 32 24

/-- The `val` field of a response word (R63). -/
def respVal (q : Word) : BitVec 32 := q.extractLsb' 0 32

/-- What a raise of a fault with code `code` leaves of a state (60_exceptions.md R180): FAULT takes the code if it was 0, and
the response is the code with aux and val 0. -/
def State.afterFault (s : State) (code : Byte) : State :=
  { s with FAULT := if s.FAULT = 0 then code else s.FAULT, rsp := s.rsp ++ [responseWord code 0 0] }

/-- A run has ended successfully (R216): CLOSE, run in `s`, has completed with code 0x00, and in the state `t` after it
FAULT is 0. What a RESET leaves is no such end, whatever OUT ends with. -/
def State.RunSucceeded (s t : State) : Prop :=
  exec .closeSink s = .next t ∧ t.rsp.getLast?.map respCode = some 0 ∧ t.FAULT = 0

/-- A run has ended unsuccessfully (R216). -/
def State.RunFailed (s : State) : Prop := s.FAULT ≠ 0

end Sys2Proof.Machine
end

