-- ==== Sys2Proof/Certificates/Slice0/Obligations.lean ====
section
/-! DEFINITION. The statements for the provers, from the numbered rules of spec/. Each docstring names its rules. Nothing
is proved here. -/

open Sys2Proof Sys2Proof.Machine

/-! ### Encoding (30_encoding.md) -/

/-- R60, R61, R66 to R69: decoding the word of a well-formed command gives the command, every operand at every value. -/
def Obligations.DecodeEncodeRoundTrip : Prop :=
  ∀ i : Instr, i.wellFormed = true → decode (encode i) = .instr i

/-- R69 ("a command and its operands determine the word"), R68: a word that decodes to a command is that command's word. -/
def Obligations.EncodeDecodeRoundTrip : Prop :=
  ∀ (w : Word) (i : Instr), decode w = .instr i → i.wellFormed = true ∧ encode i = w

/-- R67: a word is a legal encoding of the command in a row iff its masked bits are the row's match and the row's extra
condition holds (only RDREG has one: a ≤ 5). -/
def Obligations.LegalWordsAreTheTableRows : Prop :=
  ∀ (m : String) (matchBits mask w : Word), (m, matchBits, mask) ∈ tableR67 →
    ((∃ i, decode w = .instr i ∧ mnemonicOf i = m) ↔
      (w &&& mask = matchBits ∧ (m = "RDREG" → (aField w).toNat ≤ 5)))

/-- R74: the words the spec writes out for one command of each operand shape. -/
def Obligations.SpecExampleWordsDecode : Prop :=
  ∀ p ∈ [((0x1061000000000005 : Word), Instr.freqWr 0x61 5), (0x2078000000000007, .enql 0x78 7),
      (0x2100000100000000, .enq 1), (0x0301000A00000000, .nodeRd 10 1), (0x5161000000000000, .codeRd 0x61 0),
      (0x5266000000000000, .emit 0x66), (0x61F5000300000000, .wbits 0xF5 3), (0x3100000000000000, .build)],
    encode p.2 = p.1 ∧ decode p.1 = .instr p.2

/-- R70: what an illegal word does when it is presented, and which words are illegal. -/
def Obligations.IllegalWordRaisesIllegalCommand : Prop :=
  (∀ (s : State) (w : Word) (why : Illegal) (rest : List HostEvent),
    s.host = .command w :: rest → decode w = .illegal why →
      step s = .next ({ s with host := rest }.afterFault 0x10)) ∧
  (∀ w : Word, (∀ row ∈ tableR67, opField w ≠ row.2.1.extractLsb' 56 8) → ∃ why, decode w = .illegal why) ∧
  (∀ w : Word, ∀ row ∈ tableR67, opField w = row.2.1.extractLsb' 56 8 → w &&& row.2.2 ≠ row.2.1 →
    ∃ why, decode w = .illegal why) ∧
  (∀ w : Word, opField w = 0x02 → 6 ≤ (aField w).toNat → ∃ why, decode w = .illegal why) ∧
  (∀ w : Word, opField w = 0x03 → (1 < (aField w).toNat ∨ 511 < (bField w).toNat) → ∃ why, decode w = .illegal why) ∧
  (∀ w : Word, opField w = 0x21 → 511 < (bField w).toNat → ∃ why, decode w = .illegal why) ∧
  (∀ w : Word, opField w = 0x51 → 7 < (bField w).toNat → ∃ why, decode w = .illegal why)

/-! ### Steps, responses, faults (46_system.md, 60_exceptions.md, 70_reset_and_hazards.md) -/

/-- R160: where the word presented next decodes to a command, the step is that command run in the state in which the word
is no longer pending; where nothing is presented the state stays (R195, R202). That what is presented stands in a list,
that a platform reset is an event of it, and that this event leaves the responses and the later events as they are, is
the model's own choice (log entries 1, 2 and 3). -/
def Obligations.StepRunsThePresentedCommand : Prop :=
  (∀ (s : State) (w : Word) (rest : List HostEvent) (i : Instr),
    s.host = .command w :: rest → decode w = .instr i → step s = exec i { s with host := rest }) ∧
  (∀ s : State, s.host = [] → step s = .next s) ∧
  (∀ (s : State) (rest : List HostEvent), s.host = .hardwareReset :: rest →
    ∃ t, step s = .next t ∧ t.rsp = s.rsp ∧ t.host = rest)

/-- R200: the state after the platform's reset, and that it appends nothing to OUT. -/
def Obligations.HardwareResetLeavesResetValues : Prop :=
  ∀ (s : State) (rest : List HostEvent), s.host = .hardwareReset :: rest →
    ∃ t, step s = .next t ∧
      (∀ sym, t.freq sym = 0) ∧ t.NEXT = 0 ∧ t.PQ = [] ∧ t.ROOT = none ∧ t.BUILT = false ∧
      (∀ sym, t.code sym = ⟨0, 0⟩) ∧ t.OPEN = false ∧ t.ACC = 0 ∧ t.NBITS = 0 ∧ t.FAULT = 0 ∧
      (∀ id, t.slot id = none) ∧ t.OUT = s.OUT

/-- R161: RESET in every state: an open sink is flushed and closed as by CLOSE, then every piece of state has its value of
R32; in the reset state it changes nothing and appends nothing; no other command clears FAULT. -/
def Obligations.ResetCommandReleasesEverything : Prop :=
  (∀ s : State, ∃ t, exec .reset s = .next t ∧
      (∀ sym, t.freq sym = 0) ∧ t.NEXT = 0 ∧ t.PQ = [] ∧ t.ROOT = none ∧ t.BUILT = false ∧
      (∀ sym, t.code sym = ⟨0, 0⟩) ∧ t.OPEN = false ∧ t.ACC = 0 ∧ t.NBITS = 0 ∧ t.FAULT = 0 ∧
      (∀ id, t.slot id = none) ∧ t.host = s.host ∧ t.rsp = s.rsp ++ [0] ∧ t.status = 0 ∧
      t.OUT = s.OUT ++
        (if s.OPEN then
          (if s.NBITS.val = 0 then [] else [.byte ((s.ACC >>> (8 - s.NBITS.val)) <<< (8 - s.NBITS.val))]) ++ [.eos]
        else [])) ∧
  (∀ s : State, s = { State.reset with OUT := s.OUT, host := s.host, rsp := s.rsp } →
      exec .reset s = .next { s with rsp := s.rsp ++ [0] }) ∧
  (∀ (i : Instr) (s t : State), exec i s = .next t → s.FAULT ≠ 0 → t.FAULT = 0 → i = .reset)

/-- R166: a command of the read class changes no state other than possibly recording a fault in an empty FAULT, which only
NODE_RD can, and is executed in every state; every other command but RESET is refused while FAULTED. -/
def Obligations.ReadClassAndRefusal : Prop :=
  (∀ (i : Instr) (s t : State), i.wellFormed = true → i.readClass = true → exec i s = .next t →
    t = { s with FAULT := t.FAULT, rsp := t.rsp } ∧
    (t.FAULT = s.FAULT ∨ (s.FAULT = 0 ∧ ∃ id field, i = .nodeRd id field)) ∧
    ∃ q, t.rsp = s.rsp ++ [q] ∧ respCode q ≠ 0xFF) ∧
  (∀ (i : Instr) (s : State), i.readClass = false → i ≠ .reset → s.FAULT ≠ 0 →
    exec i s = .next { s with rsp := s.rsp ++ [responseWord 0xFF 0 0] })

/-- R63, R160, R29, R180: a command returns exactly one response; a response with a non-zero code has aux = val = 0; FAULT
takes the response's code if it was 0 and otherwise stays (RESET apart, which clears it); what is still to be presented
stays. -/
def Obligations.OneResponseAndFirstFaultKept : Prop :=
  ∀ (i : Instr) (s t : State), exec i s = .next t →
    t.host = s.host ∧
    ∃ code aux val, t.rsp = s.rsp ++ [responseWord code aux val] ∧
      (code ≠ 0 → aux = 0 ∧ val = 0) ∧
      (i ≠ .reset → t.FAULT = if s.FAULT = 0 then code else s.FAULT) ∧
      (i = .reset → t.FAULT = 0 ∧ code = 0)

/-- R180(4): a command other than SEED and BUILD that answers with a fault code or a refusal leaves the whole state, other
than FAULT and the responses, as it found it; SEED and BUILD leave everything but the arena and the queue. -/
def Obligations.FaultsArePrecise : Prop :=
  ∀ (i : Instr) (s t : State) (q : Word), exec i s = .next t → t.rsp = s.rsp ++ [q] → respCode q ≠ 0 →
    (i ≠ .seed → i ≠ .build → t = { s with FAULT := t.FAULT, rsp := t.rsp }) ∧
    t = { s with NEXT := t.NEXT, N := t.N, PQ := t.PQ, FAULT := t.FAULT, rsp := t.rsp }

/-- R176: FAULT only ever holds 0 or the code of one of the ten kinds, over every step. -/
def Obligations.StepKeepsFaultKnown : Prop :=
  ∀ s t : State, s.FaultKnown → step s = .next t → t.FaultKnown

/-- R202: which commands complete in the reset state and which fault, with which code. -/
def Obligations.CommandsInTheResetState : Prop :=
  ∀ (i : Instr) (s : State), i.wellFormed = true →
    s = { State.reset with OUT := s.OUT, host := s.host, rsp := s.rsp } →
    ∃ t, exec i s = .next t ∧
      t.FAULT = match i with
        | .nodeRd _ _ | .enq _ => 0x16
        | .deq | .merge => 0x03
        | .ser | .emit _ | .wbits _ _ | .closeSink => 0x12
        | .srcerr => 0x01
        | .reset | .rdreg _ | .freqWr _ _ | .seed | .enql _ _ | .build | .mktab | .codeRd _ _ | .openSink => 0

/-! ### What only some commands write (10_state.md R16, 20_memory.md R40) -/

/-- R28: HTB only appends to OUT, in every step. -/
def Obligations.OutOnlyGrows : Prop :=
  ∀ s t : State, step s = .next t → ∃ events, t.OUT = s.OUT ++ events

/-- R16, R20, R26, R40: FREQ is written only by FREQ_WR and RESET, CODE only by MKTAB and RESET. -/
def Obligations.TablesWrittenOnlyByTheirCommands : Prop :=
  ∀ (i : Instr) (s t : State), exec i s = .next t → i ≠ .reset →
    ((∀ sym count, i ≠ .freqWr sym count) → t.FREQ = s.FREQ) ∧ (i ≠ .mktab → t.CODE = s.CODE)

/-- R21, R23: while no RESET comes, an allocated node keeps its character, frequency and children, and NEXT never falls. -/
def Obligations.NodesAreWrittenOnce : Prop :=
  ∀ (i : Instr) (s t : State), exec i s = .next t → i ≠ .reset →
    s.NEXT.val ≤ t.NEXT.val ∧
    ∀ (id : NodeId) (n : Node), id.val < s.NEXT.val → s.slot id = some n →
      ∃ tag, t.slot id = some { n with st := tag }

/-- R16, R40: only ENQL, SEED, MERGE, BUILD and RESET write NEXT; these and ENQ and DEQ write the arena and the queue. -/
def Obligations.ArenaAndQueueWriters : Prop :=
  ∀ (i : Instr) (s t : State), exec i s = .next t →
    (t.NEXT = s.NEXT ∨ i = .reset ∨ i = .seed ∨ i = .merge ∨ i = .build ∨ ∃ sym freq, i = .enql sym freq) ∧
    ((t.N = s.N ∧ t.PQ = s.PQ) ∨ i = .reset ∨ i = .seed ∨ i = .merge ∨ i = .build ∨ i = .deq ∨
      (∃ id, i = .enq id) ∨ ∃ sym freq, i = .enql sym freq)

/-- R16, R25, R210: ROOT and BUILT are written only by BUILD and RESET; while no RESET comes ROOT keeps its tree and BUILT
stays set. -/
def Obligations.RootIsSetOncePerRun : Prop :=
  ∀ (i : Instr) (s t : State), exec i s = .next t → i ≠ .reset →
    (i ≠ .build → t.ROOT = s.ROOT ∧ t.BUILT = s.BUILT) ∧
    (∀ r, s.ROOT = some r → t.ROOT = some r) ∧
    (s.BUILT = true → t.BUILT = true) ∧
    (s.ROOT = none → ∀ r, t.ROOT = some r → s.PQ ≠ [] ∧ t.BUILT = true)

/-- R149: nothing but OPEN sets OPEN, nothing but CLOSE and RESET clears it; SER, EMIT and WBITS fault with SinkClosed
where it is clear. -/
def Obligations.SinkIsOpenedOnlyByOpen : Prop :=
  (∀ (i : Instr) (s t : State), exec i s = .next t →
    (s.OPEN = false → t.OPEN = true → i = .openSink) ∧
    (s.OPEN = true → t.OPEN = false → i = .closeSink ∨ i = .reset)) ∧
  (∀ (i : Instr) (s : State), (i = .ser ∨ (∃ sym, i = .emit sym) ∨ ∃ value width, i = .wbits value width) →
    s.OPEN = false → s.FAULT = 0 → exec i s = .next (s.afterFault 0x12))

/-- R16, R40: ACC, NBITS and OUT are written only by SER, EMIT, WBITS, OPEN, CLOSE and RESET, and OPEN appends nothing. -/
def Obligations.WriterRegistersWriters : Prop :=
  ∀ (i : Instr) (s t : State), exec i s = .next t →
    (t.ACC = s.ACC ∧ t.NBITS = s.NBITS ∧ t.OUT = s.OUT) ∨
    (i = .openSink ∧ t.OUT = s.OUT) ∨ i = .ser ∨ i = .closeSink ∨ i = .reset ∨
    (∃ sym, i = .emit sym) ∨ ∃ value width, i = .wbits value width

/-! ### Frequency interface (40_frequency_interface.md) -/

/-- R81: FREQ_WR writes one entry and nothing else. -/
def Obligations.FreqWrWritesOneEntry : Prop :=
  ∀ (s : State) (sym : Byte) (count : Freq), s.FAULT = 0 →
    ∃ t, exec (.freqWr sym count) s = .next t ∧ t.freq sym = count ∧
      (∀ x, x ≠ sym → t.freq x = s.freq x) ∧ t = { s with FREQ := t.FREQ, rsp := s.rsp ++ [0] }

/-- R82, R83: where both capacities allow it, SEED adds a leaf for every non-zero entry, ascending, and answers how many. -/
def Obligations.SeedAddsTheLeaves : Prop :=
  ∀ s : State, s.FAULT = 0 → s.QueueReadable → s.NEXT.val + s.nonzeroSyms.length ≤ 511 →
    s.PQ.length + s.nonzeroSyms.length ≤ 256 →
    ∃ t, exec .seed s = .next t ∧ s.LeavesAdded t s.nonzeroSyms ∧
      t = { s with NEXT := t.NEXT, N := t.N, PQ := t.PQ, rsp := s.rsp ++ [BitVec.ofNat 64 s.nonzeroSyms.length] }

/-- R84: SEED that faults part-way keeps the leaves created before, and only those. -/
def Obligations.SeedThatFaultsPartWay : Prop :=
  ∀ (s : State) (fit : Nat), s.FAULT = 0 → s.QueueReadable → fit = min (511 - s.NEXT.val) (256 - s.PQ.length) →
    fit < s.nonzeroSyms.length →
    ∃ t, exec .seed s = .next t ∧ s.LeavesAdded t (s.nonzeroSyms.take fit) ∧
      t = { s.afterFault 0x02 with NEXT := t.NEXT, N := t.N, PQ := t.PQ }

/-- R86: SRCERR raises SourceReadError and changes nothing else; while FAULTED it is refused. -/
def Obligations.SrcerrRaisesSourceReadError : Prop :=
  ∀ s : State,
    (s.FAULT = 0 → exec .srcerr s = .next { s with FAULT := 0x01, rsp := s.rsp ++ [0x0100000000000000] }) ∧
    (s.FAULT ≠ 0 → exec .srcerr s = .next { s with rsp := s.rsp ++ [0xFF00000000000000] })

/-! ### Priority queue (41_priority_queue.md) -/

/-- R90: the comparator is the lexicographic order of (frequency, leaf before internal, byte value of a leaf, id). -/
def Obligations.OrderIsLexicographic : Prop :=
  ∀ (x y : NodeId) (nx ny : Node),
    let kind := fun n : Node => if n.children = none then 0 else 1
    let minor := fun n : Node => if n.children = none then n.character.toNat else 0
    (nodeBefore x nx y ny = true ↔
      nx.frequency.toNat < ny.frequency.toNat ∨ (nx.frequency.toNat = ny.frequency.toNat ∧
        (kind nx < kind ny ∨ (kind nx = kind ny ∧
          (minor nx < minor ny ∨ (minor nx = minor ny ∧ x.val < y.val))))))

/-- R91: `before` is irreflexive, transitive, and compares any two distinct ids one way; and so it is a tie-break as U1 asks
for: its first component is the frequency, and a change of tag changes no place. -/
def Obligations.OrderIsStrictAndTotal : Prop :=
  (∀ x nx, nodeBefore x nx x nx = false) ∧
  (∀ x y z nx ny nz, nodeBefore x nx y ny = true → nodeBefore y ny z nz = true → nodeBefore x nx z nz = true) ∧
  (∀ x y nx ny, x ≠ y → (nodeBefore x nx y ny = true ↔ nodeBefore y ny x nx = false)) ∧
  Comparator.TieBreak nodeBefore

/-- R92, R94, R96: ENQL places a QUEUED leaf at NEXT and in the queue where the order puts it, and answers its id; where the
arena or the queue is full it raises AllocationError. -/
def Obligations.EnqlCreatesAndEnqueuesALeaf : Prop :=
  ∀ (s : State) (sym : Byte) (freq : Freq), s.FAULT = 0 →
    (s.NEXT.val = 511 ∨ 256 ≤ s.PQ.length → exec (.enql sym freq) s = .next (s.afterFault 0x02)) ∧
    (∀ id : NodeId, id.val = s.NEXT.val → s.PQ.length < 256 → s.QueueReadable →
      ∃ t, exec (.enql sym freq) s = .next t ∧ t.NEXT.val = s.NEXT.val + 1 ∧
        t.slot id = some ⟨sym, freq, none, .queued⟩ ∧ (∀ x, x ≠ id → t.slot x = s.slot x) ∧
        t.PQ = t.inserted s.PQ id ∧
        t = { s with NEXT := t.NEXT, N := t.N, PQ := t.PQ, rsp := s.rsp ++ [BitVec.ofNat 64 id.val] })

/-- R98: ENQ's checks in their order, and its effect on a HELD node. -/
def Obligations.EnqPutsAHeldNodeBack : Prop :=
  ∀ (s : State) (b : BitVec 9), s.FAULT = 0 →
    (s.NEXT.val ≤ b.toNat → exec (.enq b) s = .next (s.afterFault 0x16)) ∧
    (∀ (id : NodeId) (n : Node), id.val = b.toNat → id.val < s.NEXT.val → s.slot id = some n →
      (n.st ≠ .held → exec (.enq b) s = .next (s.afterFault 0x16)) ∧
      (n.st = .held → 256 ≤ s.PQ.length → exec (.enq b) s = .next (s.afterFault 0x02)) ∧
      (n.st = .held → s.PQ.length < 256 → s.QueueReadable →
        ∃ t, exec (.enq b) s = .next t ∧ t.slot id = some { n with st := .queued } ∧
          (∀ x, x ≠ id → t.slot x = s.slot x) ∧ t.PQ = t.inserted s.PQ id ∧
          t = { s with N := t.N, PQ := t.PQ, rsp := s.rsp ++ [0] }))

/-- R100: DEQ removes the front, which is the minimum, tags it HELD and answers it; on an empty queue EmptyQueueError. -/
def Obligations.DeqRemovesTheMinimum : Prop :=
  ∀ s : State, s.FAULT = 0 →
    (s.PQ = [] → exec .deq s = .next (s.afterFault 0x03)) ∧
    (∀ id rest, s.PQ = id :: rest →
      (s.Inv → ∀ e ∈ rest, s.Before id e ∧ s.freqOf id ≤ s.freqOf e) ∧
      ∃ t, exec .deq s = .next t ∧ t.PQ = rest ∧ t.slot id = (s.slot id).map (fun n => { n with st := .held }) ∧
        (∀ x, x ≠ id → t.slot x = s.slot x) ∧
        t = { s with N := t.N, PQ := t.PQ, rsp := s.rsp ++ [BitVec.ofNat 64 id.val] })

/-- R98 ("After DEQ then ENQ of the same node the queue is exactly what it was"), R102. -/
def Obligations.DeqThenEnqRestoresTheState : Prop :=
  ∀ (s : State) (id : NodeId) (rest : List NodeId), s.Inv → s.FAULT = 0 → s.PQ = id :: rest →
    ∃ t u, exec .deq s = .next t ∧ exec (.enq (BitVec.ofNat 9 id.val)) t = .next u ∧ u = { s with rsp := u.rsp }

/-- R102: the queue is a function of the nodes alone. -/
def Obligations.QueueIsAFunctionOfTheNodes : Prop :=
  ∀ s t : State, s.Inv → t.Inv → s.N = t.N → s.PQ = t.PQ

/-- R22, R98 ("the only way a node becomes HELD is DEQ"): after any other command a HELD node was HELD before. -/
def Obligations.NodesBecomeHeldOnlyByDeq : Prop :=
  ∀ (i : Instr) (s t : State) (id : NodeId) (n : Node), exec i s = .next t → i ≠ .deq → t.slot id = some n →
    n.st = .held → s.slot id = some n

/-! ### Tree builder (42_tree_builder.md) -/

/-- R106, R107: MERGE's checks in their order, and its effect. -/
def Obligations.MergeJoinsTheTwoSmallest : Prop :=
  ∀ s : State, s.FAULT = 0 →
    (s.PQ.length < 2 → exec .merge s = .next (s.afterFault 0x03)) ∧
    (2 ≤ s.PQ.length → s.NEXT.val = 511 → exec .merge s = .next (s.afterFault 0x02)) ∧
    (∀ (x y : NodeId) (rest : List NodeId) (nx ny : Node) (p : NodeId), s.PQ = x :: y :: rest → s.slot x = some nx →
      s.slot y = some ny → p.val = s.NEXT.val →
      (2 ^ 32 ≤ nx.frequency.toNat + ny.frequency.toNat → exec .merge s = .next (s.afterFault 0x15)) ∧
      (nx.frequency.toNat + ny.frequency.toNat < 2 ^ 32 → s.QueueReadable →
        ∃ t np, exec .merge s = .next t ∧ t.NEXT.val = s.NEXT.val + 1 ∧
          t.slot p = some np ∧ np.character = 0 ∧ np.children = some (x, y) ∧ np.st = .queued ∧
          np.frequency.toNat = nx.frequency.toNat + ny.frequency.toNat ∧
          (∀ id, id ≠ p → t.slot id =
            if id = x ∨ id = y then (s.slot id).map (fun n => { n with st := .child }) else s.slot id) ∧
          t.PQ = t.inserted rest p ∧
          t = { s with NEXT := t.NEXT, N := t.N, PQ := t.PQ, rsp := s.rsp ++ [BitVec.ofNat 64 p.val] }))

/-- R108: in every internal node left is before right, over every step, and so has no larger frequency. -/
def Obligations.StepKeepsChildrenInOrder : Prop :=
  ∀ s t : State, s.Inv → s.ChildrenInOrder → step s = .next t →
    t.ChildrenInOrder ∧
    ∀ p n l r, t.slot p = some n → n.children = some (l, r) → t.freqOf l ≤ t.freqOf r

/-- R109, R110, R111: BUILD with a tree already there, with an empty queue, and with one entry. -/
def Obligations.BuildCornerCases : Prop :=
  ∀ s : State, s.FAULT = 0 →
    (s.ROOT ≠ none → exec .build s = .next (s.afterFault 0x11)) ∧
    (s.ROOT = none → s.PQ = [] →
      exec .build s = .next { s with BUILT := true, rsp := s.rsp ++ [0x00000000000001FF] }) ∧
    (∀ r, s.ROOT = none → s.PQ = [r] →
      ∃ t, exec .build s = .next t ∧ t.slot r = (s.slot r).map (fun n => { n with st := .root }) ∧
        (∀ x, x ≠ r → t.slot x = s.slot x) ∧
        t = { s with N := t.N, PQ := [], ROOT := some r, BUILT := true, rsp := s.rsp ++ [BitVec.ofNat 64 r.val] })

/-- R109: with two entries or more BUILD is a merge step and then BUILD; a merge step that faults ends it, with what the
steps before did. -/
def Obligations.BuildIsMergesAndADrain : Prop :=
  ∀ s t : State, s.FAULT = 0 → s.ROOT = none → 2 ≤ s.PQ.length → exec .merge s = .next t →
    (t.FAULT = 0 → exec .build s = exec .build { t with rsp := s.rsp }) ∧
    (t.FAULT ≠ 0 → exec .build s = .next t)

/-- R105, R109, R112: from m ≥ 1 entries, leaves or internal nodes, where the arena has room and the frequencies sum below
2^32, BUILD makes one tree of all the trees they name: m − 1 new internal nodes, the root's frequency the sum, exactly the
leaves of those trees; when the entries are leaves, exactly those leaves and m − 1 internal nodes. -/
def Obligations.BuildMakesOneTree : Prop :=
  ∀ s : State, s.Inv → s.FAULT = 0 → s.ROOT = none → s.PQ ≠ [] → s.NEXT.val + (s.PQ.length - 1) ≤ 511 →
    s.queueTotal < 2 ^ 32 →
    ∃ t r n tr, exec .build s = .next t ∧ t.ROOT = some r ∧ t.BUILT = true ∧ t.PQ = [] ∧
      t.NEXT.val = s.NEXT.val + (s.PQ.length - 1) ∧ t.slot r = some n ∧ n.st = .root ∧
      n.frequency.toNat = s.queueTotal ∧ t.TreeAt r tr ∧
      (∀ trees, List.Forall₂ s.TreeAt s.PQ trees → List.Perm tr.leaves (trees.flatMap CodeTree.leaves) ∧
        tr.internals = (trees.map CodeTree.internals).sum + (s.PQ.length - 1)) ∧
      (∀ chars, s.QueueOfLeaves chars → List.Perm tr.leaves chars ∧ tr.internals = s.PQ.length - 1) ∧
      t = { s with NEXT := t.NEXT, N := t.N, PQ := [], ROOT := some r, BUILT := true,
                   rsp := s.rsp ++ [BitVec.ofNat 64 r.val] }

/-- R114: the tree BUILD makes of leaves with distinct byte values has the least sum of frequency times depth among all
binary trees with these leaves. The same against all binary prefix codes, and for every tie-break: CodeTableIsOptimal and
CodeIsOptimalForEveryTieBreak. -/
def Obligations.BuildIsOptimal : Prop :=
  ∀ (s t : State) (r : NodeId) (tr other : CodeTree) (chars : List Byte) (weight : Byte → Nat),
    s.Inv → s.FAULT = 0 → s.ROOT = none → s.QueueOfLeaves chars → chars.Nodup → s.QueueWeights weight →
    exec .build s = .next t → t.ROOT = some r → t.TreeAt r tr → List.Perm other.leaves chars →
    tr.cost weight ≤ other.cost weight

/-! ### Tree serializer (43_tree_serializer.md) -/

/-- R122, R123, R124: SER with the sink closed, with no tree, and with a tree: the postorder marker bits are accepted, most
significant first, and their number answered. -/
def Obligations.SerWritesThePostorderBits : Prop :=
  ∀ s : State, s.FAULT = 0 →
    (s.OPEN = false → exec .ser s = .next (s.afterFault 0x12)) ∧
    (s.OPEN = true → s.ROOT = none → exec .ser s = .next { s with rsp := s.rsp ++ [0] }) ∧
    (∀ r tr, s.OPEN = true → s.ROOT = some r → s.TreeAt r tr → tr.depth ≤ 255 →
      ∃ t, exec .ser s = .next t ∧ t.acceptedBits = s.acceptedBits ++ tr.postorder ∧
        t.NBITS.val = (s.NBITS.val + tr.postorder.length) % 8 ∧ (s.AccClean → t.AccClean) ∧
        (∃ bytes : List Byte, t.OUT = s.OUT ++ bytes.map .byte) ∧
        t = { s with ACC := t.ACC, NBITS := t.NBITS, OUT := t.OUT,
                     rsp := s.rsp ++ [responseWord 0 0 (BitVec.ofNat 32 (10 * tr.leaves.length - 1))] })

/-- R126: from the number of leaves and the bits SER wrote, one pass with a stack gives the tree back. -/
def Obligations.SerializedTreeRoundTrips : Prop :=
  ∀ (s : State) (r : NodeId) (tr : CodeTree), s.FAULT = 0 → s.OPEN = true → s.ROOT = some r → s.TreeAt r tr →
    tr.depth ≤ 255 →
    ∃ t bits, exec .ser s = .next t ∧ t.acceptedBits = s.acceptedBits ++ bits ∧
      ∀ after, rebuild tr.leaves.length (tr.leaves.length - 1) [] (bits ++ after) = some (tr, after)

/-- R151: SER equals one WBITS 1,1 and one WBITS c,8 per leaf and one WBITS 0,1 per internal node, in traversal order; EMIT
equals WBITS of successive slices of the code from its most significant end. -/
def Obligations.SerAndEmitEqualWbits : Prop :=
  (∀ (s : State) (r : NodeId) (tr : CodeTree), s.FAULT = 0 → s.OPEN = true → s.ROOT = some r → s.TreeAt r tr →
    tr.depth ≤ 255 →
    ∃ t u, exec .ser s = .next t ∧ execAll tr.wbits s = .next u ∧ u = { t with rsp := u.rsp }) ∧
  (∀ (s : State) (sym : Byte) (slices : List (List Bool)), s.FAULT = 0 → s.OPEN = true → (s.code sym).len ≠ 0 →
    GranuleSlices slices →
    slices.flatten = (List.range (s.code sym).len.toNat).reverse.map (fun k => (s.code sym).bits.toNat.testBit k) →
    ∃ t u, exec (.emit sym) s = .next t ∧ execAll (sliceGranules slices) s = .next u ∧ u = { t with rsp := u.rsp })

/-! ### Encoding table (44_encoding_table.md) -/

/-- R132, R133, R134: MKTAB without a tree and with one: every entry is the path number and length of the leaf visited last
that carries the byte value, (0, 1) for the single leaf, (0, 0) without a leaf; the answer is how many are used. -/
def Obligations.MktabBuildsTheTable : Prop :=
  ∀ s : State, s.FAULT = 0 →
    (s.ROOT = none → ∃ t, exec .mktab s = .next t ∧ (∀ sym, t.code sym = ⟨0, 0⟩) ∧
      t = { s with CODE := t.CODE, rsp := s.rsp ++ [0] }) ∧
    (∀ r tr, s.ROOT = some r → s.TreeAt r tr → tr.depth ≤ 255 →
      ∃ t, exec .mktab s = .next t ∧
        (∀ sym, (t.code sym).bits.toNat = (tr.codeOf sym).1 ∧ (t.code sym).len.toNat = (tr.codeOf sym).2) ∧
        t = { s with CODE := t.CODE, rsp := s.rsp ++ [BitVec.ofNat 64 tr.leaves.dedup.length] })

/-- R135: where every leaf has its own byte value, exactly the leaves' values have a code, no code is the start of another,
a code's length is its leaf's depth (1 for the single leaf), and the answer is the number of leaves. -/
def Obligations.CodesArePrefixFree : Prop :=
  ∀ (s : State) (r : NodeId) (tr : CodeTree), s.FAULT = 0 → s.ROOT = some r → s.TreeAt r tr → tr.depth ≤ 255 →
    tr.leaves.Nodup →
    ∃ t, exec .mktab s = .next t ∧ t.rsp = s.rsp ++ [BitVec.ofNat 64 tr.leaves.length] ∧
      (∀ x, x ∈ tr.leaves ↔ (t.code x).len ≠ 0) ∧
      (∀ q ∈ tr.paths, (t.code q.1).len.toNat = if tr.internals = 0 then 1 else q.2.length) ∧
      (∀ x ∈ tr.leaves, ∀ y ∈ tr.leaves, x ≠ y →
        ¬ ((t.code x).len.toNat ≤ (t.code y).len.toNat ∧
          (t.code y).bits.toNat / 2 ^ ((t.code y).len.toNat - (t.code x).len.toNat) = (t.code x).bits.toNat))

/-- R136: CODE_RD in every state: the length in aux, 32 bits of the pattern in val, and no state change. -/
def Obligations.CodeRdReadsAChunk : Prop :=
  ∀ (s : State) (sym : Byte) (chunk : BitVec 3),
    ∃ q, exec (.codeRd sym chunk) s = .next { s with rsp := s.rsp ++ [q] } ∧ respCode q = 0 ∧
      (respAux q).toNat = (s.code sym).len.toNat ∧
      (respVal q).toNat = (s.code sym).bits.toNat / 2 ^ (32 * chunk.toNat) % 2 ^ 32

/-- R138: EMIT's checks in their order, and its effect: the code's bits, first branch first. -/
def Obligations.EmitWritesTheCode : Prop :=
  ∀ (s : State) (sym : Byte), s.FAULT = 0 →
    (s.OPEN = false → exec (.emit sym) s = .next (s.afterFault 0x12)) ∧
    (s.OPEN = true → (s.code sym).len = 0 → exec (.emit sym) s = .next (s.afterFault 0x14)) ∧
    (s.OPEN = true → (s.code sym).len ≠ 0 →
      ∃ t, exec (.emit sym) s = .next t ∧
        t.acceptedBits = s.acceptedBits ++
          (List.range (s.code sym).len.toNat).reverse.map (fun k => (s.code sym).bits.toNat.testBit k) ∧
        t.NBITS.val = (s.NBITS.val + (s.code sym).len.toNat) % 8 ∧ (s.AccClean → t.AccClean) ∧
        (∃ bytes : List Byte, t.OUT = s.OUT ++ bytes.map .byte) ∧
        t = { s with ACC := t.ACC, NBITS := t.NBITS, OUT := t.OUT,
                     rsp := s.rsp ++ [BitVec.ofNat 64 (s.code sym).len.toNat] })

/-! ### Bit writer (45_bit_writer.md) -/

/-- R148: OPEN. -/
def Obligations.OpenStartsAScope : Prop :=
  ∀ s : State, s.FAULT = 0 →
    (s.OPEN = true → exec .openSink s = .next { s with FAULT := 0x11, rsp := s.rsp ++ [0x1100000000000000] }) ∧
    (s.OPEN = false →
      exec .openSink s = .next { s with OPEN := true, ACC := 0, NBITS := 0, rsp := s.rsp ++ [0] })

/-- R146, R150: WBITS's checks in their order, and its effect in the closed form of R146: with k bits held and w accepted,
T is the k held bits and then value[w−1:0]. -/
def Obligations.WbitsAcceptsAGranule : Prop :=
  ∀ (s : State) (value : Byte) (width : BitVec 16), s.FAULT = 0 →
    (s.OPEN = false → exec (.wbits value width) s = .next (s.afterFault 0x12)) ∧
    (s.OPEN = true → (width.toNat = 0 ∨ 8 < width.toNat) →
      exec (.wbits value width) s = .next (s.afterFault 0x13)) ∧
    (∀ k w T, s.OPEN = true → w = width.toNat → 1 ≤ w → w ≤ 8 → k = s.NBITS.val →
      T = s.ACC.toNat / 2 ^ (8 - k) * 2 ^ w + value.toNat % 2 ^ w → s.AccClean →
      ∃ t, exec (.wbits value width) s = .next t ∧
        t.acceptedBits = s.acceptedBits ++ (List.range w).reverse.map (fun j => value.toNat.testBit j) ∧
        t.NBITS.val = (k + w) % 8 ∧ t.AccClean ∧
        (k + w < 8 → t.OUT = s.OUT ∧ t.ACC.toNat = T * 2 ^ (8 - (k + w))) ∧
        (8 ≤ k + w → t.OUT = s.OUT ++ [.byte (BitVec.ofNat 8 (T / 2 ^ (k + w - 8)))] ∧
          t.ACC.toNat = T % 2 ^ (k + w - 8) * 2 ^ (16 - (k + w))) ∧
        t = { s with ACC := t.ACC, NBITS := t.NBITS, OUT := t.OUT, rsp := s.rsp ++ [0] })

/-- R152: CLOSE: the held bits go out as the top bits of a last byte whose other bits are PAD_BIT = 0, then EOS; where no bit
is held only EOS. With the unused positions of ACC 0 the byte is ACC unchanged. It ends a run (R216). -/
def Obligations.CloseFlushesAndEndsTheScope : Prop :=
  ∀ s : State, s.FAULT = 0 →
    (s.OPEN = false → exec .closeSink s = .next (s.afterFault 0x12)) ∧
    (s.OPEN = true →
      ∃ t, exec .closeSink s = .next t ∧ s.RunSucceeded t ∧
        t.OUT = s.OUT ++
          (if s.NBITS.val = 0 then [] else [.byte ((s.ACC >>> (8 - s.NBITS.val)) <<< (8 - s.NBITS.val))]) ++ [.eos] ∧
        (s.AccClean → (s.ACC >>> (8 - s.NBITS.val)) <<< (8 - s.NBITS.val) = s.ACC) ∧
        t = { s with OPEN := false, ACC := 0, NBITS := 0, OUT := t.OUT, rsp := s.rsp ++ [0] })

/-- R147, R152, R154, R161: a scope's bytes are its accepted bits cut into eights, the last byte padded with PAD_BIT, B bits
giving ceil(B / 8) bytes, and then EOS: for a scope of WBITS granules; for a scope with any commands in it but CLOSE and
RESET, ended by CLOSE or by RESET; and for CLOSE and RESET in any state with the sink open, where the bytes already out
since the last EOS count as the scope's. -/
def Obligations.ScopeIsTheAcceptedBitsInBytes : Prop :=
  (∀ (s : State) (slices : List (List Bool)), s.FAULT = 0 → s.OPEN = false → GranuleSlices slices →
    ∃ t, execAll (.openSink :: (sliceGranules slices ++ [.closeSink])) s = .next t ∧
      t.OUT = s.OUT ++ (packBytes Config.padBit slices.flatten).map .byte ++ [.eos] ∧
      (packBytes Config.padBit slices.flatten).length = (slices.flatten.length + 7) / 8) ∧
  (∀ (s m : State) (cmds : List Instr), s.FAULT = 0 → s.OPEN = false →
    (∀ i ∈ cmds, i ≠ .closeSink ∧ i ≠ .reset) → execAll (.openSink :: cmds) s = .next m →
    m.OPEN = true ∧ ∃ bits : List Bool, m.acceptedBits = (scopeBytes s.OUT).flatMap (msbFirst 8) ++ bits ∧
      (packBytes Config.padBit bits).length = (bits.length + 7) / 8 ∧
      (m.FAULT = 0 → ∃ t, exec .closeSink m = .next t ∧
        t.OUT = s.OUT ++ (packBytes Config.padBit bits).map .byte ++ [.eos]) ∧
      (∃ t, exec .reset m = .next t ∧ t.OUT = s.OUT ++ (packBytes Config.padBit bits).map .byte ++ [.eos])) ∧
  (∀ (s : State) (before : List OutEvent), s.OPEN = true → s.OUT = before ++ (scopeBytes s.OUT).map .byte →
    (s.FAULT = 0 → ∃ t, exec .closeSink s = .next t ∧
      t.OUT = before ++ (packBytes Config.padBit s.acceptedBits).map .byte ++ [.eos]) ∧
    (∃ t, exec .reset s = .next t ∧
      t.OUT = before ++ (packBytes Config.padBit s.acceptedBits).map .byte ++ [.eos]))

/-! ### System commands (46_system.md, 10_state.md) -/

/-- R17, R19, R163: RDREG in every state: the six views, and no state change. -/
def Obligations.RdregReadsTheViews : Prop :=
  ∀ s : State,
    (∃ v : BitVec 32, exec (.rdreg 0) s = .next { s with rsp := s.rsp ++ [responseWord 0 0 v] } ∧
      v.extractLsb' 0 8 = s.FAULT ∧ v.getLsbD 8 = s.BUILT ∧ v.getLsbD 9 = s.ROOT.isSome ∧ v.getLsbD 10 = false ∧
      v.getLsbD 11 = s.OPEN ∧ (v.extractLsb' 12 3).toNat = s.NBITS.val ∧ v.getLsbD 15 = false ∧
      v.extractLsb' 16 9 = BitVec.ofNat 9 s.PQ.length ∧ v.extractLsb' 25 7 = 0) ∧
    exec (.rdreg 1) s = .next { s with rsp := s.rsp ++ [responseWord 0 0 (BitVec.ofNat 32
      (match s.ROOT with | some r => r.val | none => 0x1FF))] } ∧
    exec (.rdreg 2) s = .next { s with rsp := s.rsp ++ [responseWord 0 0 (BitVec.ofNat 32 s.NEXT.val)] } ∧
    exec (.rdreg 3) s = .next { s with rsp := s.rsp ++ [responseWord 0 0 (BitVec.ofNat 32 s.PQ.length)] } ∧
    (∃ v : BitVec 32, exec (.rdreg 4) s = .next { s with rsp := s.rsp ++ [responseWord 0 0 v] } ∧
      v.extractLsb' 0 8 = s.ACC ∧ (v.extractLsb' 8 3).toNat = s.NBITS.val ∧ v.getLsbD 11 = s.OPEN ∧
      v.extractLsb' 12 20 = 0) ∧
    exec (.rdreg 5) s = .next { s with rsp := s.rsp ++ [responseWord 0 0 (BitVec.ofNat 32
      (match s.PQ with | id :: _ => id.val | [] => 0x1FF))] }

/-- R65, R165: NODE_RD in every state: BadNode at or above NEXT; else the frequency, or the packed node word. -/
def Obligations.NodeRdReadsANode : Prop :=
  ∀ (s : State) (b : BitVec 9),
    (s.NEXT.val ≤ b.toNat → ∀ field, exec (.nodeRd b field) s = .next (s.afterFault 0x16)) ∧
    (∀ (id : NodeId) (n : Node), id.val = b.toNat → id.val < s.NEXT.val → s.slot id = some n →
      exec (.nodeRd b 0) s = .next { s with rsp := s.rsp ++ [responseWord 0 0 n.frequency] } ∧
      ∃ v : BitVec 32, exec (.nodeRd b 1) s = .next { s with rsp := s.rsp ++ [responseWord 0 0 v] } ∧
        v.getLsbD 31 = n.children.isNone ∧ v.extractLsb' 28 3 = 0 ∧
        (v.extractLsb' 26 2).toNat = (match n.st with | .held => 0 | .queued => 1 | .child => 2 | .root => 3) ∧
        (v.extractLsb' 17 9).toNat = (match n.children with | some (l, _) => l.val | none => 0x1FF) ∧
        (v.extractLsb' 8 9).toNat = (match n.children with | some (_, r) => r.val | none => 0x1FF) ∧
        v.extractLsb' 0 8 = n.character)

/-! ### Invariants (10_state.md R31) -/

/-- R31: the invariants hold after reset. -/
def Obligations.InvariantsHoldAfterReset : Prop := State.reset.Inv ∧ State.reset.ChildrenInOrder ∧ State.reset.FaultKnown

/-- R31: every step keeps the invariants, faulting or not. -/
def Obligations.StepKeepsTheInvariants : Prop :=
  ∀ s t : State, s.Inv → step s = .next t → t.Inv

/-- R31 item 9: in a state that meets the other items every allocated id names a tree with at most 256 leaves and depth at
most 255. -/
def Obligations.TreesAreShallow : Prop :=
  ∀ (s : State) (id : NodeId), s.Inv → id.val < s.NEXT.val →
    ∃ tr, s.TreeAt id tr ∧ tr.depth ≤ 255 ∧ tr.leaves.length ≤ 256

/-- R160, R186: in a state that meets the invariants every command, and every step, has a next state: nothing stops. -/
def Obligations.EveryCommandHasAStep : Prop :=
  ∀ s : State, s.Inv → (∀ i, ∃ t, exec i s = .next t) ∧ ∃ t, step s = .next t

/-! ### The end of a run (70_reset_and_hazards.md) -/

/-- R216: a run ends successfully exactly by a CLOSE that completes with code 0x00 and leaves FAULT 0; then OPEN is 0, and the
artifact is the last scope of OUT: the bytes between the previous EOS, or the start, and the EOS that CLOSE appended, which
are the bits accepted since then cut into bytes. A CLOSE that does not end it so leaves FAULT ≠ 0: the run has failed. With
no fault and the sink open CLOSE ends it so. The last clause says the same of a step at which CLOSE's word is presented
(that it stands in a list is the model's choice, log entry 1). -/
def Obligations.RunEndsAtClose : Prop :=
  (∀ s t : State, s.RunSucceeded t →
    s.OPEN = true ∧ t.OPEN = false ∧ t.FAULT = 0 ∧
    ∃ before bytes, t.artifact = some bytes ∧ bytes = packBytes Config.padBit s.acceptedBits ∧
      t.OUT = before ++ bytes.map .byte ++ [.eos] ∧ (before = [] ∨ before.getLast? = some .eos)) ∧
  (∀ s t : State, exec .closeSink s = .next t → (s.RunSucceeded t ↔ ¬ t.RunFailed)) ∧
  (∀ s : State, s.FAULT = 0 → s.OPEN = true → ∃ t, s.RunSucceeded t) ∧
  (∀ (s t : State) (rest : List HostEvent), s.host = .command 0x6200000000000000 :: rest → step s = .next t →
    (State.RunSucceeded { s with host := rest } t ↔ ¬ t.RunFailed))

/-! ### Laws for every tie-break (93_implementation_defined.md U1) -/

/-- R112, R105, R109 for every tie-break (U1): with a queue sorted by it, BUILD's rule, run with it, makes of m ≥ 1 entries
one tree of all the trees they name, with m − 1 new internal nodes and the sum as the root's frequency. -/
def Obligations.BuildCountsForEveryTieBreak : Prop :=
  ∀ (before : Comparator) (s : State), before.TieBreak → s.InvFor before → s.ROOT = none → s.PQ ≠ [] →
    s.NEXT.val + (s.PQ.length - 1) ≤ 511 → s.queueTotal < 2 ^ 32 →
    ∃ t r n tr, buildRule before s = .done (.node (some r)) t ∧ t.ROOT = some r ∧ t.BUILT = true ∧ t.PQ = [] ∧
      t.NEXT.val = s.NEXT.val + (s.PQ.length - 1) ∧ t.slot r = some n ∧ n.st = .root ∧
      n.frequency.toNat = s.queueTotal ∧ t.TreeAt r tr ∧
      (∀ trees, List.Forall₂ s.TreeAt s.PQ trees → List.Perm tr.leaves (trees.flatMap CodeTree.leaves) ∧
        tr.internals = (trees.map CodeTree.internals).sum + (s.PQ.length - 1)) ∧
      t = { s with NEXT := t.NEXT, N := t.N, PQ := [], ROOT := some r, BUILT := true }

/-- R114 for every tie-break (U1): with a queue of leaves with distinct byte values, sorted by it, the code of the tree that
BUILD's rule makes with it (a leaf's path, R131; one bit for the single leaf, R133) has the least sum of frequency times
code length among all binary prefix codes for these byte values, complete or not. -/
def Obligations.CodeIsOptimalForEveryTieBreak : Prop :=
  ∀ (before : Comparator) (s t : State) (a : Reply) (r : NodeId) (tr : CodeTree) (chars : List Byte)
    (weight : Byte → Nat) (code : Byte → List Bool),
    before.TieBreak → s.InvFor before → s.ROOT = none → s.QueueOfLeaves chars → chars.Nodup → s.QueueWeights weight →
    buildRule before s = .done a t → t.ROOT = some r → t.TreeAt r tr → PrefixCode chars code →
    codeCost chars weight (fun c => (tr.codeOf c).2) ≤ codeCost chars weight (fun c => (code c).length)

/-- R114 for this hardware: after BUILD of leaves with distinct byte values and MKTAB, the table's code lengths give the least
sum of frequency times code length among all binary prefix codes for these byte values, complete or not. -/
def Obligations.CodeTableIsOptimal : Prop :=
  ∀ (s t : State) (chars : List Byte) (weight : Byte → Nat) (code : Byte → List Bool),
    s.Inv → s.FAULT = 0 → s.ROOT = none → s.PQ ≠ [] → s.QueueOfLeaves chars → chars.Nodup → s.QueueWeights weight →
    exec .build s = .next t → t.FAULT = 0 → PrefixCode chars code →
    ∃ u, exec .mktab t = .next u ∧
      codeCost chars weight (fun c => (u.code c).len.toNat) ≤ codeCost chars weight (fun c => (code c).length)
end

