-- ==== Sys2Proof/Laws/Encoding.lean ====
section
/-! SUPPORT. The fields of a command word, and the mask of a row on a word built from fields (spec/30_encoding.md R60, R67). -/

namespace Sys2Proof

/-- One bit of a command word. -/
theorem getLsbD_commandWord (op a : Byte) (b : BitVec 16) (imm : BitVec 32) (i : Nat) :
    (commandWord op a b imm).getLsbD i =
      if i < 32 then imm.getLsbD i
      else if i < 48 then b.getLsbD (i - 32)
      else if i < 56 then a.getLsbD (i - 48)
      else op.getLsbD (i - 56) := by
  show BitVec.getLsbD (w := 8 + 8 + 16 + 32) (op ++ a ++ b ++ imm) i = _
  simp only [BitVec.getLsbD_append]
  split
  · rfl
  · by_cases h₁ : i < 48
    · rw [if_pos (by omega), if_pos h₁]
    · rw [if_neg (by omega), if_neg h₁]
      by_cases h₂ : i < 56
      · rw [if_pos (by omega), if_pos h₂]; congr 1
      · rw [if_neg (by omega), if_neg h₂]; congr 1

@[simp] theorem opField_commandWord (op a : Byte) (b : BitVec 16) (imm : BitVec 32) :
    opField (commandWord op a b imm) = op := by
  apply BitVec.eq_of_getLsbD_eq
  intro i hi
  simp only [opField, BitVec.getLsbD_extractLsb', getLsbD_commandWord]
  simp [hi, show ¬ 56 + i < 32 by omega, show ¬ 56 + i < 48 by omega]

@[simp] theorem aField_commandWord (op a : Byte) (b : BitVec 16) (imm : BitVec 32) :
    aField (commandWord op a b imm) = a := by
  apply BitVec.eq_of_getLsbD_eq
  intro i hi
  simp only [aField, BitVec.getLsbD_extractLsb', getLsbD_commandWord]
  simp [hi, show ¬ 48 + i < 32 by omega, show 48 + i < 56 by omega]

@[simp] theorem bField_commandWord (op a : Byte) (b : BitVec 16) (imm : BitVec 32) :
    bField (commandWord op a b imm) = b := by
  apply BitVec.eq_of_getLsbD_eq
  intro i hi
  simp only [bField, BitVec.getLsbD_extractLsb', getLsbD_commandWord]
  simp [hi, show 32 + i < 48 by omega]

@[simp] theorem immField_commandWord (op a : Byte) (b : BitVec 16) (imm : BitVec 32) :
    immField (commandWord op a b imm) = imm := by
  apply BitVec.eq_of_getLsbD_eq
  intro i hi
  simp only [immField, BitVec.getLsbD_extractLsb', getLsbD_commandWord]
  simp [hi]

/-- A word is made of its four fields. -/
theorem commandWord_fields (w : Word) : commandWord (opField w) (aField w) (bField w) (immField w) = w := by
  apply BitVec.eq_of_getLsbD_eq
  intro i hi
  simp only [getLsbD_commandWord, opField, aField, bField, immField, BitVec.getLsbD_extractLsb']
  split
  · simp [*]
  · split
    · simp [show i - 32 < 16 by omega, show 32 + (i - 32) = i by omega]
    · split
      · simp [show i - 48 < 8 by omega, show 48 + (i - 48) = i by omega]
      · simp [show i - 56 < 8 by omega, show 56 + (i - 56) = i by omega]

/-- Masking works field by field. -/
theorem commandWord_and (op a op' a' : Byte) (b b' : BitVec 16) (imm imm' : BitVec 32) :
    commandWord op a b imm &&& commandWord op' a' b' imm' =
      commandWord (op &&& op') (a &&& a') (b &&& b') (imm &&& imm') := by
  apply BitVec.eq_of_getLsbD_eq
  intro i hi
  simp only [BitVec.getLsbD_and, getLsbD_commandWord]
  split
  · rfl
  · split
    · rfl
    · split <;> rfl

/-- Equal words have equal fields. -/
theorem commandWord_inj {op a op' a' : Byte} {b b' : BitVec 16} {imm imm' : BitVec 32} :
    commandWord op a b imm = commandWord op' a' b' imm' ↔ op = op' ∧ a = a' ∧ b = b' ∧ imm = imm' := by
  constructor
  · intro h
    exact ⟨by simpa using congrArg opField h, by simpa using congrArg aField h, by simpa using congrArg bField h,
      by simpa using congrArg immField h⟩
  · rintro ⟨rfl, rfl, rfl, rfl⟩; rfl

end Sys2Proof
end

