-- ==== Sys2Proof/Laws/State.lean ====
section
/-! SUPPORT. One lemma per field of State per update, so that no proof unfolds a record update; and the laws of the
storage spaces (read after write, and every other entry unchanged). -/

namespace Sys2Proof.Machine

/-! ### setFreq -/

@[simp] theorem State.setFreq_FREQ (s : State) (sym : Byte) (count : Freq) : (s.setFreq sym count).FREQ = s.FREQ.set (symIndex sym) count := rfl
@[simp] theorem State.setFreq_NEXT (s : State) (sym : Byte) (count : Freq) : (s.setFreq sym count).NEXT = s.NEXT := rfl
@[simp] theorem State.setFreq_N (s : State) (sym : Byte) (count : Freq) : (s.setFreq sym count).N = s.N := rfl
@[simp] theorem State.setFreq_PQ (s : State) (sym : Byte) (count : Freq) : (s.setFreq sym count).PQ = s.PQ := rfl
@[simp] theorem State.setFreq_ROOT (s : State) (sym : Byte) (count : Freq) : (s.setFreq sym count).ROOT = s.ROOT := rfl
@[simp] theorem State.setFreq_BUILT (s : State) (sym : Byte) (count : Freq) : (s.setFreq sym count).BUILT = s.BUILT := rfl
@[simp] theorem State.setFreq_CODE (s : State) (sym : Byte) (count : Freq) : (s.setFreq sym count).CODE = s.CODE := rfl
@[simp] theorem State.setFreq_OPEN (s : State) (sym : Byte) (count : Freq) : (s.setFreq sym count).OPEN = s.OPEN := rfl
@[simp] theorem State.setFreq_ACC (s : State) (sym : Byte) (count : Freq) : (s.setFreq sym count).ACC = s.ACC := rfl
@[simp] theorem State.setFreq_NBITS (s : State) (sym : Byte) (count : Freq) : (s.setFreq sym count).NBITS = s.NBITS := rfl
@[simp] theorem State.setFreq_FAULT (s : State) (sym : Byte) (count : Freq) : (s.setFreq sym count).FAULT = s.FAULT := rfl
@[simp] theorem State.setFreq_OUT (s : State) (sym : Byte) (count : Freq) : (s.setFreq sym count).OUT = s.OUT := rfl
@[simp] theorem State.setFreq_host (s : State) (sym : Byte) (count : Freq) : (s.setFreq sym count).host = s.host := rfl
@[simp] theorem State.setFreq_rsp (s : State) (sym : Byte) (count : Freq) : (s.setFreq sym count).rsp = s.rsp := rfl

/-! ### setSlot -/

@[simp] theorem State.setSlot_FREQ (s : State) (id : NodeId) (n : Node) : (s.setSlot id n).FREQ = s.FREQ := rfl
@[simp] theorem State.setSlot_NEXT (s : State) (id : NodeId) (n : Node) : (s.setSlot id n).NEXT = s.NEXT := rfl
@[simp] theorem State.setSlot_N (s : State) (id : NodeId) (n : Node) : (s.setSlot id n).N = s.N.set id (some n) := rfl
@[simp] theorem State.setSlot_PQ (s : State) (id : NodeId) (n : Node) : (s.setSlot id n).PQ = s.PQ := rfl
@[simp] theorem State.setSlot_ROOT (s : State) (id : NodeId) (n : Node) : (s.setSlot id n).ROOT = s.ROOT := rfl
@[simp] theorem State.setSlot_BUILT (s : State) (id : NodeId) (n : Node) : (s.setSlot id n).BUILT = s.BUILT := rfl
@[simp] theorem State.setSlot_CODE (s : State) (id : NodeId) (n : Node) : (s.setSlot id n).CODE = s.CODE := rfl
@[simp] theorem State.setSlot_OPEN (s : State) (id : NodeId) (n : Node) : (s.setSlot id n).OPEN = s.OPEN := rfl
@[simp] theorem State.setSlot_ACC (s : State) (id : NodeId) (n : Node) : (s.setSlot id n).ACC = s.ACC := rfl
@[simp] theorem State.setSlot_NBITS (s : State) (id : NodeId) (n : Node) : (s.setSlot id n).NBITS = s.NBITS := rfl
@[simp] theorem State.setSlot_FAULT (s : State) (id : NodeId) (n : Node) : (s.setSlot id n).FAULT = s.FAULT := rfl
@[simp] theorem State.setSlot_OUT (s : State) (id : NodeId) (n : Node) : (s.setSlot id n).OUT = s.OUT := rfl
@[simp] theorem State.setSlot_host (s : State) (id : NodeId) (n : Node) : (s.setSlot id n).host = s.host := rfl
@[simp] theorem State.setSlot_rsp (s : State) (id : NodeId) (n : Node) : (s.setSlot id n).rsp = s.rsp := rfl

/-! ### setTag -/

@[simp] theorem State.setTag_FREQ (s : State) (id : NodeId) (t : Tag) : (s.setTag id t).FREQ = s.FREQ := rfl
@[simp] theorem State.setTag_NEXT (s : State) (id : NodeId) (t : Tag) : (s.setTag id t).NEXT = s.NEXT := rfl
@[simp] theorem State.setTag_N (s : State) (id : NodeId) (t : Tag) : (s.setTag id t).N = s.N.set id ((s.slot id).map fun n => { n with st := t }) := rfl
@[simp] theorem State.setTag_PQ (s : State) (id : NodeId) (t : Tag) : (s.setTag id t).PQ = s.PQ := rfl
@[simp] theorem State.setTag_ROOT (s : State) (id : NodeId) (t : Tag) : (s.setTag id t).ROOT = s.ROOT := rfl
@[simp] theorem State.setTag_BUILT (s : State) (id : NodeId) (t : Tag) : (s.setTag id t).BUILT = s.BUILT := rfl
@[simp] theorem State.setTag_CODE (s : State) (id : NodeId) (t : Tag) : (s.setTag id t).CODE = s.CODE := rfl
@[simp] theorem State.setTag_OPEN (s : State) (id : NodeId) (t : Tag) : (s.setTag id t).OPEN = s.OPEN := rfl
@[simp] theorem State.setTag_ACC (s : State) (id : NodeId) (t : Tag) : (s.setTag id t).ACC = s.ACC := rfl
@[simp] theorem State.setTag_NBITS (s : State) (id : NodeId) (t : Tag) : (s.setTag id t).NBITS = s.NBITS := rfl
@[simp] theorem State.setTag_FAULT (s : State) (id : NodeId) (t : Tag) : (s.setTag id t).FAULT = s.FAULT := rfl
@[simp] theorem State.setTag_OUT (s : State) (id : NodeId) (t : Tag) : (s.setTag id t).OUT = s.OUT := rfl
@[simp] theorem State.setTag_host (s : State) (id : NodeId) (t : Tag) : (s.setTag id t).host = s.host := rfl
@[simp] theorem State.setTag_rsp (s : State) (id : NodeId) (t : Tag) : (s.setTag id t).rsp = s.rsp := rfl

/-! ### setNext -/

@[simp] theorem State.setNext_FREQ (s : State) (n : Fin 512) : (s.setNext n).FREQ = s.FREQ := rfl
@[simp] theorem State.setNext_NEXT (s : State) (n : Fin 512) : (s.setNext n).NEXT = n := rfl
@[simp] theorem State.setNext_N (s : State) (n : Fin 512) : (s.setNext n).N = s.N := rfl
@[simp] theorem State.setNext_PQ (s : State) (n : Fin 512) : (s.setNext n).PQ = s.PQ := rfl
@[simp] theorem State.setNext_ROOT (s : State) (n : Fin 512) : (s.setNext n).ROOT = s.ROOT := rfl
@[simp] theorem State.setNext_BUILT (s : State) (n : Fin 512) : (s.setNext n).BUILT = s.BUILT := rfl
@[simp] theorem State.setNext_CODE (s : State) (n : Fin 512) : (s.setNext n).CODE = s.CODE := rfl
@[simp] theorem State.setNext_OPEN (s : State) (n : Fin 512) : (s.setNext n).OPEN = s.OPEN := rfl
@[simp] theorem State.setNext_ACC (s : State) (n : Fin 512) : (s.setNext n).ACC = s.ACC := rfl
@[simp] theorem State.setNext_NBITS (s : State) (n : Fin 512) : (s.setNext n).NBITS = s.NBITS := rfl
@[simp] theorem State.setNext_FAULT (s : State) (n : Fin 512) : (s.setNext n).FAULT = s.FAULT := rfl
@[simp] theorem State.setNext_OUT (s : State) (n : Fin 512) : (s.setNext n).OUT = s.OUT := rfl
@[simp] theorem State.setNext_host (s : State) (n : Fin 512) : (s.setNext n).host = s.host := rfl
@[simp] theorem State.setNext_rsp (s : State) (n : Fin 512) : (s.setNext n).rsp = s.rsp := rfl

/-! ### setQueue -/

@[simp] theorem State.setQueue_FREQ (s : State) (pq : List NodeId) : (s.setQueue pq).FREQ = s.FREQ := rfl
@[simp] theorem State.setQueue_NEXT (s : State) (pq : List NodeId) : (s.setQueue pq).NEXT = s.NEXT := rfl
@[simp] theorem State.setQueue_N (s : State) (pq : List NodeId) : (s.setQueue pq).N = s.N := rfl
@[simp] theorem State.setQueue_PQ (s : State) (pq : List NodeId) : (s.setQueue pq).PQ = pq := rfl
@[simp] theorem State.setQueue_ROOT (s : State) (pq : List NodeId) : (s.setQueue pq).ROOT = s.ROOT := rfl
@[simp] theorem State.setQueue_BUILT (s : State) (pq : List NodeId) : (s.setQueue pq).BUILT = s.BUILT := rfl
@[simp] theorem State.setQueue_CODE (s : State) (pq : List NodeId) : (s.setQueue pq).CODE = s.CODE := rfl
@[simp] theorem State.setQueue_OPEN (s : State) (pq : List NodeId) : (s.setQueue pq).OPEN = s.OPEN := rfl
@[simp] theorem State.setQueue_ACC (s : State) (pq : List NodeId) : (s.setQueue pq).ACC = s.ACC := rfl
@[simp] theorem State.setQueue_NBITS (s : State) (pq : List NodeId) : (s.setQueue pq).NBITS = s.NBITS := rfl
@[simp] theorem State.setQueue_FAULT (s : State) (pq : List NodeId) : (s.setQueue pq).FAULT = s.FAULT := rfl
@[simp] theorem State.setQueue_OUT (s : State) (pq : List NodeId) : (s.setQueue pq).OUT = s.OUT := rfl
@[simp] theorem State.setQueue_host (s : State) (pq : List NodeId) : (s.setQueue pq).host = s.host := rfl
@[simp] theorem State.setQueue_rsp (s : State) (pq : List NodeId) : (s.setQueue pq).rsp = s.rsp := rfl

/-! ### respond -/

@[simp] theorem State.respond_FREQ (s : State) (c : Byte) (a : BitVec 24) (v : BitVec 32) : (s.respond c a v).FREQ = s.FREQ := rfl
@[simp] theorem State.respond_NEXT (s : State) (c : Byte) (a : BitVec 24) (v : BitVec 32) : (s.respond c a v).NEXT = s.NEXT := rfl
@[simp] theorem State.respond_N (s : State) (c : Byte) (a : BitVec 24) (v : BitVec 32) : (s.respond c a v).N = s.N := rfl
@[simp] theorem State.respond_PQ (s : State) (c : Byte) (a : BitVec 24) (v : BitVec 32) : (s.respond c a v).PQ = s.PQ := rfl
@[simp] theorem State.respond_ROOT (s : State) (c : Byte) (a : BitVec 24) (v : BitVec 32) : (s.respond c a v).ROOT = s.ROOT := rfl
@[simp] theorem State.respond_BUILT (s : State) (c : Byte) (a : BitVec 24) (v : BitVec 32) : (s.respond c a v).BUILT = s.BUILT := rfl
@[simp] theorem State.respond_CODE (s : State) (c : Byte) (a : BitVec 24) (v : BitVec 32) : (s.respond c a v).CODE = s.CODE := rfl
@[simp] theorem State.respond_OPEN (s : State) (c : Byte) (a : BitVec 24) (v : BitVec 32) : (s.respond c a v).OPEN = s.OPEN := rfl
@[simp] theorem State.respond_ACC (s : State) (c : Byte) (a : BitVec 24) (v : BitVec 32) : (s.respond c a v).ACC = s.ACC := rfl
@[simp] theorem State.respond_NBITS (s : State) (c : Byte) (a : BitVec 24) (v : BitVec 32) : (s.respond c a v).NBITS = s.NBITS := rfl
@[simp] theorem State.respond_FAULT (s : State) (c : Byte) (a : BitVec 24) (v : BitVec 32) : (s.respond c a v).FAULT = s.FAULT := rfl
@[simp] theorem State.respond_OUT (s : State) (c : Byte) (a : BitVec 24) (v : BitVec 32) : (s.respond c a v).OUT = s.OUT := rfl
@[simp] theorem State.respond_host (s : State) (c : Byte) (a : BitVec 24) (v : BitVec 32) : (s.respond c a v).host = s.host := rfl
@[simp] theorem State.respond_rsp (s : State) (c : Byte) (a : BitVec 24) (v : BitVec 32) : (s.respond c a v).rsp = s.rsp ++ [responseWord c a v] := rfl

/-! ### recordFault -/

@[simp] theorem State.recordFault_FREQ (s : State) (f : FaultKind) : (s.recordFault f).FREQ = s.FREQ := rfl
@[simp] theorem State.recordFault_NEXT (s : State) (f : FaultKind) : (s.recordFault f).NEXT = s.NEXT := rfl
@[simp] theorem State.recordFault_N (s : State) (f : FaultKind) : (s.recordFault f).N = s.N := rfl
@[simp] theorem State.recordFault_PQ (s : State) (f : FaultKind) : (s.recordFault f).PQ = s.PQ := rfl
@[simp] theorem State.recordFault_ROOT (s : State) (f : FaultKind) : (s.recordFault f).ROOT = s.ROOT := rfl
@[simp] theorem State.recordFault_BUILT (s : State) (f : FaultKind) : (s.recordFault f).BUILT = s.BUILT := rfl
@[simp] theorem State.recordFault_CODE (s : State) (f : FaultKind) : (s.recordFault f).CODE = s.CODE := rfl
@[simp] theorem State.recordFault_OPEN (s : State) (f : FaultKind) : (s.recordFault f).OPEN = s.OPEN := rfl
@[simp] theorem State.recordFault_ACC (s : State) (f : FaultKind) : (s.recordFault f).ACC = s.ACC := rfl
@[simp] theorem State.recordFault_NBITS (s : State) (f : FaultKind) : (s.recordFault f).NBITS = s.NBITS := rfl
@[simp] theorem State.recordFault_FAULT (s : State) (f : FaultKind) : (s.recordFault f).FAULT = if s.FAULT = 0 then faultCode f else s.FAULT := rfl
@[simp] theorem State.recordFault_OUT (s : State) (f : FaultKind) : (s.recordFault f).OUT = s.OUT := rfl
@[simp] theorem State.recordFault_host (s : State) (f : FaultKind) : (s.recordFault f).host = s.host := rfl
@[simp] theorem State.recordFault_rsp (s : State) (f : FaultKind) : (s.recordFault f).rsp = s.rsp := rfl

/-! ### raise -/

@[simp] theorem State.raise_FREQ (s : State) (f : FaultKind) : (s.raise f).FREQ = s.FREQ := rfl
@[simp] theorem State.raise_NEXT (s : State) (f : FaultKind) : (s.raise f).NEXT = s.NEXT := rfl
@[simp] theorem State.raise_N (s : State) (f : FaultKind) : (s.raise f).N = s.N := rfl
@[simp] theorem State.raise_PQ (s : State) (f : FaultKind) : (s.raise f).PQ = s.PQ := rfl
@[simp] theorem State.raise_ROOT (s : State) (f : FaultKind) : (s.raise f).ROOT = s.ROOT := rfl
@[simp] theorem State.raise_BUILT (s : State) (f : FaultKind) : (s.raise f).BUILT = s.BUILT := rfl
@[simp] theorem State.raise_CODE (s : State) (f : FaultKind) : (s.raise f).CODE = s.CODE := rfl
@[simp] theorem State.raise_OPEN (s : State) (f : FaultKind) : (s.raise f).OPEN = s.OPEN := rfl
@[simp] theorem State.raise_ACC (s : State) (f : FaultKind) : (s.raise f).ACC = s.ACC := rfl
@[simp] theorem State.raise_NBITS (s : State) (f : FaultKind) : (s.raise f).NBITS = s.NBITS := rfl
@[simp] theorem State.raise_FAULT (s : State) (f : FaultKind) : (s.raise f).FAULT = if s.FAULT = 0 then faultCode f else s.FAULT := rfl
@[simp] theorem State.raise_OUT (s : State) (f : FaultKind) : (s.raise f).OUT = s.OUT := rfl
@[simp] theorem State.raise_host (s : State) (f : FaultKind) : (s.raise f).host = s.host := rfl
@[simp] theorem State.raise_rsp (s : State) (f : FaultKind) : (s.raise f).rsp = s.rsp ++ [responseWord (faultCode f) 0 0] := rfl

/-! ### refuse -/

@[simp] theorem State.refuse_FREQ (s : State) : (s.refuse).FREQ = s.FREQ := rfl
@[simp] theorem State.refuse_NEXT (s : State) : (s.refuse).NEXT = s.NEXT := rfl
@[simp] theorem State.refuse_N (s : State) : (s.refuse).N = s.N := rfl
@[simp] theorem State.refuse_PQ (s : State) : (s.refuse).PQ = s.PQ := rfl
@[simp] theorem State.refuse_ROOT (s : State) : (s.refuse).ROOT = s.ROOT := rfl
@[simp] theorem State.refuse_BUILT (s : State) : (s.refuse).BUILT = s.BUILT := rfl
@[simp] theorem State.refuse_CODE (s : State) : (s.refuse).CODE = s.CODE := rfl
@[simp] theorem State.refuse_OPEN (s : State) : (s.refuse).OPEN = s.OPEN := rfl
@[simp] theorem State.refuse_ACC (s : State) : (s.refuse).ACC = s.ACC := rfl
@[simp] theorem State.refuse_NBITS (s : State) : (s.refuse).NBITS = s.NBITS := rfl
@[simp] theorem State.refuse_FAULT (s : State) : (s.refuse).FAULT = s.FAULT := rfl
@[simp] theorem State.refuse_OUT (s : State) : (s.refuse).OUT = s.OUT := rfl
@[simp] theorem State.refuse_host (s : State) : (s.refuse).host = s.host := rfl
@[simp] theorem State.refuse_rsp (s : State) : (s.refuse).rsp = s.rsp ++ [responseWord refusedCode 0 0] := rfl

/-! ### emitEvent -/

@[simp] theorem State.emitEvent_FREQ (s : State) (e : OutEvent) : (s.emitEvent e).FREQ = s.FREQ := rfl
@[simp] theorem State.emitEvent_NEXT (s : State) (e : OutEvent) : (s.emitEvent e).NEXT = s.NEXT := rfl
@[simp] theorem State.emitEvent_N (s : State) (e : OutEvent) : (s.emitEvent e).N = s.N := rfl
@[simp] theorem State.emitEvent_PQ (s : State) (e : OutEvent) : (s.emitEvent e).PQ = s.PQ := rfl
@[simp] theorem State.emitEvent_ROOT (s : State) (e : OutEvent) : (s.emitEvent e).ROOT = s.ROOT := rfl
@[simp] theorem State.emitEvent_BUILT (s : State) (e : OutEvent) : (s.emitEvent e).BUILT = s.BUILT := rfl
@[simp] theorem State.emitEvent_CODE (s : State) (e : OutEvent) : (s.emitEvent e).CODE = s.CODE := rfl
@[simp] theorem State.emitEvent_OPEN (s : State) (e : OutEvent) : (s.emitEvent e).OPEN = s.OPEN := rfl
@[simp] theorem State.emitEvent_ACC (s : State) (e : OutEvent) : (s.emitEvent e).ACC = s.ACC := rfl
@[simp] theorem State.emitEvent_NBITS (s : State) (e : OutEvent) : (s.emitEvent e).NBITS = s.NBITS := rfl
@[simp] theorem State.emitEvent_FAULT (s : State) (e : OutEvent) : (s.emitEvent e).FAULT = s.FAULT := rfl
@[simp] theorem State.emitEvent_OUT (s : State) (e : OutEvent) : (s.emitEvent e).OUT = s.OUT ++ [e] := rfl
@[simp] theorem State.emitEvent_host (s : State) (e : OutEvent) : (s.emitEvent e).host = s.host := rfl
@[simp] theorem State.emitEvent_rsp (s : State) (e : OutEvent) : (s.emitEvent e).rsp = s.rsp := rfl

/-! ### clearWriter -/

@[simp] theorem State.clearWriter_FREQ (s : State) (b : Bool) : (s.clearWriter b).FREQ = s.FREQ := rfl
@[simp] theorem State.clearWriter_NEXT (s : State) (b : Bool) : (s.clearWriter b).NEXT = s.NEXT := rfl
@[simp] theorem State.clearWriter_N (s : State) (b : Bool) : (s.clearWriter b).N = s.N := rfl
@[simp] theorem State.clearWriter_PQ (s : State) (b : Bool) : (s.clearWriter b).PQ = s.PQ := rfl
@[simp] theorem State.clearWriter_ROOT (s : State) (b : Bool) : (s.clearWriter b).ROOT = s.ROOT := rfl
@[simp] theorem State.clearWriter_BUILT (s : State) (b : Bool) : (s.clearWriter b).BUILT = s.BUILT := rfl
@[simp] theorem State.clearWriter_CODE (s : State) (b : Bool) : (s.clearWriter b).CODE = s.CODE := rfl
@[simp] theorem State.clearWriter_OPEN (s : State) (b : Bool) : (s.clearWriter b).OPEN = b := rfl
@[simp] theorem State.clearWriter_ACC (s : State) (b : Bool) : (s.clearWriter b).ACC = 0 := rfl
@[simp] theorem State.clearWriter_NBITS (s : State) (b : Bool) : (s.clearWriter b).NBITS = 0 := rfl
@[simp] theorem State.clearWriter_FAULT (s : State) (b : Bool) : (s.clearWriter b).FAULT = s.FAULT := rfl
@[simp] theorem State.clearWriter_OUT (s : State) (b : Bool) : (s.clearWriter b).OUT = s.OUT := rfl
@[simp] theorem State.clearWriter_host (s : State) (b : Bool) : (s.clearWriter b).host = s.host := rfl
@[simp] theorem State.clearWriter_rsp (s : State) (b : Bool) : (s.clearWriter b).rsp = s.rsp := rfl

/-! ### release and hardwareReset -/

@[simp] theorem State.release_FREQ (s : State) : s.release.FREQ = State.reset.FREQ := rfl
@[simp] theorem State.release_NEXT (s : State) : s.release.NEXT = State.reset.NEXT := rfl
@[simp] theorem State.release_N (s : State) : s.release.N = State.reset.N := rfl
@[simp] theorem State.release_PQ (s : State) : s.release.PQ = State.reset.PQ := rfl
@[simp] theorem State.release_ROOT (s : State) : s.release.ROOT = State.reset.ROOT := rfl
@[simp] theorem State.release_BUILT (s : State) : s.release.BUILT = State.reset.BUILT := rfl
@[simp] theorem State.release_CODE (s : State) : s.release.CODE = State.reset.CODE := rfl
@[simp] theorem State.release_OPEN (s : State) : s.release.OPEN = State.reset.OPEN := rfl
@[simp] theorem State.release_ACC (s : State) : s.release.ACC = State.reset.ACC := rfl
@[simp] theorem State.release_NBITS (s : State) : s.release.NBITS = State.reset.NBITS := rfl
@[simp] theorem State.release_FAULT (s : State) : s.release.FAULT = State.reset.FAULT := rfl
@[simp] theorem State.release_OUT (s : State) : s.release.OUT = s.OUT := rfl
@[simp] theorem State.release_host (s : State) : s.release.host = s.host := rfl
@[simp] theorem State.release_rsp (s : State) : s.release.rsp = s.rsp := rfl
@[simp] theorem State.hardwareReset_eq (s : State) : s.hardwareReset = s.release := rfl

/-! ### putBit, putBitSeq, putBits, flushSink -/

@[simp] theorem State.putBit_FREQ (s : State) (t : Bool) : (s.putBit t).FREQ = s.FREQ := by
  unfold State.putBit; split <;> rfl
@[simp] theorem State.putBitSeq_FREQ (s : State) (bits : List Bool) : (s.putBitSeq bits).FREQ = s.FREQ := by
  unfold State.putBitSeq
  induction bits generalizing s with
  | nil => rfl
  | cons b rest ih => simp [ih]
@[simp] theorem State.putBits_FREQ (s : State) (v : Byte) (w : Nat) : (s.putBits v w).FREQ = s.FREQ := by
  simp [State.putBits]
@[simp] theorem State.putBit_NEXT (s : State) (t : Bool) : (s.putBit t).NEXT = s.NEXT := by
  unfold State.putBit; split <;> rfl
@[simp] theorem State.putBitSeq_NEXT (s : State) (bits : List Bool) : (s.putBitSeq bits).NEXT = s.NEXT := by
  unfold State.putBitSeq
  induction bits generalizing s with
  | nil => rfl
  | cons b rest ih => simp [ih]
@[simp] theorem State.putBits_NEXT (s : State) (v : Byte) (w : Nat) : (s.putBits v w).NEXT = s.NEXT := by
  simp [State.putBits]
@[simp] theorem State.putBit_N (s : State) (t : Bool) : (s.putBit t).N = s.N := by
  unfold State.putBit; split <;> rfl
@[simp] theorem State.putBitSeq_N (s : State) (bits : List Bool) : (s.putBitSeq bits).N = s.N := by
  unfold State.putBitSeq
  induction bits generalizing s with
  | nil => rfl
  | cons b rest ih => simp [ih]
@[simp] theorem State.putBits_N (s : State) (v : Byte) (w : Nat) : (s.putBits v w).N = s.N := by
  simp [State.putBits]
@[simp] theorem State.putBit_PQ (s : State) (t : Bool) : (s.putBit t).PQ = s.PQ := by
  unfold State.putBit; split <;> rfl
@[simp] theorem State.putBitSeq_PQ (s : State) (bits : List Bool) : (s.putBitSeq bits).PQ = s.PQ := by
  unfold State.putBitSeq
  induction bits generalizing s with
  | nil => rfl
  | cons b rest ih => simp [ih]
@[simp] theorem State.putBits_PQ (s : State) (v : Byte) (w : Nat) : (s.putBits v w).PQ = s.PQ := by
  simp [State.putBits]
@[simp] theorem State.putBit_ROOT (s : State) (t : Bool) : (s.putBit t).ROOT = s.ROOT := by
  unfold State.putBit; split <;> rfl
@[simp] theorem State.putBitSeq_ROOT (s : State) (bits : List Bool) : (s.putBitSeq bits).ROOT = s.ROOT := by
  unfold State.putBitSeq
  induction bits generalizing s with
  | nil => rfl
  | cons b rest ih => simp [ih]
@[simp] theorem State.putBits_ROOT (s : State) (v : Byte) (w : Nat) : (s.putBits v w).ROOT = s.ROOT := by
  simp [State.putBits]
@[simp] theorem State.putBit_BUILT (s : State) (t : Bool) : (s.putBit t).BUILT = s.BUILT := by
  unfold State.putBit; split <;> rfl
@[simp] theorem State.putBitSeq_BUILT (s : State) (bits : List Bool) : (s.putBitSeq bits).BUILT = s.BUILT := by
  unfold State.putBitSeq
  induction bits generalizing s with
  | nil => rfl
  | cons b rest ih => simp [ih]
@[simp] theorem State.putBits_BUILT (s : State) (v : Byte) (w : Nat) : (s.putBits v w).BUILT = s.BUILT := by
  simp [State.putBits]
@[simp] theorem State.putBit_CODE (s : State) (t : Bool) : (s.putBit t).CODE = s.CODE := by
  unfold State.putBit; split <;> rfl
@[simp] theorem State.putBitSeq_CODE (s : State) (bits : List Bool) : (s.putBitSeq bits).CODE = s.CODE := by
  unfold State.putBitSeq
  induction bits generalizing s with
  | nil => rfl
  | cons b rest ih => simp [ih]
@[simp] theorem State.putBits_CODE (s : State) (v : Byte) (w : Nat) : (s.putBits v w).CODE = s.CODE := by
  simp [State.putBits]
@[simp] theorem State.putBit_OPEN (s : State) (t : Bool) : (s.putBit t).OPEN = s.OPEN := by
  unfold State.putBit; split <;> rfl
@[simp] theorem State.putBitSeq_OPEN (s : State) (bits : List Bool) : (s.putBitSeq bits).OPEN = s.OPEN := by
  unfold State.putBitSeq
  induction bits generalizing s with
  | nil => rfl
  | cons b rest ih => simp [ih]
@[simp] theorem State.putBits_OPEN (s : State) (v : Byte) (w : Nat) : (s.putBits v w).OPEN = s.OPEN := by
  simp [State.putBits]
@[simp] theorem State.putBit_FAULT (s : State) (t : Bool) : (s.putBit t).FAULT = s.FAULT := by
  unfold State.putBit; split <;> rfl
@[simp] theorem State.putBitSeq_FAULT (s : State) (bits : List Bool) : (s.putBitSeq bits).FAULT = s.FAULT := by
  unfold State.putBitSeq
  induction bits generalizing s with
  | nil => rfl
  | cons b rest ih => simp [ih]
@[simp] theorem State.putBits_FAULT (s : State) (v : Byte) (w : Nat) : (s.putBits v w).FAULT = s.FAULT := by
  simp [State.putBits]
@[simp] theorem State.putBit_host (s : State) (t : Bool) : (s.putBit t).host = s.host := by
  unfold State.putBit; split <;> rfl
@[simp] theorem State.putBitSeq_host (s : State) (bits : List Bool) : (s.putBitSeq bits).host = s.host := by
  unfold State.putBitSeq
  induction bits generalizing s with
  | nil => rfl
  | cons b rest ih => simp [ih]
@[simp] theorem State.putBits_host (s : State) (v : Byte) (w : Nat) : (s.putBits v w).host = s.host := by
  simp [State.putBits]
@[simp] theorem State.putBit_rsp (s : State) (t : Bool) : (s.putBit t).rsp = s.rsp := by
  unfold State.putBit; split <;> rfl
@[simp] theorem State.putBitSeq_rsp (s : State) (bits : List Bool) : (s.putBitSeq bits).rsp = s.rsp := by
  unfold State.putBitSeq
  induction bits generalizing s with
  | nil => rfl
  | cons b rest ih => simp [ih]
@[simp] theorem State.putBits_rsp (s : State) (v : Byte) (w : Nat) : (s.putBits v w).rsp = s.rsp := by
  simp [State.putBits]
@[simp] theorem State.flushSink_FREQ (s : State) (pad : Bool) : (s.flushSink pad).FREQ = s.FREQ := by
  unfold State.flushSink; split <;> rfl
@[simp] theorem State.flushSink_NEXT (s : State) (pad : Bool) : (s.flushSink pad).NEXT = s.NEXT := by
  unfold State.flushSink; split <;> rfl
@[simp] theorem State.flushSink_N (s : State) (pad : Bool) : (s.flushSink pad).N = s.N := by
  unfold State.flushSink; split <;> rfl
@[simp] theorem State.flushSink_PQ (s : State) (pad : Bool) : (s.flushSink pad).PQ = s.PQ := by
  unfold State.flushSink; split <;> rfl
@[simp] theorem State.flushSink_ROOT (s : State) (pad : Bool) : (s.flushSink pad).ROOT = s.ROOT := by
  unfold State.flushSink; split <;> rfl
@[simp] theorem State.flushSink_BUILT (s : State) (pad : Bool) : (s.flushSink pad).BUILT = s.BUILT := by
  unfold State.flushSink; split <;> rfl
@[simp] theorem State.flushSink_CODE (s : State) (pad : Bool) : (s.flushSink pad).CODE = s.CODE := by
  unfold State.flushSink; split <;> rfl
@[simp] theorem State.flushSink_OPEN (s : State) (pad : Bool) : (s.flushSink pad).OPEN = s.OPEN := by
  unfold State.flushSink; split <;> rfl
@[simp] theorem State.flushSink_ACC (s : State) (pad : Bool) : (s.flushSink pad).ACC = s.ACC := by
  unfold State.flushSink; split <;> rfl
@[simp] theorem State.flushSink_NBITS (s : State) (pad : Bool) : (s.flushSink pad).NBITS = s.NBITS := by
  unfold State.flushSink; split <;> rfl
@[simp] theorem State.flushSink_FAULT (s : State) (pad : Bool) : (s.flushSink pad).FAULT = s.FAULT := by
  unfold State.flushSink; split <;> rfl
@[simp] theorem State.flushSink_host (s : State) (pad : Bool) : (s.flushSink pad).host = s.host := by
  unfold State.flushSink; split <;> rfl
@[simp] theorem State.flushSink_rsp (s : State) (pad : Bool) : (s.flushSink pad).rsp = s.rsp := by
  unfold State.flushSink; split <;> rfl

/-! ### The storage spaces -/

@[simp] theorem symIndex_inj (a b : Byte) : symIndex a = symIndex b ↔ a = b :=
  ⟨fun h => BitVec.eq_of_toNat_eq (congrArg Fin.val h), congrArg symIndex⟩

theorem State.slot_def (s : State) (id : NodeId) : s.slot id = s.N.get id := rfl

@[simp] theorem State.slot_setSlot (s : State) (id x : NodeId) (n : Node) :
    (s.setSlot id n).slot x = if x = id then some n else s.slot x := by
  by_cases h : x = id
  · subst h; simp [State.slot, Vector.get_eq_getElem]
  · have h' : id.val ≠ x.val := fun e => h (Fin.ext e.symm)
    simp [State.slot, Vector.get_eq_getElem, h, Vector.getElem_set_ne, h']

@[simp] theorem State.slot_setTag (s : State) (id x : NodeId) (t : Tag) :
    (s.setTag id t).slot x = if x = id then (s.slot id).map (fun n => { n with st := t }) else s.slot x := by
  by_cases h : x = id
  · subst h; simp [State.slot, Vector.get_eq_getElem]
  · have h' : id.val ≠ x.val := fun e => h (Fin.ext e.symm)
    simp [State.slot, Vector.get_eq_getElem, h, Vector.getElem_set_ne, h']

@[simp] theorem State.freq_setFreq (s : State) (sym x : Byte) (c : Freq) :
    (s.setFreq sym c).freq x = if x = sym then c else s.freq x := by
  by_cases h : x = sym
  · subst h; simp [State.freq, Vector.get_eq_getElem]
  · have h' : (symIndex sym).val ≠ (symIndex x).val := fun e => h ((symIndex_inj _ _).1 (Fin.ext e.symm))
    simp [State.freq, Vector.get_eq_getElem, h, Vector.getElem_set_ne, h']

@[simp] theorem State.slot_setNext (s : State) (n : Fin 512) (x : NodeId) : (s.setNext n).slot x = s.slot x := rfl
@[simp] theorem State.slot_setQueue (s : State) (pq : List NodeId) (x : NodeId) : (s.setQueue pq).slot x = s.slot x := rfl
@[simp] theorem State.slot_respond (s : State) (c : Byte) (a : BitVec 24) (v : BitVec 32) (x : NodeId) :
    (s.respond c a v).slot x = s.slot x := rfl
@[simp] theorem State.slot_raise (s : State) (f : FaultKind) (x : NodeId) : (s.raise f).slot x = s.slot x := rfl
@[simp] theorem State.slot_refuse (s : State) (x : NodeId) : s.refuse.slot x = s.slot x := rfl

/-- The slots depend on N alone. -/
theorem State.slot_congr {s t : State} (h : t.N = s.N) (id : NodeId) : t.slot id = s.slot id := by
  simp [State.slot, h]

end Sys2Proof.Machine
end

