-- ==== Sys2Proof/Laws/Ops.lean ====
section
/-! SUPPORT. For each shared operation, one lemma that says everything it can do, for later proofs to cite instead of
unfolding it. -/

namespace Sys2Proof.Machine

/-! ### The frame of a rule -/

section frame
variable {α β : Type}

@[simp] theorem RuleResult.andThen_done (a : α) (s : State) (k : α → State → RuleResult β) :
    (RuleResult.done a s).andThen k = k a s := rfl
@[simp] theorem RuleResult.andThen_raised (f : FaultKind) (s : State) (k : α → State → RuleResult β) :
    (RuleResult.raised f s).andThen k = .raised f s := rfl
@[simp] theorem RuleResult.andThen_stuck (w : Fault) (k : α → State → RuleResult β) :
    (RuleResult.stuck w : RuleResult α).andThen k = .stuck w := rfl
@[simp] theorem RuleResult.finish_done (a : Reply) (s : State) :
    (RuleResult.done a s).finish = .next (s.respond 0 a.aux a.val) := rfl
@[simp] theorem RuleResult.finish_raised (f : FaultKind) (s : State) :
    (RuleResult.raised f s : RuleResult Reply).finish = .next (s.raise f) := rfl
@[simp] theorem RuleResult.finish_stuck (w : Fault) :
    (RuleResult.stuck w : RuleResult Reply).finish = .fault w := rfl

end frame

theorem State.runUnlessFaulted_faulted (s : State) (rule : State → RuleResult Reply) (h : s.FAULT ≠ 0) :
    s.runUnlessFaulted rule = .next s.refuse := if_pos h

theorem State.runUnlessFaulted_free (s : State) (rule : State → RuleResult Reply) (h : s.FAULT = 0) :
    s.runUnlessFaulted rule = (rule s).finish := if_neg (not_not.mpr h)

/-- A finished rule answers a next state in exactly two ways. -/
theorem RuleResult.finish_next {r : RuleResult Reply} {t : State} (h : r.finish = .next t) :
    (∃ a s, r = .done a s ∧ t = s.respond 0 a.aux a.val) ∨ (∃ f s, r = .raised f s ∧ t = s.raise f) := by
  cases r with
  | done a s => exact .inl ⟨a, s, rfl, by simpa using h.symm⟩
  | raised f s => exact .inr ⟨f, s, rfl, by simpa using h.symm⟩
  | stuck w => simp at h

/-- A command that is refused while FAULTED answers a next state in exactly three ways. -/
theorem State.runUnlessFaulted_next {s t : State} {rule : State → RuleResult Reply}
    (h : s.runUnlessFaulted rule = .next t) :
    (s.FAULT ≠ 0 ∧ t = s.refuse) ∨
    (s.FAULT = 0 ∧ ∃ a u, rule s = .done a u ∧ t = u.respond 0 a.aux a.val) ∨
    (s.FAULT = 0 ∧ ∃ f u, rule s = .raised f u ∧ t = u.raise f) := by
  by_cases hf : s.FAULT = 0
  · rw [s.runUnlessFaulted_free rule hf] at h
    obtain ⟨a, u, hr, ht⟩ | ⟨f, u, hr, ht⟩ := RuleResult.finish_next h
    · exact .inr (.inl ⟨hf, a, u, hr, ht⟩)
    · exact .inr (.inr ⟨hf, f, u, hr, ht⟩)
  · rw [s.runUnlessFaulted_faulted rule hf] at h
    exact .inl ⟨hf, by simpa using h.symm⟩

/-- No instruction is refused by the model. -/
theorem exec_not_refused (i : Instr) (s : State) (why : Refusal) : exec i s ≠ .refused why := by
  have hfin : ∀ r : RuleResult Reply, r.finish ≠ .refused why := by
    intro r; cases r <;> simp [RuleResult.finish]
  have hrun : ∀ rule, s.runUnlessFaulted rule ≠ .refused why := by
    intro rule; unfold State.runUnlessFaulted; split
    · simp
    · exact hfin _
  have halw : ∀ rule, s.runAlways rule ≠ .refused why := fun rule => hfin (rule s)
  cases i <;> first
    | exact hrun _ | exact halw (resetRule _) | exact halw (codeRdRule _ _) | exact halw (rdregRule _)
    | exact halw (nodeRdRule _ _)

/-! ### The queue -/

/-- The entries of a list that are before `id`; an entry without a node counts as none. -/
def State.beforeIn (s : State) (before : Comparator) (id : NodeId) (n : Node) (e : NodeId) : Bool :=
  match s.slot e with
  | some m => before e m id n
  | none => false

/-- The comparator on two ids that name nodes. -/
theorem State.beforeBy_of_slots {s : State} {x y : NodeId} {nx ny : Node} (hx : s.slot x = some nx)
    (hy : s.slot y = some ny) (before : Comparator) : s.beforeBy before x y = before x nx y ny := by
  simp [beforeBy, hx, hy]

/-- `countBefore` counts, where every entry names a node. -/
theorem State.countBefore_readable (s : State) (before : Comparator) (id : NodeId) (n : Node) (l : List NodeId)
    (h : ∀ e ∈ l, (s.slot e).isSome = true) : s.countBefore before id n l = .ok (l.countP (s.beforeIn before id n)) := by
  induction l with
  | nil => rfl
  | cons e rest ih =>
    have hr := ih fun x hx => h x (List.mem_cons_of_mem e hx)
    obtain ⟨m, hm⟩ := Option.isSome_iff_exists.1 (h e (List.mem_cons_self))
    by_cases hb : before e m id n = true <;> simp [countBefore, hm, hr, hb, beforeIn]

/-- `countBefore` answers a count only where every entry names a node. -/
theorem State.countBefore_ok {s : State} {before : Comparator} {id : NodeId} {n : Node} {l : List NodeId} {k : Nat}
    (h : s.countBefore before id n l = .ok k) : (∀ e ∈ l, (s.slot e).isSome = true) ∧ k = l.countP (s.beforeIn before id n) := by
  have hall : ∀ e ∈ l, (s.slot e).isSome = true := by
    induction l generalizing k with
    | nil => simp
    | cons e rest ih =>
      unfold countBefore at h
      cases hm : s.slot e with
      | none => simp [hm] at h
      | some m =>
        cases hr : s.countBefore before id n rest with
        | error w => simp [hm, hr] at h
        | ok j =>
          intro x hx
          rcases List.mem_cons.1 hx with rfl | hx
          · simp [hm]
          · exact ih hr x hx
  exact ⟨hall, by rw [s.countBefore_readable before id n l hall] at h; injection h with h; exact h.symm⟩

theorem insertAt_perm (pq : List NodeId) (k : Nat) (id : NodeId) : List.Perm (insertAt pq k id) (id :: pq) := by
  unfold insertAt
  calc List.Perm (pq.take k ++ id :: pq.drop k) (id :: (pq.take k ++ pq.drop k)) := List.perm_middle
    _ = id :: pq := by rw [List.take_append_drop]

@[simp] theorem mem_insertAt (pq : List NodeId) (k : Nat) (id x : NodeId) :
    x ∈ insertAt pq k id ↔ x = id ∨ x ∈ pq := by
  rw [(insertAt_perm pq k id).mem_iff, List.mem_cons]

@[simp] theorem length_insertAt (pq : List NodeId) (k : Nat) (id : NodeId) :
    (insertAt pq k id).length = pq.length + 1 := by
  rw [(insertAt_perm pq k id).length_eq, List.length_cons]

/-- `enqueue(id)` (R92), where `id` and every entry of the queue name nodes. -/
theorem State.enqueue_readable (s : State) (before : Comparator) {id : NodeId} {n : Node} (hn : s.slot id = some n) (h : s.QueueReadable) :
    s.enqueue before id =
      .done () ((s.setQueue (insertAt s.PQ (s.PQ.countP (s.beforeIn before id n)) id)).setTag id .queued) := by
  simp [enqueue, hn, s.countBefore_readable before id n s.PQ h]

/-- Everything `enqueue(id)` can do: it stops, or it inserts `id` and tags it QUEUED. -/
theorem State.enqueue_done {s t : State} {before : Comparator} {id : NodeId} (h : s.enqueue before id = .done () t) :
    ∃ n, s.slot id = some n ∧ s.QueueReadable ∧
      t = (s.setQueue (insertAt s.PQ (s.PQ.countP (s.beforeIn before id n)) id)).setTag id .queued := by
  cases hn : s.slot id with
  | none => simp [enqueue, hn] at h
  | some n =>
    cases hk : s.countBefore before id n s.PQ with
    | error w => simp [enqueue, hn, hk] at h
    | ok k =>
      obtain ⟨hall, rfl⟩ := State.countBefore_ok hk
      exact ⟨n, rfl, hall, by simpa [enqueue, hn, hk] using h.symm⟩

theorem State.enqueue_ne_raised (s t : State) (before : Comparator) (id : NodeId) (f : FaultKind) :
    s.enqueue before id ≠ .raised f t := by
  unfold enqueue; split
  · simp
  · split <;> simp

/-- Everything `dequeue()` can do (R93). -/
theorem State.dequeue_cases (s : State) :
    (s.PQ = [] ∧ s.dequeue = .raised .emptyQueue s) ∨
    (∃ id rest, s.PQ = id :: rest ∧ s.dequeue = .done id (s.setQueue rest)) := by
  unfold dequeue
  cases h : s.PQ with
  | nil => simp
  | cons id rest => exact .inr ⟨id, rest, rfl, rfl⟩

/-! ### Allocation -/

/-- The state in which a node stands at NEXT, tagged QUEUED, and in the queue at position `k`. -/
def State.withNode (s : State) (h : s.NEXT.val < 511) (n : Node) (k : Nat) : State :=
  ((s.setNext ⟨s.NEXT.val + 1, by omega⟩).setSlot ⟨s.NEXT.val, h⟩ { n with st := .queued }).setQueue
    (insertAt s.PQ k ⟨s.NEXT.val, h⟩)

/-- The slots after a node is placed at NEXT. -/
@[simp] theorem State.slot_withNode (s : State) (h : s.NEXT.val < 511) (n : Node) (k : Nat) (x : NodeId) :
    (s.withNode h n k).slot x = if x = ⟨s.NEXT.val, h⟩ then some { n with st := .queued } else s.slot x := by
  simp [withNode]

/-- How many entries of the queue are before a node placed at NEXT. -/
def State.positionFor (s : State) (before : Comparator) (h : s.NEXT.val < 511) (n : Node) : Nat :=
  s.PQ.countP ((s.setSlot ⟨s.NEXT.val, h⟩ n).beforeIn before ⟨s.NEXT.val, h⟩ n)

/-- A node placed HELD at NEXT and then tagged QUEUED is a node placed QUEUED. -/
theorem State.tag_placed (s : State) (h : s.NEXT.val < 511) (n : Node) (k : Nat) :
    (((s.setNext ⟨s.NEXT.val + 1, by omega⟩).setSlot ⟨s.NEXT.val, h⟩ n).setQueue
      (insertAt s.PQ k ⟨s.NEXT.val, h⟩)).setTag ⟨s.NEXT.val, h⟩ .queued = s.withNode h n k := by
  simp [withNode, setTag, setSlot, setQueue, setNext, Vector.get_eq_getElem]

/-- `allocate` where every entry of the queue names a node: the node stands at NEXT, tagged QUEUED, and in the queue. -/
theorem State.allocate_readable (s : State) (before : Comparator) (c : Byte) (f : Freq) (ch : Option (NodeId × NodeId))
    (h : s.NEXT.val < 511) (hq : s.QueueReadable) :
    s.allocate before c f ch =
      .done ⟨s.NEXT.val, h⟩ (s.withNode h ⟨c, f, ch, .held⟩ (s.positionFor before h ⟨c, f, ch, .held⟩)) := by
  have hr : ((s.setNext ⟨s.NEXT.val + 1, by omega⟩).setSlot ⟨s.NEXT.val, h⟩ ⟨c, f, ch, .held⟩).QueueReadable := by
    intro e he
    rw [State.slot_setSlot]
    split
    · rfl
    · exact hq e he
  unfold allocate
  rw [dif_pos h]
  simp only
  rw [State.enqueue_readable _ _ ((State.slot_setSlot _ _ _ _).trans (if_pos rfl)) hr]
  exact congrArg (RuleResult.done _) (s.tag_placed h _ _)

/-- Everything `allocate` can do when it completes. -/
theorem State.allocate_done {s t : State} {before : Comparator} {c : Byte} {f : Freq} {ch : Option (NodeId × NodeId)} {id : NodeId}
    (h : s.allocate before c f ch = .done id t) :
    ∃ hn : s.NEXT.val < 511, ∃ k, id = ⟨s.NEXT.val, hn⟩ ∧ k ≤ s.PQ.length ∧ t = s.withNode hn ⟨c, f, ch, .held⟩ k := by
  unfold allocate at h
  by_cases hn : s.NEXT.val < 511
  · rw [dif_pos hn] at h
    simp only at h
    cases he : ((s.setNext ⟨s.NEXT.val + 1, by omega⟩).setSlot ⟨s.NEXT.val, hn⟩ ⟨c, f, ch, .held⟩).enqueue before
        ⟨s.NEXT.val, hn⟩ with
    | raised g u => exact absurd he (State.enqueue_ne_raised _ _ _ _ _)
    | stuck w => simp [he] at h
    | done a u =>
      obtain ⟨m, hm, _, rfl⟩ := State.enqueue_done he
      rw [he] at h
      simp only [RuleResult.andThen_done, RuleResult.done.injEq] at h
      rw [State.slot_setSlot, if_pos rfl] at hm
      injection hm with hm
      subst hm
      exact ⟨hn, _, h.1.symm, List.countP_le_length, h.2.symm.trans (s.tag_placed hn _ _)⟩
  · rw [dif_neg hn] at h; simp at h

/-- `allocate` raises only where the arena is full, and then changes nothing. -/
theorem State.allocate_raised {s t : State} {before : Comparator} {c : Byte} {f : Freq} {ch : Option (NodeId × NodeId)} {g : FaultKind}
    (h : s.allocate before c f ch = .raised g t) : s.NEXT.val = 511 ∧ g = .allocation ∧ t = s := by
  unfold allocate at h
  by_cases hn : s.NEXT.val < 511
  · rw [dif_pos hn] at h
    simp only at h
    cases he : ((s.setNext ⟨s.NEXT.val + 1, by omega⟩).setSlot ⟨s.NEXT.val, hn⟩ ⟨c, f, ch, .held⟩).enqueue before
        ⟨s.NEXT.val, hn⟩ with
    | raised g u => exact absurd he (State.enqueue_ne_raised _ _ _ _ _)
    | stuck w => simp [he] at h
    | done a u => simp [he] at h
  · rw [dif_neg hn] at h
    simp only [RuleResult.raised.injEq] at h
    exact ⟨by omega, h.1.symm, h.2.symm⟩

/-- Everything `new_leaf` can do when it completes (R94). -/
theorem State.newLeaf_done {s t : State} {before : Comparator} {sym : Byte} {f : Freq} {id : NodeId} (h : s.newLeaf before sym f = .done id t) :
    ∃ hn : s.NEXT.val < 511, s.PQ.length < 256 ∧ ∃ k, id = ⟨s.NEXT.val, hn⟩ ∧ k ≤ s.PQ.length ∧
      t = s.withNode hn ⟨sym, f, none, .held⟩ k := by
  unfold newLeaf at h
  split at h
  · simp at h
  · split at h
    · simp at h
    · rename_i hq
      obtain ⟨hn, k, hid, hk, ht⟩ := State.allocate_done h
      exact ⟨hn, by simpa [pqLen] using hq, k, hid, hk, ht⟩

/-- `new_leaf` raises AllocationError where a capacity is used up, and then changes nothing (R94). -/
theorem State.newLeaf_raised {s t : State} {before : Comparator} {sym : Byte} {f : Freq} {g : FaultKind}
    (h : s.newLeaf before sym f = .raised g t) : (s.NEXT.val = 511 ∨ 256 ≤ s.PQ.length) ∧ g = .allocation ∧ t = s := by
  unfold newLeaf at h
  split at h
  · simp only [RuleResult.raised.injEq] at h
    exact ⟨.inl (by omega), h.1.symm, h.2.symm⟩
  · split at h
    · rename_i hq
      simp only [RuleResult.raised.injEq] at h
      exact ⟨.inr hq, h.1.symm, h.2.symm⟩
    · obtain ⟨hn, hg, ht⟩ := State.allocate_raised h
      exact ⟨.inl hn, hg, ht⟩

/-- The queue after the two removals of a merge step, both nodes tagged CHILD. -/
def State.consumed (s : State) (x y : NodeId) (rest : List NodeId) : State :=
  ((s.setQueue rest).setTag x .child).setTag y .child

/-- Everything `merge_step` can do when it completes (R106). -/
theorem State.mergeStep_done {s t : State} {before : Comparator} {p : NodeId} (h : s.mergeStep before = .done p t) :
    ∃ x y rest nx ny, s.PQ = x :: y :: rest ∧ s.slot x = some nx ∧ s.slot y = some ny ∧
      nx.frequency.toNat + ny.frequency.toNat < 2 ^ 32 ∧
      ∃ hn : s.NEXT.val < 511, ∃ k, p = ⟨s.NEXT.val, hn⟩ ∧ k ≤ rest.length ∧
        t = (s.consumed x y rest).withNode hn
          ⟨Config.sentinel, BitVec.ofNat 32 (nx.frequency.toNat + ny.frequency.toNat), some (x, y), .held⟩ k := by
  unfold mergeStep at h
  split at h
  · rename_i x y rest hpq
    split at h
    · simp at h
    · split at h
      · simp at h
      · simp at h
      · rename_i nx ny hx hy
        split at h
        · simp at h
        · rename_i hs
          obtain ⟨hn, k, hid, hk, ht⟩ := State.allocate_done h
          exact ⟨x, y, rest, nx, ny, hpq, hx, hy, by omega, hn, k, hid, hk, ht⟩
  · simp at h

/-- `merge_step` raises one of its three faults, in their order, and then changes nothing (R106). -/
theorem State.mergeStep_raised {s t : State} {before : Comparator} {f : FaultKind} (h : s.mergeStep before = .raised f t) :
    t = s ∧ ((s.PQ.length < 2 ∧ f = .emptyQueue) ∨ (2 ≤ s.PQ.length ∧ s.NEXT.val = 511 ∧ f = .allocation) ∨
      (s.NEXT.val < 511 ∧ f = .freqOverflow ∧ ∃ x y rest nx ny, s.PQ = x :: y :: rest ∧ s.slot x = some nx ∧
        s.slot y = some ny ∧ 2 ^ 32 ≤ nx.frequency.toNat + ny.frequency.toNat)) := by
  unfold mergeStep at h
  split at h
  · rename_i x y rest hpq
    split at h
    · rename_i hn
      simp only [RuleResult.raised.injEq] at h
      exact ⟨h.2.symm, .inr (.inl ⟨by simp [hpq], by omega, h.1.symm⟩)⟩
    · rename_i hn
      split at h
      · simp at h
      · simp at h
      · rename_i nx ny hx hy
        split at h
        · rename_i hs
          simp only [RuleResult.raised.injEq] at h
          exact ⟨h.2.symm, .inr (.inr ⟨by omega, h.1.symm, x, y, rest, nx, ny, hpq, hx, hy, hs⟩)⟩
        · have := (State.allocate_raised h).1
          simp at this; omega
  · rename_i hpq
    simp only [RuleResult.raised.injEq] at h
    refine ⟨h.2.symm, .inl ⟨?_, h.1.symm⟩⟩
    rcases hq : s.PQ with _ | ⟨x, _ | ⟨y, rest⟩⟩
    · simp
    · simp
    · exact absurd hq (hpq x y rest)

/-- A completed merge step shortens the queue by one (R112). -/
theorem State.mergeStep_length {s t : State} {before : Comparator} {p : NodeId} (h : s.mergeStep before = .done p t) :
    t.PQ.length + 1 = s.PQ.length := by
  obtain ⟨x, y, rest, _, _, hpq, _, _, _, hn, k, _, _, rfl⟩ := State.mergeStep_done h
  simp [withNode, consumed, hpq]

/-! ### Trees -/

/-- `ser` gives the postorder bits of the tree, if the path fits the stack (R122). -/
theorem State.serBits_tree {s : State} {id : NodeId} {t : CodeTree} (h : s.TreeAt id t) {stack : Nat}
    (hd : t.depth < stack) : s.serBits .post stack id = .ok t.postorder := by
  induction h generalizing stack with
  | leaf hs hc =>
    obtain ⟨k, rfl⟩ : ∃ k, stack = k + 1 := ⟨stack - 1, by omega⟩
    simp [serBits, hs, hc, CodeTree.postorder]
  | node hs hc _ _ ihl ihr =>
    obtain ⟨k, rfl⟩ : ∃ k, stack = k + 1 := ⟨stack - 1, by omega⟩
    simp only [CodeTree.depth] at hd
    simp [serBits, hs, hc, CodeTree.postorder, ihl (stack := k) (by omega), ihr (stack := k) (by omega)]

/-- An id names at most one tree. -/
theorem State.TreeAt_unique {s : State} {id : NodeId} {t u : CodeTree} (h : s.TreeAt id t) (h' : s.TreeAt id u) :
    t = u := by
  induction h generalizing u with
  | leaf hs hc =>
    cases h' with
    | leaf hs' hc' => rw [hs] at hs'; injection hs' with e; rw [e]
    | node hs' hc' _ _ => rw [hs] at hs'; injection hs' with e; subst e; rw [hc] at hc'; simp at hc'
  | node hs hc _ _ ihl ihr =>
    cases h' with
    | leaf hs' hc' => rw [hs] at hs'; injection hs' with e; subst e; rw [hc] at hc'; simp at hc'
    | node hs' hc' hl' hr' =>
      rw [hs] at hs'; injection hs' with e; subst e; rw [hc] at hc'
      injection hc' with e; injection e with e₁ e₂; subst e₁; subst e₂
      rw [ihl hl', ihr hr']

/-- A tree of L leaves has 10 L − 1 postorder bits (R124). -/
theorem CodeTree.length_postorder (t : CodeTree) : t.postorder.length + 1 = 10 * t.leaves.length := by
  induction t with
  | leaf c => simp [postorder, leaves, msbFirst]
  | node l r ihl ihr => simp [postorder, leaves] at *; omega

theorem CodeTree.leaves_internals (t : CodeTree) : t.leaves.length = t.internals + 1 := by
  induction t with
  | leaf c => rfl
  | node l r ihl ihr => simp [leaves, internals] at *; omega

/-! ### The bit accumulator -/

/-- Accepting bits one list after another. -/
theorem State.putBitSeq_append (s : State) (a b : List Bool) :
    s.putBitSeq (a ++ b) = (s.putBitSeq a).putBitSeq b := by
  simp [putBitSeq, List.foldl_append]

@[simp] theorem State.putBitSeq_nil (s : State) : s.putBitSeq [] = s := rfl
@[simp] theorem State.putBitSeq_cons (s : State) (b : Bool) (rest : List Bool) :
    s.putBitSeq (b :: rest) = (s.putBit b).putBitSeq rest := rfl

@[simp] theorem scopeBytes_nil : scopeBytes [] = [] := rfl
@[simp] theorem scopeBytes_byte (out : List OutEvent) (b : Byte) :
    scopeBytes (out ++ [.byte b]) = scopeBytes out ++ [b] := by simp [scopeBytes]
@[simp] theorem scopeBytes_eos (out : List OutEvent) : scopeBytes (out ++ [.eos]) = [] := by simp [scopeBytes]

/-- Bytes appended to OUT are appended to the scope. -/
theorem scopeBytes_append_bytes (out : List OutEvent) (bytes : List Byte) :
    scopeBytes (out ++ bytes.map .byte) = scopeBytes out ++ bytes := by
  induction bytes generalizing out with
  | nil => simp
  | cons b rest ih =>
    rw [List.map_cons, show out ++ .byte b :: rest.map .byte = (out ++ [.byte b]) ++ rest.map .byte by simp, ih,
      scopeBytes_byte]
    simp

@[simp] theorem artifactOf_nil : artifactOf [] = none := rfl
/-- The EOS that ends OUT closes the scope before it. -/
@[simp] theorem artifactOf_eos (out : List OutEvent) : artifactOf (out ++ [.eos]) = some (scopeBytes out) := by
  simp [artifactOf]
@[simp] theorem artifactOf_byte (out : List OutEvent) (b : Byte) : artifactOf (out ++ [.byte b]) = none := by
  simp [artifactOf]

/-- One bit accepted moves NBITS on by one, modulo 8 (R145). -/
theorem State.putBit_NBITS_val (s : State) (t : Bool) : ((s.putBit t).NBITS).val = (s.NBITS.val + 1) % 8 := by
  unfold putBit
  have := s.NBITS.isLt
  by_cases h : s.NBITS.val < 7
  · simp [h]; omega
  · have : s.NBITS.val = 7 := by omega
    simp [this]

/-- NBITS after a sequence of bits. -/
theorem State.putBitSeq_NBITS_val (s : State) (bits : List Bool) :
    ((s.putBitSeq bits).NBITS).val = (s.NBITS.val + bits.length) % 8 := by
  induction bits generalizing s with
  | nil => have := s.NBITS.isLt; simp; omega
  | cons b rest ih => rw [putBitSeq_cons, ih, putBit_NBITS_val, List.length_cons]; omega

end Sys2Proof.Machine
end

