-- ==== Sys2Proof/Laws/PerInstr.lean ====
section
/-! SUPPORT. Statements about every command as syntax, one lemma per constructor: the opcode an encoded command carries
(spec/30_encoding.md R66), and that its word matches its row under the row's mask (R67, R69). -/

namespace Sys2Proof.Laws

/-- R66: the opcode of each command. -/
def opcodeOf : Instr → Byte
  | .reset => 0x01
  | .rdreg _ => 0x02
  | .nodeRd _ _ => 0x03
  | .freqWr _ _ => 0x10
  | .seed => 0x11
  | .srcerr => 0x12
  | .enql _ _ => 0x20
  | .enq _ => 0x21
  | .deq => 0x22
  | .merge => 0x30
  | .build => 0x31
  | .ser => 0x40
  | .mktab => 0x50
  | .codeRd _ _ => 0x51
  | .emit _ => 0x52
  | .openSink => 0x60
  | .wbits _ _ => 0x61
  | .closeSink => 0x62

/-- The encoded word carries the opcode of R66. -/
def EncodedOpcode.Statement (i : Instr) : Prop := opField (encode i) = opcodeOf i

theorem EncodedOpcode.reset : EncodedOpcode.Statement .reset := opField_commandWord _ _ _ _
theorem EncodedOpcode.rdreg (reg : BitVec 3) : EncodedOpcode.Statement (.rdreg reg) := opField_commandWord _ _ _ _
theorem EncodedOpcode.nodeRd (id : BitVec 9) (field : BitVec 1) : EncodedOpcode.Statement (.nodeRd id field) :=
  opField_commandWord _ _ _ _
theorem EncodedOpcode.freqWr (sym : Byte) (count : Freq) : EncodedOpcode.Statement (.freqWr sym count) :=
  opField_commandWord _ _ _ _
theorem EncodedOpcode.seed : EncodedOpcode.Statement .seed := opField_commandWord _ _ _ _
theorem EncodedOpcode.srcerr : EncodedOpcode.Statement .srcerr := opField_commandWord _ _ _ _
theorem EncodedOpcode.enql (sym : Byte) (freq : Freq) : EncodedOpcode.Statement (.enql sym freq) :=
  opField_commandWord _ _ _ _
theorem EncodedOpcode.enq (id : BitVec 9) : EncodedOpcode.Statement (.enq id) := opField_commandWord _ _ _ _
theorem EncodedOpcode.deq : EncodedOpcode.Statement .deq := opField_commandWord _ _ _ _
theorem EncodedOpcode.merge : EncodedOpcode.Statement .merge := opField_commandWord _ _ _ _
theorem EncodedOpcode.build : EncodedOpcode.Statement .build := opField_commandWord _ _ _ _
theorem EncodedOpcode.ser : EncodedOpcode.Statement .ser := opField_commandWord _ _ _ _
theorem EncodedOpcode.mktab : EncodedOpcode.Statement .mktab := opField_commandWord _ _ _ _
theorem EncodedOpcode.codeRd (sym : Byte) (chunk : BitVec 3) : EncodedOpcode.Statement (.codeRd sym chunk) :=
  opField_commandWord _ _ _ _
theorem EncodedOpcode.emit (sym : Byte) : EncodedOpcode.Statement (.emit sym) := opField_commandWord _ _ _ _
theorem EncodedOpcode.openSink : EncodedOpcode.Statement .openSink := opField_commandWord _ _ _ _
theorem EncodedOpcode.wbits (value : Byte) (width : BitVec 16) : EncodedOpcode.Statement (.wbits value width) :=
  opField_commandWord _ _ _ _
theorem EncodedOpcode.closeSink : EncodedOpcode.Statement .closeSink := opField_commandWord _ _ _ _

/-- The encoded word matches its row: the bits the row's mask holds fixed are the row's (R67, R69). -/
def EncodedMatch.Statement (i : Instr) : Prop :=
  ∃ r, rowOf (opcodeOf i) = some r ∧ encode i &&& r.mask = r.matchBits

/-- The match of a row, field by field. -/
theorem EncodedMatch.of_fields {i : Instr} {op a op' a' : Byte} {b b' : BitVec 16} {imm imm' : BitVec 32} {r : Row}
    (hr : rowOf (opcodeOf i) = some r) (he : encode i = commandWord op a b imm)
    (hm : r.mask = commandWord op' a' b' imm')
    (hb : r.matchBits = commandWord (op &&& op') (a &&& a') (b &&& b') (imm &&& imm')) :
    EncodedMatch.Statement i :=
  ⟨r, hr, by rw [he, hm, hb, commandWord_and]⟩

/-- Bits above an operand's own are 0. -/
theorem setWidth_and_high {n m : Nat} (v : BitVec n) (mask : BitVec m) (h : ∀ i, i < n → mask.getLsbD i = false) :
    v.setWidth m &&& mask = 0 := by
  ext i hi
  by_cases hn : i < n
  · simp [← BitVec.getLsbD_eq_getElem, h i hn]
  · simp [BitVec.getLsbD_of_ge v i (by omega)]

theorem EncodedMatch.reset : EncodedMatch.Statement .reset := ⟨_, rfl, by decide⟩
theorem EncodedMatch.rdreg (reg : BitVec 3) : EncodedMatch.Statement (.rdreg reg) := by
  revert reg; unfold EncodedMatch.Statement; decide
theorem EncodedMatch.nodeRd (id : BitVec 9) (field : BitVec 1) : EncodedMatch.Statement (.nodeRd id field) := by
  refine EncodedMatch.of_fields (op' := 0xFF) (a' := 0xFE) (b' := 0xFE00) (imm' := 0xFFFFFFFF) rfl rfl (by decide) ?_
  rw [setWidth_and_high field _ (by decide), setWidth_and_high id _ (by decide)]; decide
theorem EncodedMatch.freqWr (sym : Byte) (count : Freq) : EncodedMatch.Statement (.freqWr sym count) := by
  refine EncodedMatch.of_fields (op' := 0xFF) (a' := 0) (b' := 0xFFFF) (imm' := 0) rfl rfl (by decide) ?_
  simp; decide
theorem EncodedMatch.seed : EncodedMatch.Statement .seed := ⟨_, rfl, by decide⟩
theorem EncodedMatch.srcerr : EncodedMatch.Statement .srcerr := ⟨_, rfl, by decide⟩
theorem EncodedMatch.enql (sym : Byte) (freq : Freq) : EncodedMatch.Statement (.enql sym freq) := by
  refine EncodedMatch.of_fields (op' := 0xFF) (a' := 0) (b' := 0xFFFF) (imm' := 0) rfl rfl (by decide) ?_
  simp; decide
theorem EncodedMatch.enq (id : BitVec 9) : EncodedMatch.Statement (.enq id) := by
  refine EncodedMatch.of_fields (op' := 0xFF) (a' := 0xFF) (b' := 0xFE00) (imm' := 0xFFFFFFFF) rfl rfl (by decide) ?_
  rw [setWidth_and_high id _ (by decide)]; decide
theorem EncodedMatch.deq : EncodedMatch.Statement .deq := ⟨_, rfl, by decide⟩
theorem EncodedMatch.merge : EncodedMatch.Statement .merge := ⟨_, rfl, by decide⟩
theorem EncodedMatch.build : EncodedMatch.Statement .build := ⟨_, rfl, by decide⟩
theorem EncodedMatch.ser : EncodedMatch.Statement .ser := ⟨_, rfl, by decide⟩
theorem EncodedMatch.mktab : EncodedMatch.Statement .mktab := ⟨_, rfl, by decide⟩
theorem EncodedMatch.codeRd (sym : Byte) (chunk : BitVec 3) : EncodedMatch.Statement (.codeRd sym chunk) := by
  refine EncodedMatch.of_fields (op' := 0xFF) (a' := 0) (b' := 0xFFF8) (imm' := 0xFFFFFFFF) rfl rfl (by decide) ?_
  rw [setWidth_and_high chunk _ (by decide)]; simp; decide
theorem EncodedMatch.emit (sym : Byte) : EncodedMatch.Statement (.emit sym) := by
  refine EncodedMatch.of_fields (op' := 0xFF) (a' := 0) (b' := 0xFFFF) (imm' := 0xFFFFFFFF) rfl rfl (by decide) ?_
  simp; decide
theorem EncodedMatch.openSink : EncodedMatch.Statement .openSink := ⟨_, rfl, by decide⟩
theorem EncodedMatch.wbits (value : Byte) (width : BitVec 16) : EncodedMatch.Statement (.wbits value width) := by
  refine EncodedMatch.of_fields (op' := 0xFF) (a' := 0) (b' := 0) (imm' := 0xFFFFFFFF) rfl rfl (by decide) ?_
  simp; decide
theorem EncodedMatch.closeSink : EncodedMatch.Statement .closeSink := ⟨_, rfl, by decide⟩

end Sys2Proof.Laws
end

