-- ==== Sys2Proof/Laws/Responses.lean ====
section
/-! SUPPORT. Response words (spec/30_encoding.md R63): their fields, and how the words that statements write relate to
`responseWord`. -/

namespace Sys2Proof.Machine

/-- One bit of a response word. -/
theorem getLsbD_responseWord (code : Byte) (aux : BitVec 24) (val : BitVec 32) (i : Nat) :
    (responseWord code aux val).getLsbD i =
      if i < 32 then val.getLsbD i else if i < 56 then aux.getLsbD (i - 32) else code.getLsbD (i - 56) := by
  show BitVec.getLsbD (w := 8 + 24 + 32) (code ++ aux ++ val) i = _
  simp only [BitVec.getLsbD_append]
  split
  · rfl
  · by_cases h : i < 56
    · rw [if_pos (by omega), if_pos h]
    · rw [if_neg (by omega), if_neg h]; congr 1

@[simp] theorem respCode_responseWord (code : Byte) (aux : BitVec 24) (val : BitVec 32) :
    respCode (responseWord code aux val) = code := by
  apply BitVec.eq_of_getLsbD_eq
  intro i hi
  simp only [respCode, BitVec.getLsbD_extractLsb', getLsbD_responseWord]
  simp [hi, show ¬ 56 + i < 32 by omega]

@[simp] theorem respAux_responseWord (code : Byte) (aux : BitVec 24) (val : BitVec 32) :
    respAux (responseWord code aux val) = aux := by
  apply BitVec.eq_of_getLsbD_eq
  intro i hi
  simp only [respAux, BitVec.getLsbD_extractLsb', getLsbD_responseWord]
  simp [hi, show 32 + i < 56 by omega]

@[simp] theorem respVal_responseWord (code : Byte) (aux : BitVec 24) (val : BitVec 32) :
    respVal (responseWord code aux val) = val := by
  apply BitVec.eq_of_getLsbD_eq
  intro i hi
  simp only [respVal, BitVec.getLsbD_extractLsb', getLsbD_responseWord]
  simp [hi]

/-- The response of a completed command with aux 0 (R65): the value, zero-extended. -/
theorem responseWord_val (v : BitVec 32) : responseWord 0 0 v = v.setWidth 64 := by
  apply BitVec.eq_of_getLsbD_eq
  intro i hi
  rw [getLsbD_responseWord]
  by_cases h : i < 32
  · simp [h, hi]
  · have : v.getLsbD i = false := BitVec.getLsbD_of_ge v i (by omega)
    simp [h, this]

/-- A count below 2^32 as a response. -/
theorem responseWord_count (n : Nat) (h : n < 2 ^ 32) : responseWord 0 0 (BitVec.ofNat 32 n) = BitVec.ofNat 64 n := by
  rw [responseWord_val]
  apply BitVec.eq_of_toNat_eq
  simp only [BitVec.toNat_setWidth, BitVec.toNat_ofNat]
  omega

theorem responseWord_zero : responseWord 0 0 0 = 0 := by decide

theorem faultCode_ne_zero (f : FaultKind) : faultCode f ≠ 0 := by cases f <;> decide

theorem faultCode_ne_refused (f : FaultKind) : faultCode f ≠ refusedCode := by cases f <;> decide

/-- A raise is what `afterFault` says, with the kind's code. -/
theorem State.raise_eq (s : State) (f : FaultKind) : s.raise f = s.afterFault (faultCode f) := rfl

end Sys2Proof.Machine
end

