-- ==== Sys2Proof/Tests/Slice0.lean ====
section
/-! SUPPORT. The model's own tests. Expected words and results are from spec/95_test_vectors.md and the examples of the rules
named; the witnesses show that the hypotheses of the statements can be met. -/

namespace Sys2Proof.Tests

open Sys2Proof.Machine

-- one declaration after another: each evaluation in the kernel would otherwise take a thread of its own
set_option Elab.async false

/-! ### Small states -/

/-- The next state of an outcome. -/
def nextOf (o : Host.Outcome State Fault Refusal) : Option State :=
  match o with
  | .next t => some t
  | .fault _ => none
  | .refused _ => none

/-- The state after one command, and `s` itself where there is none. -/
def after (i : Instr) (s : State) : State := (nextOf (exec i s)).getD s

/-- An outcome with a next state is that next state. -/
theorem next_of_isSome {o : Host.Outcome State Fault Refusal} (h : (nextOf o).isSome = true) : ∃ t, o = .next t := by
  cases o with
  | next t => exact ⟨t, rfl⟩
  | fault why => simp [nextOf] at h
  | refused why => simp [nextOf] at h

theorem exec_after {i : Instr} {s : State} (h : (nextOf (exec i s)).isSome = true) : exec i s = .next (after i s) := by
  obtain ⟨t, ht⟩ := next_of_isSome h
  simp [after, ht, nextOf]

/-- Two leaves in the queue: V-PQ-3 before its DEQ. -/
def two : State :=
  (((State.reset.setNext 2).setSlot 0 ⟨0x78, 7, none, .queued⟩).setSlot 1 ⟨0x79, 3, none, .queued⟩).setQueue [1, 0]

/-- The tree of the same two leaves, its sink open. -/
def built : State :=
  { ((((State.reset.setNext 3).setSlot 0 ⟨0x78, 7, none, .child⟩).setSlot 1 ⟨0x79, 3, none, .child⟩).setSlot 2
      ⟨0, 10, some (1, 0), .root⟩) with ROOT := some 2, BUILT := true, OPEN := true }

/-- A sink scope that holds the three bits 101. -/
def threeBits : State := { State.reset with OPEN := true, ACC := 0xA0, NBITS := 3 }

/-- A FAULTED state. -/
def faulted : State := { State.reset with FAULT := 0x03 }

/-- Two entries whose frequencies sum to 2^32 (V-TB-3). -/
def overflowing : State :=
  (((State.reset.setNext 2).setSlot 0 ⟨1, 0xFFFFFFFF, none, .queued⟩).setSlot 1 ⟨2, 1, none, .queued⟩).setQueue [1, 0]

/-- A node that is HELD, and nothing in the queue. -/
def heldOne : State := (State.reset.setNext 1).setSlot 0 ⟨0x61, 5, none, .held⟩

/-- A tree of one leaf (V-TB-2, P2). -/
def single : State :=
  { (State.reset.setNext 1).setSlot 0 ⟨0x61, 4, none, .root⟩ with ROOT := some 0, BUILT := true }

/-- Two symbols with a count (V-FT-1 with two). -/
def counted : State := (State.reset.setFreq 0x62 1).setFreq 0x61 2

/-- A state in which a word is presented next. -/
def presenting (s : State) (w : Word) : State := { s with host := [.command w] }

/-! ### Well-formedness and decoding -/

theorem test_wellFormed_rdreg_5 : (Instr.rdreg 5).wellFormed = true := by decide
theorem test_illFormed_rdreg_6 : (Instr.rdreg 6).wellFormed = false := by decide
theorem test_illFormed_rdreg_7 : (Instr.rdreg 7).wellFormed = false := by decide

/-! The words stand in spec/95_test_vectors.md, or are written from R67's match with operand bits set. -/

theorem test_decode_reset : decode 0x0100000000000000 = .instr .reset := by decide
theorem test_decode_rdreg : decode 0x0205000000000000 = .instr (.rdreg 5) := by decide
theorem test_decode_nodeRd : decode 0x0301000100000000 = .instr (.nodeRd 1 1) := by decide
theorem test_decode_nodeRd_top : decode 0x030001FF00000000 = .instr (.nodeRd 511 0) := by decide
theorem test_decode_freqWr : decode 0x10FF0000FFFFFFFF = .instr (.freqWr 0xFF 0xFFFFFFFF) := by decide
theorem test_decode_seed : decode 0x1100000000000000 = .instr .seed := by decide
theorem test_decode_srcerr : decode 0x1200000000000000 = .instr .srcerr := by decide
theorem test_decode_enql : decode 0x2063000000000002 = .instr (.enql 0x63 2) := by decide
theorem test_decode_enq : decode 0x210001FF00000000 = .instr (.enq 511) := by decide
theorem test_decode_deq : decode 0x2200000000000000 = .instr .deq := by decide
theorem test_decode_merge : decode 0x3000000000000000 = .instr .merge := by decide
theorem test_decode_build : decode 0x3100000000000000 = .instr .build := by decide
theorem test_decode_ser : decode 0x4000000000000000 = .instr .ser := by decide
theorem test_decode_mktab : decode 0x5000000000000000 = .instr .mktab := by decide
theorem test_decode_codeRd : decode 0x5161000700000000 = .instr (.codeRd 0x61 7) := by decide
theorem test_decode_emit : decode 0x5266000000000000 = .instr (.emit 0x66) := by decide
theorem test_decode_openSink : decode 0x6000000000000000 = .instr .openSink := by decide
theorem test_decode_wbits : decode 0x61F5FFFF00000000 = .instr (.wbits 0xF5 0xFFFF) := by decide
theorem test_decode_closeSink : decode 0x6200000000000000 = .instr .closeSink := by decide

theorem test_illegal_opcode_0 : decode 0 = .illegal .unassignedOpcode := by decide
theorem test_illegal_seed_imm : decode 0x1100000000000001 = .illegal .unusedBitsNotZero := by decide
theorem test_illegal_freqWr_b : decode 0x10FFFFFFFFFFFFFF = .illegal .unusedBitsNotZero := by decide
theorem test_illegal_enq_b : decode 0x2100020000000000 = .illegal .unusedBitsNotZero := by decide
theorem test_illegal_rdreg_6 : decode 0x0206000000000000 = .illegal .reservedRegister := by decide
theorem test_illegal_rdreg_8 : decode 0x0208000000000000 = .illegal .unusedBitsNotZero := by decide
theorem test_illegal_codeRd_8 : decode 0x5161000800000000 = .illegal .unusedBitsNotZero := by decide

theorem test_table_word : decodeTableWord 64 0x2063000000000002 = some (.enql 0x63 2) := by decide

/-! ### Steps -/

/-- V-FT-4. -/
theorem test_illegal_word_faults : (nextOf (step (presenting State.reset 0x1100000000000001))).map
    (fun t => (t.FAULT, t.rsp, t.host)) = some (0x10, [0x1000000000000000], []) := by decide +kernel
/-- R74, R150: the word is fetched and run as the first instruction. -/
theorem test_step_runs_the_word : (nextOf (step (State.reset.withFetchWord 64 0x2061000000000001))).map
    (fun t => (t.NEXT, t.PQ, t.rsp, t.host)) = some (1, [0], [0], []) := by decide +kernel
/-- R200. -/
theorem test_hardware_reset : (nextOf (step { built with host := [.hardwareReset] })).map
    (fun t => (t.NEXT, t.ROOT, t.BUILT, t.OPEN)) = some (0, none, false, false) := by decide +kernel
theorem test_idle : step two = .next two := by rfl

/-! ### One command each -/

/-- R161: an open sink is flushed. -/
theorem test_reset_flushes : (nextOf (exec .reset threeBits)).map (fun t => (t.OUT, t.OPEN, t.ACC, t.rsp)) =
    some ([.byte 0xA0, .eos], false, 0, [0]) := by decide +kernel
/-- R184. -/
theorem test_reset_clears_fault : (nextOf (exec .reset faulted)).map (fun t => (t.FAULT, t.OUT, t.rsp)) =
    some (0, [], [0]) := by decide +kernel
/-- V-PQ-3: STATUS with PQLEN = 2 and FAULT = 0x16. -/
theorem test_rdreg_status : (nextOf (exec (.rdreg 0) { two with FAULT := 0x16 })).map State.rsp =
    some [0x0000000000020016] := by decide +kernel
/-- R17: PQHEAD. -/
theorem test_rdreg_pqhead : (nextOf (exec (.rdreg 5) two)).map State.rsp = some [1] := by decide +kernel
/-- V-PQ-3: a HELD leaf. -/
theorem test_nodeRd_held_leaf : (nextOf (exec (.nodeRd 1 1) (two.setTag 1 .held))).map State.rsp =
    some [0x0000000083FFFF79] := by decide +kernel
/-- R165: an id that is not allocated. -/
theorem test_nodeRd_bad : (nextOf (exec (.nodeRd 2 0) two)).map (fun t => (t.FAULT, t.rsp)) =
    some (0x16, [0x1600000000000000]) := by decide +kernel
/-- R81. -/
theorem test_freqWr : (nextOf (exec (.freqWr 0xFF 0xFFFFFFFF) State.reset)).map
    (fun t => (t.freq 0xFF, t.freq 0xFE, t.rsp)) = some (0xFFFFFFFF, 0, [0]) := by decide +kernel
/-- R181. -/
theorem test_freqWr_refused : (nextOf (exec (.freqWr 0xFF 1) faulted)).map (fun t => (t.freq 0xFF, t.rsp)) =
    some (0, [0xFF00000000000000]) := by decide +kernel
/-- V-FT-1 with two symbols: ids follow ascending byte value. -/
theorem test_seed : (nextOf (exec .seed counted)).map (fun t => ([t.slot 0, t.slot 1], t.NEXT, t.PQ, t.rsp)) =
    some ([some ⟨0x61, 2, none, .queued⟩, some ⟨0x62, 1, none, .queued⟩], 2, [1, 0], [2]) := by decide +kernel
/-- R84: the leaf that fits stays. -/
theorem test_seed_part_way : (nextOf (exec .seed { counted with NEXT := 510 })).map
    (fun t => (t.slot 510, t.NEXT, t.PQ, t.FAULT, t.rsp)) =
    some (some ⟨0x61, 2, none, .queued⟩, 511, [510], 0x02, [0x0200000000000000]) := by decide +kernel
/-- V-FT-3. -/
theorem test_srcerr : (nextOf (exec .srcerr counted)).map (fun t => (t.FAULT, t.rsp, t.freq 0x61)) =
    some (0x01, [0x0100000000000000], 2) := by decide +kernel
/-- V-PQ-1: the queue position follows the order. -/
theorem test_enql : (nextOf (exec (.enql 0x7A 5) two)).map (fun t => (t.PQ, t.NEXT, t.slot 2, t.rsp)) =
    some ([1, 2, 0], 3, some ⟨0x7A, 5, none, .queued⟩, [2]) := by decide +kernel
/-- V-PQ-6: the queue is full. -/
theorem test_enql_full : (nextOf (exec (.enql 0 1) { two with PQ := List.replicate 256 0 })).map
    (fun t => (t.NEXT, t.FAULT, t.rsp)) = some (2, 0x02, [0x0200000000000000]) := by decide +kernel
/-- V-PQ-3. -/
theorem test_enq : (nextOf (exec (.enq 0) heldOne)).map (fun t => (t.PQ, t.slot 0, t.rsp)) =
    some ([0], some ⟨0x61, 5, none, .queued⟩, [0]) := by decide +kernel
/-- V-PQ-3: ENQ of a QUEUED node. -/
theorem test_enq_queued : (nextOf (exec (.enq 1) two)).map (fun t => (t.PQ, t.FAULT, t.rsp)) =
    some ([1, 0], 0x16, [0x1600000000000000]) := by decide +kernel
/-- V-PQ-3. -/
theorem test_deq : (nextOf (exec .deq two)).map (fun t => (t.PQ, t.slot 1, t.rsp)) =
    some ([0], some ⟨0x79, 3, none, .held⟩, [1]) := by decide +kernel
/-- V-PQ-4. -/
theorem test_deq_empty : (nextOf (exec .deq State.reset)).map (fun t => (t.FAULT, t.rsp)) =
    some (0x03, [0x0300000000000000]) := by decide +kernel
/-- R106: left is the first removed. -/
theorem test_merge : (nextOf (exec .merge two)).map (fun t => (t.PQ, t.slot 2, t.slot 1, t.rsp)) =
    some ([2], some ⟨0, 10, some (1, 0), .queued⟩, some ⟨0x79, 3, none, .child⟩, [2]) := by decide +kernel
/-- V-TB-3. -/
theorem test_merge_overflow : (nextOf (exec .merge overflowing)).map (fun t => (t.PQ, t.NEXT, t.FAULT, t.rsp)) =
    some ([1, 0], 2, 0x15, [0x1500000000000000]) := by decide +kernel
/-- R109. -/
theorem test_build : (nextOf (exec .build two)).map (fun t => (t.PQ, t.ROOT, t.slot 2, t.rsp)) =
    some ([], some 2, some ⟨0, 10, some (1, 0), .root⟩, [2]) := by decide +kernel
/-- V-TB-2. -/
theorem test_build_again : (nextOf (exec .build single)).map (fun t => (t.ROOT, t.FAULT, t.rsp)) =
    some (some 0, 0x11, [0x1100000000000000]) := by decide +kernel
/-- R122: 1 01111001 1 01111000 0 for the leaves 'y' and 'x'; 19 bits. -/
theorem test_ser : (nextOf (exec .ser built)).map (fun t => (t.OUT, t.ACC, t.NBITS, t.rsp)) =
    some ([.byte 0xBC, .byte 0xDE], 0x00, 3, [19]) := by decide +kernel
/-- R123. -/
theorem test_ser_closed : (nextOf (exec .ser State.reset)).map (fun t => (t.FAULT, t.rsp)) =
    some (0x12, [0x1200000000000000]) := by decide +kernel
/-- R132: left 0, right 1. -/
theorem test_mktab : (nextOf (exec .mktab built)).map
    (fun t => (t.code 0x79, t.code 0x78, t.code 0x61, t.rsp)) = some (⟨0, 1⟩, ⟨1, 1⟩, ⟨0, 0⟩, [2]) := by decide +kernel
/-- S2. -/
theorem test_mktab_single : (nextOf (exec .mktab single)).map (fun t => (t.code 0x61, t.rsp)) =
    some (⟨0, 1⟩, [1]) := by decide +kernel

/-- `built` with the six-symbol code of 'b' in S1, 1101, as an entry. -/
def coded : State := { built with CODE := setCode built.CODE 0x62 0xD 4 }

/-- R136. -/
theorem test_codeRd : (nextOf (exec (.codeRd 0x62 0) coded)).map State.rsp = some [0x000000040000000D] := by
  decide +kernel
/-- R138, R131: first branch first. -/
theorem test_emit : (nextOf (exec (.emit 0x62) coded)).map (fun t => (t.ACC, t.NBITS, t.OUT, t.rsp)) =
    some (0xD0, 4, [], [4]) := by decide +kernel
/-- R138. -/
theorem test_emit_no_code : (nextOf (exec (.emit 0x61) coded)).map (fun t => (t.NBITS, t.FAULT, t.rsp)) =
    some (0, 0x14, [0x1400000000000000]) := by decide +kernel
/-- R148. -/
theorem test_open : (nextOf (exec .openSink State.reset)).map (fun t => (t.OPEN, t.OUT, t.rsp)) =
    some (true, [], [0]) := by decide +kernel
/-- R148: a second OPEN. -/
theorem test_open_again : (nextOf (exec .openSink threeBits)).map (fun t => (t.NBITS, t.FAULT, t.rsp)) =
    some (3, 0x11, [0x1100000000000000]) := by decide +kernel
/-- R146: 101 and 11111 complete a byte. -/
theorem test_wbits : (nextOf (exec (.wbits 0xFF 5) threeBits)).map (fun t => (t.ACC, t.NBITS, t.OUT, t.rsp)) =
    some (0, 0, [.byte 0xBF], [0]) := by decide +kernel
/-- R150: width 9. -/
theorem test_wbits_9 : (nextOf (exec (.wbits 0 9) threeBits)).map (fun t => (t.NBITS, t.FAULT, t.rsp)) =
    some (3, 0x13, [0x1300000000000000]) := by decide +kernel
/-- R152: three held bits, five pad bits. -/
theorem test_close : (nextOf (exec .closeSink threeBits)).map (fun t => (t.OUT, t.OPEN, t.ACC, t.NBITS)) =
    some ([.byte 0xA0, .eos], false, 0, 0) := by decide +kernel
/-- R216: the artifact is the last scope, not the one before. -/
theorem test_close_artifact : (nextOf (exec .closeSink { threeBits with OUT := [.byte 1, .eos, .byte 2] })).map
    State.artifact = some (some [0x02, 0xA0]) := by decide +kernel

/-! ### Two states meet the invariants -/

theorem reset_slot (id : NodeId) : State.reset.slot id = none := by
  simp [State.slot, State.reset, Vector.get_eq_getElem]

theorem two_slot (id : NodeId) : two.slot id =
    if id = 1 then some ⟨0x79, 3, none, .queued⟩ else if id = 0 then some ⟨0x78, 7, none, .queued⟩ else none := by
  simp [two, reset_slot]

theorem built_slot (id : NodeId) : built.slot id =
    if id = 2 then some ⟨0, 10, some (1, 0), .root⟩ else if id = 1 then some ⟨0x79, 3, none, .child⟩
    else if id = 0 then some ⟨0x78, 7, none, .child⟩ else none := by
  have h : built.slot id = (((State.reset.setNext 3).setSlot 0 ⟨0x78, 7, none, .child⟩).setSlot 1
    ⟨0x79, 3, none, .child⟩ |>.setSlot 2 ⟨0, 10, some (1, 0), .root⟩).slot id := rfl
  rw [h]; simp [reset_slot]

theorem code_empty {s : State} (h : s.CODE = State.reset.CODE) (sym : Byte) : s.code sym = ⟨0, 0⟩ := by
  unfold State.code; rw [h]
  simp [State.reset, CodeEntry.empty, Vector.get_eq_getElem]

theorem two_leafless (c p : NodeId) : ¬ two.ChildOf c p := by
  rintro ⟨n, l, r, hs, hc, -⟩
  rw [two_slot] at hs
  split at hs
  · cases hs; simp at hc
  · split at hs
    · cases hs; simp at hc
    · cases hs

theorem two_inv : two.Inv where
  slots id := by
    rw [two_slot]
    have hn : two.NEXT.val = 2 := rfl
    rw [hn]
    split
    · subst_vars; simp
    · split
      · subst_vars; simp
      · rename_i h1 h0
        have h1' : id.val ≠ 1 := fun h => h1 (Fin.ext h)
        have h0' : id.val ≠ 0 := fun h => h0 (Fin.ext h)
        simp; omega
  queueDistinct := by decide
  queuedIff id := by
    rw [two_slot]
    have hq : two.PQ = [1, 0] := rfl
    rw [hq]
    split
    · subst_vars; simp
    · split
      · subst_vars; simp
      · simp [*]
  queueSorted := by
    have hq : two.PQ = [1, 0] := rfl
    rw [hq]
    simp only [List.pairwise_cons]
    simp [State.BeforeBy, State.beforeBy, two_slot, nodeBefore, orderKey, OrderKey.smaller]
  childBelow c p h := absurd h (two_leafless c p)
  childrenDiffer p n l r hs hc := absurd ⟨n, l, r, hs, hc, .inl rfl⟩ (two_leafless l p)
  childOnce c p q h := absurd h (two_leafless c p)
  childIff c n hs := by
    have : ¬ ∃ p, two.ChildOf c p := fun ⟨p, h⟩ => two_leafless c p h
    rw [two_slot] at hs
    split at hs
    · cases hs; simp [this]
    · split at hs
      · cases hs; simp [this]
      · cases hs
  rootIff id n hs := by
    have : two.ROOT = none := rfl
    rw [two_slot] at hs
    split at hs
    · cases hs; simp [this]
    · split at hs
      · cases hs; simp [this]
      · cases hs
  rootAllocated id h := by cases h
  queueBound := by decide
  sums p n l r nl nr hs hc := absurd ⟨n, l, r, hs, hc, .inl rfl⟩ (two_leafless l p)
  closedWriter _ := ⟨rfl, rfl⟩
  accClean i _ := by show (0 : Byte).getLsbD i = false; simp
  codeFits sym := by rw [code_empty (s := two) rfl]; decide

/-- The slots of a state that holds the two leaves under one internal node tagged `tag`. -/
def Joined (s : State) (tag : Tag) : Prop := ∀ id : NodeId, s.slot id =
  if id = 2 then some ⟨0, 10, some (1, 0), tag⟩ else if id = 1 then some ⟨0x79, 3, none, .child⟩
  else if id = 0 then some ⟨0x78, 7, none, .child⟩ else none

theorem joined_cases {s : State} {tag : Tag} (h : Joined s tag) {id : NodeId} {n : Node} (hs : s.slot id = some n) :
    (id = 2 ∧ n = ⟨0, 10, some (1, 0), tag⟩) ∨ (id = 1 ∧ n = ⟨0x79, 3, none, .child⟩) ∨
      (id = 0 ∧ n = ⟨0x78, 7, none, .child⟩) := by
  rw [h] at hs
  split at hs
  · exact .inl ⟨by assumption, (Option.some.inj hs).symm⟩
  · split at hs
    · exact .inr (.inl ⟨by assumption, (Option.some.inj hs).symm⟩)
    · split at hs
      · exact .inr (.inr ⟨by assumption, (Option.some.inj hs).symm⟩)
      · cases hs

theorem joined_parent {s : State} {tag : Tag} (h : Joined s tag) {p : NodeId} {n : Node} {l r : NodeId}
    (hs : s.slot p = some n) (hc : n.children = some (l, r)) : p = 2 ∧ n = ⟨0, 10, some (1, 0), tag⟩ ∧ l = 1 ∧ r = 0 := by
  obtain ⟨rfl, rfl⟩ | ⟨rfl, rfl⟩ | ⟨rfl, rfl⟩ := joined_cases h hs
  · cases hc; exact ⟨rfl, rfl, rfl, rfl⟩
  · cases hc
  · cases hc

theorem joined_child {s : State} {tag : Tag} (h : Joined s tag) {c p : NodeId} (hc : s.ChildOf c p) :
    p = 2 ∧ (c = 1 ∨ c = 0) := by
  obtain ⟨n, l, r, hs, hn, hl⟩ := hc
  obtain ⟨hp, -, rfl, rfl⟩ := joined_parent h hs hn
  exact ⟨hp, hl⟩

/-- Such a state meets the invariants where the internal node is the root, or the one entry of the queue. -/
theorem joined_inv {s : State} {tag : Tag} (h : Joined s tag) (hn : s.NEXT.val = 3)
    (hq : (tag = .root ∧ s.PQ = [] ∧ s.ROOT = some 2) ∨ (tag = .queued ∧ s.PQ = [2] ∧ s.ROOT = none))
    (hb : s.NBITS = 0) (ha : s.ACC = 0) (hcode : s.CODE = State.reset.CODE) : s.Inv where
  slots id := by
    rw [h, hn]
    by_cases h2 : id = 2
    · subst h2; simp
    by_cases h1 : id = 1
    · subst h1; simp
    by_cases h0 : id = 0
    · subst h0; simp
    have h2' : id.val ≠ 2 := fun e => h2 (Fin.ext e)
    have h1' : id.val ≠ 1 := fun e => h1 (Fin.ext e)
    have h0' : id.val ≠ 0 := fun e => h0 (Fin.ext e)
    simp [h2, h1, h0]; omega
  queueDistinct := by obtain ⟨-, h, -⟩ | ⟨-, h, -⟩ := hq <;> rw [h] <;> decide
  queuedIff id := by
    have h2 : s.slot 2 = some ⟨0, 10, some (1, 0), tag⟩ := (h 2).trans (if_pos rfl)
    obtain ⟨rfl, hp, -⟩ | ⟨rfl, hp, -⟩ := hq
    · rw [hp]
      simp only [List.not_mem_nil, false_iff]
      rintro ⟨n, hs, hst⟩
      obtain ⟨-, rfl⟩ | ⟨-, rfl⟩ | ⟨-, rfl⟩ := joined_cases h hs <;> cases hst
    · rw [hp, List.mem_singleton]
      constructor
      · rintro rfl; exact ⟨_, h2, rfl⟩
      · rintro ⟨n, hs, hst⟩
        obtain ⟨hi, -⟩ | ⟨-, rfl⟩ | ⟨-, rfl⟩ := joined_cases h hs
        · exact hi
        · cases hst
        · cases hst
  queueSorted := by
    obtain ⟨-, hp, -⟩ | ⟨-, hp, -⟩ := hq <;> rw [hp]
    · exact .nil
    · exact List.pairwise_singleton _ _
  childBelow c p hc := by obtain ⟨rfl, rfl | rfl⟩ := joined_child h hc <;> decide
  childrenDiffer p n l r hs hc := by obtain ⟨-, -, rfl, rfl⟩ := joined_parent h hs hc; decide
  childOnce c p q hp hq := (joined_child h hp).1.trans (joined_child h hq).1.symm
  childIff c n hs := by
    have hyes : c = 1 ∨ c = 0 → ∃ p, s.ChildOf c p := fun hc =>
      ⟨2, _, 1, 0, (h 2).trans (if_pos rfl), rfl, hc⟩
    obtain ⟨rfl, rfl⟩ | ⟨rfl, rfl⟩ | ⟨rfl, rfl⟩ := joined_cases h hs
    · have htag : tag ≠ .child := by obtain ⟨rfl, -⟩ | ⟨rfl, -⟩ := hq <;> decide
      simp only [htag, false_iff]
      rintro ⟨p, hc⟩
      rcases (joined_child h hc).2 with e | e <;> exact absurd e (by decide)
    · simp [hyes (.inl rfl)]
    · simp [hyes (.inr rfl)]
  rootIff id n hs := by
    obtain ⟨rfl, -, hr⟩ | ⟨rfl, -, hr⟩ := hq <;> rw [hr] <;>
      obtain ⟨rfl, rfl⟩ | ⟨rfl, rfl⟩ | ⟨rfl, rfl⟩ := joined_cases h hs <;> decide
  rootAllocated id hr := by
    obtain ⟨-, -, hr'⟩ | ⟨-, -, hr'⟩ := hq <;> rw [hr'] at hr <;> cases hr
    rw [h]; rfl
  queueBound := by obtain ⟨-, h, -⟩ | ⟨-, h, -⟩ := hq <;> rw [h] <;> decide
  sums p n l r nl nr hs hc hl hr := by
    obtain ⟨-, rfl, rfl, rfl⟩ := joined_parent h hs hc
    rw [h] at hl hr
    cases hl; cases hr; exact ⟨rfl, rfl⟩
  closedWriter _ := ⟨hb, ha⟩
  accClean i _ := by rw [ha]; simp
  codeFits sym := by rw [code_empty hcode]; decide

theorem built_inv : built.Inv := joined_inv (tag := .root) built_slot rfl (.inl ⟨rfl, rfl, rfl⟩) rfl rfl rfl

/-- The same internal node as the one entry of the queue: V-PQ-3's two leaves after MERGE, its tag QUEUED. -/
def merged : State :=
  ((((State.reset.setNext 3).setSlot 0 ⟨0x78, 7, none, .child⟩).setSlot 1 ⟨0x79, 3, none, .child⟩).setSlot 2
    ⟨0, 10, some (1, 0), .queued⟩).setQueue [2]

theorem merged_slot : Joined merged .queued := by intro id; simp [merged, reset_slot]

theorem merged_inv : merged.Inv := joined_inv merged_slot rfl (.inr ⟨rfl, rfl, rfl⟩) rfl rfl rfl

/-! ### Witnesses: each names values that meet all hypotheses of a statement, or of the clause its name ends in -/

theorem witness_DecodeEncodeRoundTrip : (Instr.rdreg 5).wellFormed = true := by decide
theorem witness_EncodeDecodeRoundTrip : decode 0x0205000000000000 = .instr (.rdreg 5) := by decide
theorem witness_LegalWordsAreTheTableRows :
    ("RDREG", 0x0200000000000000, 0xFFF8FFFFFFFFFFFF) ∈ tableR67 ∧
      decode 0x0205000000000000 = .instr (.rdreg 5) ∧ mnemonicOf (.rdreg 5) = "RDREG" := by
  refine ⟨?_, by decide, rfl⟩
  simp [tableR67]
theorem witness_IllegalWord_presented :
    (presenting State.reset 0x1100000000000001).host = .command 0x1100000000000001 :: [] ∧
      decode 0x1100000000000001 = .illegal .unusedBitsNotZero := ⟨rfl, by decide⟩
theorem witness_IllegalWord_opcode : ∀ row ∈ tableR67, opField 0 ≠ row.2.1.extractLsb' 56 8 := by decide
theorem witness_IllegalWord_bits : ∃ row ∈ tableR67, opField 0x1100000000000001 = row.2.1.extractLsb' 56 8 ∧
    (0x1100000000000001 : Word) &&& row.2.2 ≠ row.2.1 := by decide
theorem witness_IllegalWord_rdreg :
    opField 0x0206000000000000 = 0x02 ∧ 6 ≤ (aField 0x0206000000000000).toNat := by decide
theorem witness_IllegalWord_nodeRd :
    opField 0x0302000000000000 = 0x03 ∧ 1 < (aField 0x0302000000000000).toNat := by decide
theorem witness_IllegalWord_nodeRd_id :
    opField 0x0300020000000000 = 0x03 ∧ 511 < (bField 0x0300020000000000).toNat := by decide
theorem witness_IllegalWord_enq :
    opField 0x2100020000000000 = 0x21 ∧ 511 < (bField 0x2100020000000000).toNat := by decide
theorem witness_IllegalWord_codeRd :
    opField 0x5100000800000000 = 0x51 ∧ 7 < (bField 0x5100000800000000).toNat := by decide

theorem witness_StepRunsThePresentedCommand :
    (presenting two 0x2200000000000000).host = .command 0x2200000000000000 :: [] ∧
      decode 0x2200000000000000 = .instr .deq := ⟨rfl, by decide⟩
theorem witness_StepRunsThePresentedCommand_idle : two.host = [] := rfl
theorem witness_HardwareResetLeavesResetValues :
    ({ built with host := [.hardwareReset] } : State).host = .hardwareReset :: [] := rfl
theorem witness_ResetCommand_inTheResetState :
    ({ State.reset with OUT := [.eos], rsp := [0] } : State) =
      { State.reset with OUT := [.eos], host := State.reset.host, rsp := [0] } := rfl
theorem witness_ResetCommand_clearsFault : faulted.FAULT ≠ 0 ∧ ∃ t, exec .reset faulted = .next t ∧ t.FAULT = 0 :=
  ⟨by decide, _, rfl, rfl⟩
theorem witness_ReadClassAndRefusal_read :
    (Instr.nodeRd 0 0).wellFormed = true ∧ (Instr.nodeRd 0 0).readClass = true ∧
      ∃ t, exec (.nodeRd 0 0) State.reset = .next t := ⟨rfl, rfl, _, rfl⟩
theorem witness_ReadClassAndRefusal_refused :
    Instr.seed.readClass = false ∧ Instr.seed ≠ .reset ∧ faulted.FAULT ≠ 0 := by decide
theorem witness_OneResponseAndFirstFaultKept : ∃ t, exec .deq State.reset = .next t := ⟨_, rfl⟩
theorem witness_OneResponse_reset : ∃ t, exec .reset faulted = .next t := ⟨_, rfl⟩
theorem witness_OneResponse_faulted : faulted.FAULT ≠ 0 ∧ ∃ t, exec (.nodeRd 0 0) faulted = .next t :=
  ⟨by decide, _, rfl⟩
theorem witness_FaultsArePrecise : ∃ t q, exec .deq State.reset = .next t ∧ t.rsp = State.reset.rsp ++ [q] ∧
    respCode q ≠ 0 := ⟨_, 0x0300000000000000, rfl, by decide, by decide⟩
theorem witness_FaultsArePrecise_seed : ∃ t q, exec .seed { counted with NEXT := 510 } = .next t ∧
    t.rsp = ({ counted with NEXT := 510 } : State).rsp ++ [q] ∧ respCode q ≠ 0 :=
  ⟨_, 0x0200000000000000, exec_after (by decide +kernel), by decide +kernel, by decide⟩
theorem witness_StepKeepsFaultKnown : faulted.FaultKnown ∧ ∃ t, step faulted = .next t :=
  ⟨.inr ⟨.emptyQueue, rfl⟩, _, rfl⟩
theorem witness_CommandsInTheResetState : (Instr.nodeRd 0 0).wellFormed = true ∧
    State.reset = { State.reset with OUT := State.reset.OUT, host := State.reset.host, rsp := State.reset.rsp } :=
  ⟨rfl, rfl⟩

theorem witness_OutOnlyGrows : ∃ t, step (presenting threeBits 0x6200000000000000) = .next t :=
  next_of_isSome (by decide +kernel)
theorem witness_TablesWritten_freq : (∃ t, exec .mktab built = .next t) ∧ Instr.mktab ≠ .reset ∧
    ∀ sym count, Instr.mktab ≠ .freqWr sym count := ⟨⟨_, exec_after (by decide +kernel)⟩, by decide, by simp⟩
theorem witness_TablesWritten_code : (∃ t, exec (.freqWr 0 1) two = .next t) ∧ Instr.freqWr 0 1 ≠ .reset ∧
    Instr.freqWr 0 1 ≠ .mktab := ⟨⟨_, rfl⟩, by decide, by decide⟩
theorem witness_NodesAreWrittenOnce : (∃ t, exec .deq two = .next t) ∧ Instr.deq ≠ .reset ∧
    (1 : NodeId).val < two.NEXT.val ∧ two.slot 1 = some ⟨0x79, 3, none, .queued⟩ :=
  ⟨⟨_, rfl⟩, by decide, by decide, by rw [two_slot]; rfl⟩
theorem witness_ArenaAndQueueWriters : ∃ t, exec (.freqWr 0 1) two = .next t := ⟨_, rfl⟩
theorem witness_RootIsSetOncePerRun : (∃ t, exec .deq built = .next t) ∧ Instr.deq ≠ .reset ∧ Instr.deq ≠ .build ∧
    built.ROOT = some 2 ∧ built.BUILT = true := ⟨⟨_, rfl⟩, by decide, by decide, rfl, rfl⟩
theorem witness_RootIsSetOncePerRun_build : exec .build two = .next (after .build two) ∧ two.ROOT = none ∧
    (after .build two).ROOT = some 2 := ⟨exec_after (by decide +kernel), rfl, by decide +kernel⟩
theorem witness_SinkIsOpenedOnlyByOpen : State.reset.OPEN = false ∧
    ∃ t, exec .openSink State.reset = .next t ∧ t.OPEN = true := ⟨rfl, _, rfl, rfl⟩
theorem witness_SinkIsOpenedOnlyByOpen_clears : threeBits.OPEN = true ∧
    ∃ t, exec .closeSink threeBits = .next t ∧ t.OPEN = false :=
  ⟨rfl, after .closeSink threeBits, exec_after (by decide +kernel), by decide +kernel⟩
theorem witness_SinkIsOpenedOnlyByOpen_closed : (∃ value width, Instr.wbits 1 9 = .wbits value width) ∧
    State.reset.OPEN = false ∧ State.reset.FAULT = 0 := ⟨⟨1, 9, rfl⟩, rfl, rfl⟩
theorem witness_WriterRegistersWriters : ∃ t, exec .deq threeBits = .next t := ⟨_, rfl⟩

theorem witness_FreqWrWritesOneEntry : State.reset.FAULT = 0 ∧ (0x60 : Byte) ≠ 0x61 := by decide
theorem counted_nonzero : counted.nonzeroSyms = [0x61, 0x62] := by decide +kernel
theorem counted_nonzero_at (n : Fin 512) : ({ counted with NEXT := n } : State).nonzeroSyms = [0x61, 0x62] :=
  counted_nonzero
theorem witness_SeedAddsTheLeaves : ∃ s : State, s.FAULT = 0 ∧ s.QueueReadable ∧
    s.NEXT.val + s.nonzeroSyms.length = 511 ∧ s.PQ.length + s.nonzeroSyms.length ≤ 256 := by
  refine ⟨{ counted with NEXT := 509 }, rfl, ?_, ?_, ?_⟩
  · intro e he; cases he
  · rw [counted_nonzero_at]; rfl
  · rw [counted_nonzero_at]; decide
theorem witness_SeedThatFaultsPartWay : ∃ (s : State) (fit : Nat), s.FAULT = 0 ∧ s.QueueReadable ∧
    fit = min (511 - s.NEXT.val) (256 - s.PQ.length) ∧ fit = 1 ∧ fit < s.nonzeroSyms.length := by
  refine ⟨{ counted with NEXT := 510 }, 1, rfl, ?_, rfl, rfl, ?_⟩
  · intro e he; cases he
  · rw [counted_nonzero_at]; decide
theorem witness_SrcerrRaisesSourceReadError : State.reset.FAULT = 0 ∧ faulted.FAULT ≠ 0 := by decide

theorem witness_OrderIsStrictAndTotal :
    nodeBefore 2 ⟨0x61, 1, none, .held⟩ 1 ⟨0x62, 1, none, .held⟩ = true ∧
      nodeBefore 1 ⟨0x62, 1, none, .held⟩ 0 ⟨0, 1, some (4, 5), .held⟩ = true ∧ (2 : NodeId) ≠ 1 := by decide

/-- The queue holds 255 or more entries, all of them node 0. -/
def crowded (s : State) (k : Nat) : State := { s with PQ := List.replicate k 0 }

theorem crowded_length (s : State) (k : Nat) : (crowded s k).PQ.length = k := List.length_replicate ..

theorem crowded_readable {s : State} (k : Nat) (h : (s.slot 0).isSome = true) : (crowded s k).QueueReadable := by
  intro e he
  rw [List.eq_of_mem_replicate he]
  exact h

theorem witness_Enql_arenaFull : ({ two with NEXT := 511 } : State).FAULT = 0 ∧
    ({ two with NEXT := 511 } : State).NEXT.val = 511 := ⟨rfl, rfl⟩
theorem witness_Enql_queueFull : (crowded two 256).FAULT = 0 ∧ 256 ≤ (crowded two 256).PQ.length := by
  exact ⟨rfl, by rw [crowded_length]⟩
theorem witness_Enql_done : ∃ (s : State) (id : NodeId), s.FAULT = 0 ∧ id.val = s.NEXT.val ∧ id.val = 510 ∧
    s.PQ.length = 255 ∧ s.QueueReadable :=
  ⟨{ crowded two 255 with NEXT := 510 }, 510, rfl, rfl, rfl, crowded_length two 255,
    crowded_readable 255 (s := two) (by rw [two_slot]; rfl)⟩
theorem witness_Enq_notAllocated : two.FAULT = 0 ∧ two.NEXT.val ≤ (2 : BitVec 9).toNat := by decide

theorem heldOne_slot : heldOne.slot 0 = some ⟨0x61, 5, none, .held⟩ := by decide +kernel

theorem witness_Enq_notHeld : ∃ n, (1 : NodeId).val = (1 : BitVec 9).toNat ∧ (1 : NodeId).val < two.NEXT.val ∧
    two.slot 1 = some n ∧ n.st ≠ .held :=
  ⟨⟨0x79, 3, none, .queued⟩, by decide, by decide, by rw [two_slot]; rfl, by decide⟩
theorem witness_Enq_queueFull : ∃ n, (crowded heldOne 256).FAULT = 0 ∧ (0 : NodeId).val = (0 : BitVec 9).toNat ∧
    (0 : NodeId).val < (crowded heldOne 256).NEXT.val ∧ (crowded heldOne 256).slot 0 = some n ∧ n.st = .held ∧
    256 ≤ (crowded heldOne 256).PQ.length :=
  ⟨_, rfl, by decide, by decide, heldOne_slot, rfl, by rw [crowded_length]⟩
theorem witness_Enq_done : ∃ n, (crowded heldOne 255).FAULT = 0 ∧ (0 : NodeId).val = (0 : BitVec 9).toNat ∧
    (0 : NodeId).val < (crowded heldOne 255).NEXT.val ∧ (crowded heldOne 255).slot 0 = some n ∧ n.st = .held ∧
    (crowded heldOne 255).PQ.length < 256 ∧ (crowded heldOne 255).QueueReadable :=
  ⟨_, rfl, by decide, by decide, heldOne_slot, rfl, by rw [crowded_length]; decide,
    crowded_readable 255 (by rw [heldOne_slot]; rfl)⟩
theorem witness_Deq_empty : State.reset.FAULT = 0 ∧ State.reset.PQ = [] := ⟨rfl, rfl⟩
theorem witness_Deq_done : two.FAULT = 0 ∧ two.PQ = 1 :: [0] ∧ two.Inv := ⟨rfl, rfl, two_inv⟩
theorem witness_DeqThenEnqRestoresTheState : two.Inv ∧ two.FAULT = 0 ∧ two.PQ = 1 :: [0] := ⟨two_inv, rfl, rfl⟩

theorem witness_QueueIsAFunctionOfTheNodes : ∃ t : State, two.Inv ∧ t.Inv ∧ two.N = t.N ∧ two ≠ t := by
  refine ⟨{ two with BUILT := true }, two_inv, ?_, rfl, fun h => ?_⟩
  · exact ⟨two_inv.1, two_inv.2, two_inv.3, two_inv.4, two_inv.5, two_inv.6, two_inv.7, two_inv.8, two_inv.9,
      two_inv.10, two_inv.11, two_inv.12, two_inv.13, two_inv.14, two_inv.15⟩
  · cases congrArg State.BUILT h
theorem witness_NodesBecomeHeldOnlyByDeq : ∃ t n, exec .openSink heldOne = .next t ∧ Instr.openSink ≠ .deq ∧
    t.slot 0 = some n ∧ n.st = .held := ⟨_, _, rfl, by decide, heldOne_slot, rfl⟩

theorem witness_Merge_short : single.FAULT = 0 ∧ single.PQ.length < 2 := by decide
theorem witness_Merge_arenaFull : ({ two with NEXT := 511 } : State).FAULT = 0 ∧
    2 ≤ ({ two with NEXT := 511 } : State).PQ.length ∧ ({ two with NEXT := 511 } : State).NEXT.val = 511 := by decide
theorem witness_Merge_overflow : ∃ nx ny, overflowing.FAULT = 0 ∧ overflowing.PQ = 1 :: 0 :: [] ∧
    overflowing.slot 1 = some nx ∧ overflowing.slot 0 = some ny ∧ (2 : NodeId).val = overflowing.NEXT.val ∧
    nx.frequency.toNat + ny.frequency.toNat = 2 ^ 32 :=
  ⟨⟨2, 1, none, .queued⟩, ⟨1, 0xFFFFFFFF, none, .queued⟩, rfl, rfl, by decide +kernel, by decide +kernel, rfl, rfl⟩

theorem two_readable : two.QueueReadable := by
  intro e he
  have hq : two.PQ = [1, 0] := rfl
  rw [hq] at he
  rw [two_slot]
  rcases List.mem_cons.1 he with rfl | he
  · rfl
  · rw [List.mem_singleton.1 he]; rfl

theorem witness_Merge_done : ∃ nx ny, two.FAULT = 0 ∧ two.PQ = 1 :: 0 :: [] ∧ two.slot 1 = some nx ∧
    two.slot 0 = some ny ∧ (2 : NodeId).val = two.NEXT.val ∧ nx.frequency.toNat + ny.frequency.toNat < 2 ^ 32 ∧
    two.QueueReadable :=
  ⟨⟨0x79, 3, none, .queued⟩, ⟨0x78, 7, none, .queued⟩, rfl, rfl, by rw [two_slot]; rfl, by rw [two_slot]; rfl, rfl,
    by decide, two_readable⟩

theorem built_childrenInOrder : built.ChildrenInOrder := by
  intro p n l r hs hc
  obtain ⟨-, -, rfl, rfl⟩ := joined_parent (tag := .root) built_slot hs hc
  show built.beforeBy nodeBefore 1 0 = true
  simp [State.beforeBy, built_slot, nodeBefore, orderKey, OrderKey.smaller]

theorem built_tree : built.TreeAt 2 (.node (.leaf 0x79) (.leaf 0x78)) :=
  .node (n := ⟨0, 10, some (1, 0), .root⟩) (by rw [built_slot]; rfl) rfl
    (.leaf (n := ⟨0x79, 3, none, .child⟩) (by rw [built_slot]; rfl) rfl)
    (.leaf (n := ⟨0x78, 7, none, .child⟩) (by rw [built_slot]; rfl) rfl)

theorem witness_StepKeepsChildrenInOrder : built.Inv ∧ built.ChildrenInOrder ∧ ∃ t, step built = .next t :=
  ⟨built_inv, built_childrenInOrder, _, rfl⟩
theorem witness_Build_again : built.FAULT = 0 ∧ built.ROOT ≠ none := by decide
theorem witness_Build_empty : State.reset.FAULT = 0 ∧ State.reset.ROOT = none ∧ State.reset.PQ = [] := ⟨rfl, rfl, rfl⟩
theorem witness_Build_single : ∃ s : State, s.FAULT = 0 ∧ s.ROOT = none ∧ s.PQ = [510] :=
  ⟨{ State.reset with PQ := [510] }, rfl, rfl, rfl⟩
theorem witness_BuildIsMergesAndADrain : two.FAULT = 0 ∧ two.ROOT = none ∧ 2 ≤ two.PQ.length ∧
    exec .merge two = .next (after .merge two) ∧ (after .merge two).FAULT = 0 :=
  ⟨rfl, rfl, by decide, exec_after (by decide +kernel), by decide +kernel⟩
theorem witness_BuildIsMerges_fault : overflowing.FAULT = 0 ∧ overflowing.ROOT = none ∧ 2 ≤ overflowing.PQ.length ∧
    exec .merge overflowing = .next (after .merge overflowing) ∧ (after .merge overflowing).FAULT ≠ 0 :=
  ⟨rfl, rfl, by decide, exec_after (by decide +kernel), by decide +kernel⟩

theorem two_leaves : two.QueueOfLeaves [0x79, 0x78] :=
  .cons ⟨⟨0x79, 3, none, .queued⟩, by rw [two_slot]; rfl, rfl, rfl⟩
    (.cons ⟨⟨0x78, 7, none, .queued⟩, by rw [two_slot]; rfl, rfl, rfl⟩ .nil)

theorem witness_BuildMakesOneTree : two.Inv ∧ two.FAULT = 0 ∧ two.ROOT = none ∧ two.PQ ≠ [] ∧
    two.NEXT.val + (two.PQ.length - 1) ≤ 511 ∧ two.queueTotal < 2 ^ 32 ∧ two.QueueOfLeaves [0x79, 0x78] := by
  refine ⟨two_inv, rfl, rfl, by decide, by decide, ?_, two_leaves⟩
  have hq : two.PQ = [1, 0] := rfl
  simp [State.queueTotal, hq, State.freqOf, two_slot]
theorem witness_BuildMakesOneTree_internal : merged.Inv ∧ merged.FAULT = 0 ∧ merged.ROOT = none ∧ merged.PQ ≠ [] ∧
    merged.NEXT.val + (merged.PQ.length - 1) ≤ 511 ∧ merged.queueTotal < 2 ^ 32 ∧
    List.Forall₂ merged.TreeAt merged.PQ [.node (.leaf 0x79) (.leaf 0x78)] := by
  refine ⟨merged_inv, rfl, rfl, by decide, by decide, ?_, .cons ?_ .nil⟩
  · have hq : merged.PQ = [2] := rfl
    simp [State.queueTotal, hq, State.freqOf, merged_slot 2]
  · exact .node (n := ⟨0, 10, some (1, 0), .queued⟩) (merged_slot 2) rfl
      (.leaf (n := ⟨0x79, 3, none, .child⟩) (merged_slot 1) rfl) (.leaf (n := ⟨0x78, 7, none, .child⟩) (merged_slot 0) rfl)
theorem witness_BuildIsOptimal :
    two.Inv ∧ two.FAULT = 0 ∧ two.ROOT = none ∧ two.QueueOfLeaves [0x79, 0x78] ∧ ([0x79, 0x78] : List Byte).Nodup ∧
    (∀ e ∈ two.PQ, ∀ n, two.slot e = some n →
      (fun c : Byte => if c = 0x79 then 3 else 7) n.character = n.frequency.toNat) ∧
    exec .build two = .next (after .build two) ∧ (after .build two).ROOT = some 2 ∧
    (after .build two).TreeAt 2 (.node (.leaf 0x79) (.leaf 0x78)) ∧
    List.Perm (CodeTree.node (.leaf 0x78) (.leaf 0x79)).leaves [0x79, 0x78] := by
  refine ⟨two_inv, rfl, rfl, two_leaves, by decide, ?_, exec_after (by decide +kernel), by decide +kernel, ?_, by decide⟩
  · intro e _ n hn
    rw [two_slot] at hn
    split at hn
    · cases hn; rfl
    · split at hn
      · cases hn; rfl
      · cases hn
  · exact .node (n := ⟨0, 10, some (1, 0), .root⟩) (by decide +kernel) rfl
      (.leaf (n := ⟨0x79, 3, none, .child⟩) (by decide +kernel) rfl)
      (.leaf (n := ⟨0x78, 7, none, .child⟩) (by decide +kernel) rfl)

theorem witness_Ser_closed : single.FAULT = 0 ∧ single.OPEN = false := ⟨rfl, rfl⟩
theorem witness_Ser_noTree : threeBits.FAULT = 0 ∧ threeBits.OPEN = true ∧ threeBits.ROOT = none := ⟨rfl, rfl, rfl⟩
theorem witness_Ser_tree : built.FAULT = 0 ∧ built.OPEN = true ∧ built.ROOT = some 2 ∧
    built.TreeAt 2 (.node (.leaf 0x79) (.leaf 0x78)) ∧ (CodeTree.node (.leaf 0x79) (.leaf 0x78)).depth ≤ 255 :=
  ⟨rfl, rfl, rfl, built_tree, by decide⟩
theorem witness_SerializedTreeRoundTrips : built.FAULT = 0 ∧ built.OPEN = true ∧ built.ROOT = some 2 ∧
    built.TreeAt 2 (.node (.leaf 0x79) (.leaf 0x78)) ∧ (CodeTree.node (.leaf 0x79) (.leaf 0x78)).depth ≤ 255 :=
  witness_Ser_tree
theorem witness_SerAndEmit_ser : built.FAULT = 0 ∧ built.OPEN = true ∧ built.ROOT = some 2 ∧
    built.TreeAt 2 (.node (.leaf 0x79) (.leaf 0x78)) ∧ (CodeTree.node (.leaf 0x79) (.leaf 0x78)).depth ≤ 255 :=
  witness_Ser_tree
theorem witness_SerAndEmit_emit : ∃ slices : List (List Bool), coded.FAULT = 0 ∧ coded.OPEN = true ∧
    (coded.code 0x62).len ≠ 0 ∧ GranuleSlices slices ∧ slices.flatten =
      (List.range (coded.code 0x62).len.toNat).reverse.map (fun k => (coded.code 0x62).bits.toNat.testBit k) :=
  ⟨[[true, true, false], [true]], rfl, rfl, by decide +kernel, by simp [GranuleSlices], by decide +kernel⟩
theorem witness_Mktab_noTree : two.FAULT = 0 ∧ two.ROOT = none := ⟨rfl, rfl⟩
theorem witness_Mktab_tree : built.FAULT = 0 ∧ built.ROOT = some 2 ∧
    built.TreeAt 2 (.node (.leaf 0x79) (.leaf 0x78)) ∧ (CodeTree.node (.leaf 0x79) (.leaf 0x78)).depth ≤ 255 :=
  ⟨rfl, rfl, built_tree, by decide⟩
theorem witness_Mktab_single : single.FAULT = 0 ∧ single.ROOT = some 0 ∧ single.TreeAt 0 (.leaf 0x61) ∧
    (CodeTree.leaf 0x61).depth ≤ 255 :=
  ⟨rfl, rfl, .leaf (n := ⟨0x61, 4, none, .root⟩) (by decide +kernel) rfl, by decide⟩
theorem witness_CodesArePrefixFree : built.FAULT = 0 ∧ built.ROOT = some 2 ∧
    built.TreeAt 2 (.node (.leaf 0x79) (.leaf 0x78)) ∧ (CodeTree.node (.leaf 0x79) (.leaf 0x78)).depth ≤ 255 ∧
    (CodeTree.node (.leaf 0x79) (.leaf 0x78)).leaves.Nodup := ⟨rfl, rfl, built_tree, by decide, by decide⟩
theorem witness_Emit_closed : single.FAULT = 0 ∧ single.OPEN = false := ⟨rfl, rfl⟩
theorem witness_Emit_noCode : coded.FAULT = 0 ∧ coded.OPEN = true ∧ (coded.code 0x61).len = 0 :=
  ⟨rfl, rfl, by decide +kernel⟩
theorem witness_Emit_code : coded.FAULT = 0 ∧ coded.OPEN = true ∧ (coded.code 0x62).len ≠ 0 ∧ coded.AccClean :=
  ⟨rfl, rfl, by decide +kernel, built_inv.accClean⟩

theorem threeBits_clean : threeBits.AccClean := by
  intro i hi
  have : i < 5 := hi
  show (0xA0 : Byte).getLsbD i = false
  revert i; decide

theorem witness_Open_again : threeBits.FAULT = 0 ∧ threeBits.OPEN = true := ⟨rfl, rfl⟩
theorem witness_Open_done : two.FAULT = 0 ∧ two.OPEN = false := ⟨rfl, rfl⟩
theorem witness_Wbits_closed : two.FAULT = 0 ∧ two.OPEN = false := ⟨rfl, rfl⟩
theorem witness_Wbits_width : threeBits.FAULT = 0 ∧ threeBits.OPEN = true ∧
    (0 : BitVec 16).toNat = 0 ∧ 8 < (9 : BitVec 16).toNat := by decide
theorem witness_Wbits_fills : ∃ k w T, threeBits.FAULT = 0 ∧ threeBits.OPEN = true ∧ w = (5 : BitVec 16).toNat ∧
    1 ≤ w ∧ w ≤ 8 ∧ k = threeBits.NBITS.val ∧
    T = threeBits.ACC.toNat / 2 ^ (8 - k) * 2 ^ w + (0xFF : Byte).toNat % 2 ^ w ∧ threeBits.AccClean ∧ k + w = 8 :=
  ⟨3, 5, _, rfl, rfl, rfl, by decide, by decide, rfl, rfl, threeBits_clean, rfl⟩
theorem witness_Wbits_fits : ∃ k w T, threeBits.FAULT = 0 ∧ threeBits.OPEN = true ∧ w = (4 : BitVec 16).toNat ∧
    1 ≤ w ∧ w ≤ 8 ∧ k = threeBits.NBITS.val ∧
    T = threeBits.ACC.toNat / 2 ^ (8 - k) * 2 ^ w + (0xFF : Byte).toNat % 2 ^ w ∧ threeBits.AccClean ∧ k + w = 7 :=
  ⟨3, 4, _, rfl, rfl, rfl, by decide, by decide, rfl, rfl, threeBits_clean, rfl⟩
theorem witness_Close_closed : two.FAULT = 0 ∧ two.OPEN = false := ⟨rfl, rfl⟩
theorem witness_Close_done : threeBits.FAULT = 0 ∧ threeBits.OPEN = true ∧ threeBits.AccClean ∧
    threeBits.NBITS.val ≠ 0 := ⟨rfl, rfl, threeBits_clean, by decide⟩
theorem witness_Close_noBits : built.FAULT = 0 ∧ built.OPEN = true ∧ built.NBITS.val = 0 := ⟨rfl, rfl, rfl⟩
theorem witness_ScopeIsTheAcceptedBitsInBytes : State.reset.FAULT = 0 ∧ State.reset.OPEN = false ∧
    GranuleSlices [[true, false, true], List.replicate 8 true] := ⟨rfl, rfl, by simp [GranuleSlices]⟩

theorem witness_Scope_commands : State.reset.FAULT = 0 ∧ State.reset.OPEN = false ∧
    (∀ i ∈ [Instr.ser, .wbits 5 3], i ≠ .closeSink ∧ i ≠ .reset) ∧
    ∃ m, execAll (.openSink :: [.ser, .wbits 5 3]) State.reset = .next m ∧ m.FAULT = 0 := by
  refine ⟨rfl, rfl, by decide, ?_⟩
  have h : ((nextOf (execAll (.openSink :: [.ser, .wbits 5 3]) State.reset)).map State.FAULT) = some 0 := by
    decide +kernel
  obtain ⟨m, hm, hf⟩ := Option.map_eq_some_iff.1 h
  exact ⟨m, by cases ho : execAll (.openSink :: [.ser, .wbits 5 3]) State.reset <;> simp_all [nextOf], hf⟩
theorem witness_Scope_open : ({ threeBits with OUT := [.eos, .byte 1] } : State).OPEN = true ∧
    ({ threeBits with OUT := [.eos, .byte 1] } : State).OUT =
      [.eos] ++ (scopeBytes ({ threeBits with OUT := [.eos, .byte 1] } : State).OUT).map .byte := by decide
theorem witness_RunEndsAtClose : threeBits.FAULT = 0 ∧ threeBits.OPEN = true ∧
    threeBits.RunSucceeded (after .closeSink threeBits) :=
  ⟨rfl, rfl, exec_after (by decide +kernel), by decide +kernel, by decide +kernel⟩
theorem witness_RunEndsAtClose_failed : exec .closeSink State.reset = .next (after .closeSink State.reset) ∧
    (after .closeSink State.reset).RunFailed := ⟨exec_after (by decide +kernel), by unfold State.RunFailed; decide +kernel⟩
theorem witness_RunEndsAtClose_step : (presenting threeBits 0x6200000000000000).host = [.command 0x6200000000000000] ∧
    ∃ t, step (presenting threeBits 0x6200000000000000) = .next t := ⟨rfl, next_of_isSome (by decide +kernel)⟩

theorem witness_NodeRd_bad : two.NEXT.val ≤ (511 : BitVec 9).toNat := by decide
theorem witness_NodeRd_done : (2 : NodeId).val = (2 : BitVec 9).toNat ∧ (2 : NodeId).val < built.NEXT.val ∧
    built.slot 2 = some ⟨0, 10, some (1, 0), .root⟩ := ⟨rfl, by decide, by rw [built_slot]; rfl⟩

theorem witness_StepKeepsTheInvariants : (presenting two 0x3100000000000000).Inv ∧
    ∃ t, step (presenting two 0x3100000000000000) = .next t := by
  refine ⟨?_, next_of_isSome (by decide +kernel)⟩
  exact ⟨two_inv.1, two_inv.2, two_inv.3, two_inv.4, two_inv.5, two_inv.6, two_inv.7, two_inv.8, two_inv.9,
    two_inv.10, two_inv.11, two_inv.12, two_inv.13, two_inv.14, two_inv.15⟩
theorem witness_TreesAreShallow : built.Inv ∧ (2 : NodeId).val < built.NEXT.val := ⟨built_inv, by decide⟩
theorem witness_EveryCommandHasAStep : two.Inv ∧ built.Inv := ⟨two_inv, built_inv⟩

/-- Another tie-break: the smaller frequency first, and then the smaller id, whatever the nodes are. -/
def byId : Comparator := fun x nx y ny =>
  decide (nx.frequency.toNat < ny.frequency.toNat ∨ (nx.frequency.toNat = ny.frequency.toNat ∧ x.val < y.val))

theorem byId_tieBreak : byId.TieBreak where
  irreflexive x nx := by simp [byId]
  transitive x y z nx ny nz h₁ h₂ := by simp only [byId, decide_eq_true_eq] at *; omega
  total x y nx ny h := by
    have : x.val ≠ y.val := fun e => h (Fin.ext e)
    simp only [byId, decide_eq_true_eq, decide_eq_false_iff_not]; omega
  frequencyFirst x y nx ny h := by simp [byId, h]
  tagFree x y nx ny a b := rfl

theorem two_invFor_byId : two.InvFor byId :=
  { two_inv with
    queueSorted := by
      have hq : two.PQ = [1, 0] := rfl
      rw [hq]
      simp [State.BeforeBy, State.beforeBy, two_slot, byId] }

theorem two_trees : List.Forall₂ two.TreeAt two.PQ [.leaf 0x79, .leaf 0x78] :=
  .cons (.leaf (n := ⟨0x79, 3, none, .queued⟩) (by rw [two_slot]; rfl) rfl)
    (.cons (.leaf (n := ⟨0x78, 7, none, .queued⟩) (by rw [two_slot]; rfl) rfl) .nil)

theorem two_weights : two.QueueWeights fun c => if c = 0x79 then 3 else 7 := by
  intro e _ n hn
  rw [two_slot] at hn
  split at hn
  · cases hn; rfl
  · split at hn
    · cases hn; rfl
    · cases hn

/-- The state a rule completes in. -/
def doneState (r : RuleResult Reply) : Option (Reply × State) :=
  match r with
  | .done a t => some (a, t)
  | .raised _ _ => none
  | .stuck _ => none

/-- A code for 'y' and 'x' that is not complete: 11 and 0. -/
def looseCode (c : Byte) : List Bool := if c = 0x79 then [true, true] else [false]

theorem looseCode_ok : PrefixCode [0x79, 0x78] looseCode := by unfold PrefixCode; decide

theorem witness_BuildCountsForEveryTieBreak : byId.TieBreak ∧ two.InvFor byId ∧ two.ROOT = none ∧ two.PQ ≠ [] ∧
    two.NEXT.val + (two.PQ.length - 1) ≤ 511 ∧ two.queueTotal < 2 ^ 32 ∧
    List.Forall₂ two.TreeAt two.PQ [.leaf 0x79, .leaf 0x78] :=
  ⟨byId_tieBreak, two_invFor_byId, rfl, by decide, by decide, witness_BuildMakesOneTree.2.2.2.2.2.1, two_trees⟩
theorem witness_CodeIsOptimalForEveryTieBreak : ∃ a t, byId.TieBreak ∧ two.InvFor byId ∧ two.ROOT = none ∧
    two.QueueOfLeaves [0x79, 0x78] ∧ ([0x79, 0x78] : List Byte).Nodup ∧
    two.QueueWeights (fun c => if c = 0x79 then 3 else 7) ∧ buildRule byId two = .done a t ∧ t.ROOT = some 2 ∧
    t.TreeAt 2 (.node (.leaf 0x79) (.leaf 0x78)) ∧ PrefixCode [0x79, 0x78] looseCode := by
  have h : ((doneState (buildRule byId two)).map fun q =>
      (q.2.ROOT, q.2.slot 2, q.2.slot 1, q.2.slot 0)) = some (some 2, some ⟨0, 10, some (1, 0), .root⟩,
        some ⟨0x79, 3, none, .child⟩, some ⟨0x78, 7, none, .child⟩) := by decide +kernel
  obtain ⟨⟨a, t⟩, hd, hv⟩ := Option.map_eq_some_iff.1 h
  simp only [Prod.mk.injEq] at hv
  obtain ⟨hr, h2, h1, h0⟩ := hv
  refine ⟨a, t, byId_tieBreak, two_invFor_byId, rfl, two_leaves, by decide, two_weights, ?_, hr, ?_, looseCode_ok⟩
  · cases hb : buildRule byId two <;> simp_all [doneState]
  · exact .node h2 rfl (.leaf h1 rfl) (.leaf h0 rfl)
theorem witness_CodeTableIsOptimal : two.Inv ∧ two.FAULT = 0 ∧ two.ROOT = none ∧ two.PQ ≠ [] ∧
    two.QueueOfLeaves [0x79, 0x78] ∧ ([0x79, 0x78] : List Byte).Nodup ∧
    two.QueueWeights (fun c => if c = 0x79 then 3 else 7) ∧ exec .build two = .next (after .build two) ∧
    (after .build two).FAULT = 0 ∧ PrefixCode [0x79, 0x78] looseCode :=
  ⟨two_inv, rfl, rfl, by decide, two_leaves, by decide, two_weights, exec_after (by decide +kernel),
    by decide +kernel, looseCode_ok⟩

end Sys2Proof.Tests
end

namespace Sys2Proof.Machine

/-! ## The order of the queue (spec/41_priority_queue.md R90 to R92)

That this hardware's comparator is one of the tie-breaks of U1, and what every tie-break gives on the ids of a state. -/

/-- The order of keys, component by component (R90). -/
theorem OrderKey.smaller_iff (k l : OrderKey) :
    k.smaller l = true ↔ k.frequency < l.frequency ∨ k.frequency = l.frequency ∧ (k.kind < l.kind ∨
      k.kind = l.kind ∧ (k.minor < l.minor ∨ k.minor = l.minor ∧ k.id < l.id)) := by
  unfold smaller
  split
  · simp; omega
  · split
    · simp; omega
    · split <;> simp <;> omega

@[simp] theorem orderKey_id (x : NodeId) (n : Node) : (orderKey x n).id = x.val := by
  unfold orderKey; split <;> rfl

@[simp] theorem orderKey_frequency (x : NodeId) (n : Node) : (orderKey x n).frequency = n.frequency.toNat := by
  unfold orderKey; split <;> rfl

/-- A node's key does not depend on its tag. -/
@[simp] theorem orderKey_tag (x : NodeId) (n : Node) (a : Tag) : orderKey x { n with st := a } = orderKey x n := rfl

/-- The comparator of R90 is a tie-break in the sense of U1. -/
theorem nodeBefore_tieBreak : Comparator.TieBreak nodeBefore where
  irreflexive x nx := by simp [nodeBefore, ← Bool.not_eq_true, OrderKey.smaller_iff]
  transitive x y z nx ny nz := by simp only [nodeBefore, OrderKey.smaller_iff]; omega
  total x y nx ny hxy := by
    have hid : x.val ≠ y.val := fun e => hxy (Fin.ext e)
    simp only [nodeBefore, ← Bool.not_eq_true, OrderKey.smaller_iff, orderKey_id]
    omega
  frequencyFirst x y nx ny h := by
    simp only [nodeBefore, OrderKey.smaller_iff, orderKey_frequency]
    exact .inl h
  tagFree x y nx ny a b := by simp [nodeBefore]

section order
variable {before : Comparator} {s t : State} {x y z : NodeId}

/-- What it means that one id is before another. -/
theorem State.beforeBy_iff :
    s.BeforeBy before x y ↔ ∃ nx ny, s.slot x = some nx ∧ s.slot y = some ny ∧ before x nx y ny = true := by
  unfold State.BeforeBy State.beforeBy
  cases s.slot x <;> cases s.slot y <;> simp

/-- The order of two ids depends on their slots alone. -/
theorem State.beforeBy_congr (hx : t.slot x = s.slot x) (hy : t.slot y = s.slot y) :
    t.beforeBy before x y = s.beforeBy before x y := by
  unfold State.beforeBy
  rw [hx, hy]

/-- An entry of the queue counts as before `id` where `beforeBy` says so. -/
theorem State.beforeIn_eq_beforeBy {id : NodeId} {n : Node} (hn : s.slot id = some n) (e : NodeId) :
    s.beforeIn before id n e = s.beforeBy before e id := by
  rw [beforeIn, beforeBy, hn]
  cases s.slot e <;> rfl

theorem State.beforeBy_trans (hb : before.TieBreak) (hxy : s.BeforeBy before x y) (hyz : s.BeforeBy before y z) :
    s.BeforeBy before x z := by
  obtain ⟨nx, ny, hx, hy, h⟩ := State.beforeBy_iff.1 hxy
  obtain ⟨ny', nz, hy', hz, h'⟩ := State.beforeBy_iff.1 hyz
  obtain rfl : ny = ny' := Option.some.inj (hy.symm.trans hy')
  exact State.beforeBy_iff.2 ⟨nx, nz, hx, hz, hb.transitive x y z nx ny nz h h'⟩

theorem State.beforeBy_irrefl (hb : before.TieBreak) (x : NodeId) : ¬ s.BeforeBy before x x := by
  intro h
  obtain ⟨nx, nx', hx, hx', h⟩ := State.beforeBy_iff.1 h
  obtain rfl : nx = nx' := Option.some.inj (hx.symm.trans hx')
  simp [hb.irreflexive] at h

/-- Two different ids that name nodes are ordered one way or the other. -/
theorem State.beforeBy_total (hb : before.TieBreak) (hxy : x ≠ y) (hx : (s.slot x).isSome = true)
    (hy : (s.slot y).isSome = true) : s.BeforeBy before x y ∨ s.BeforeBy before y x := by
  obtain ⟨nx, hx⟩ := Option.isSome_iff_exists.1 hx
  obtain ⟨ny, hy⟩ := Option.isSome_iff_exists.1 hy
  cases h : before y ny x nx with
  | true => exact .inr (State.beforeBy_iff.2 ⟨ny, nx, hy, hx, h⟩)
  | false => exact .inl (State.beforeBy_iff.2 ⟨nx, ny, hx, hy, (hb.total x y nx ny hxy).2 h⟩)

/-- A node that is before another does not have the larger frequency (R108). -/
theorem State.freqOf_le_of_beforeBy (hb : before.TieBreak) (h : s.BeforeBy before x y) : s.freqOf x ≤ s.freqOf y := by
  by_contra hlt
  obtain ⟨nx, ny, hx, hy, _⟩ := State.beforeBy_iff.1 h
  have hyx : before y ny x nx = true := hb.frequencyFirst y x ny nx (by simpa [freqOf, hx, hy] using hlt)
  exact State.beforeBy_irrefl hb x (State.beforeBy_trans hb h (State.beforeBy_iff.2 ⟨ny, nx, hy, hx, hyx⟩))

end order

/-- Inserting after the entries that are before it keeps a list sorted (R92). -/
theorem pairwise_insertAt {r : NodeId → NodeId → Bool} {id : NodeId}
    (htrans : ∀ x y z, r x y = true → r y z = true → r x z = true) {l : List NodeId}
    (hsorted : l.Pairwise fun x y => r x y = true) (htotal : ∀ e ∈ l, r e id = true ∨ r id e = true) :
    (insertAt l (l.countP fun e => r e id) id).Pairwise fun x y => r x y = true := by
  induction l with
  | nil => simp [insertAt]
  | cons e rest ih =>
    obtain ⟨hhead, hrest⟩ := List.pairwise_cons.1 hsorted
    by_cases he : r e id = true
    · have hins := ih hrest fun f hf => htotal f (List.mem_cons_of_mem e hf)
      simp only [List.countP_cons, he, if_true, insertAt, List.take_succ_cons, List.drop_succ_cons, List.cons_append]
      refine List.pairwise_cons.2 ⟨fun f hf => ?_, hins⟩
      rcases (mem_insertAt rest _ id f).1 hf with rfl | hf
      · exact he
      · exact hhead f hf
    · have hnone : ∀ f ∈ e :: rest, ¬ r f id = true := by
        intro f hf
        rcases List.mem_cons.1 hf with rfl | hf
        · exact he
        · exact fun h => he (htrans e f id (hhead f hf) h)
      rw [List.countP_eq_zero.2 hnone]
      exact List.pairwise_cons.2 ⟨fun f hf => (htotal f hf).resolve_left (hnone f hf), hsorted⟩

/-! ## The nodes one state hands on to another (spec/10_state.md R21)

`State.KeepsNodes s t`: every node of `s` stands in `t` too, with at most another tag. What is read of a node without its
tag is then the same in both. -/

/-- Every node of `s` is in `t`, but for its tag. -/
def State.KeepsNodes (s t : State) : Prop :=
  ∀ id n, s.slot id = some n → ∃ tag, t.slot id = some { n with st := tag }

section keeps
variable {before : Comparator} {s t u : State} {x y : NodeId}

theorem State.KeepsNodes.of_N_eq (h : t.N = s.N) : s.KeepsNodes t :=
  fun id n hn => ⟨n.st, by rw [State.slot_congr h]; exact hn⟩

theorem State.KeepsNodes.refl (s : State) : s.KeepsNodes s := .of_N_eq rfl

theorem State.KeepsNodes.trans (h : s.KeepsNodes t) (h' : t.KeepsNodes u) : s.KeepsNodes u := by
  intro id n hn
  obtain ⟨_, ht⟩ := h id n hn
  obtain ⟨tag, hu⟩ := h' id _ ht
  exact ⟨tag, hu⟩

/-- A change of a tag keeps every node. -/
theorem State.keepsNodes_setTag (s : State) (x : NodeId) (tag : Tag) : s.KeepsNodes (s.setTag x tag) := by
  intro id n hn
  by_cases h : id = x
  · subst h; exact ⟨tag, by simp [hn]⟩
  · exact ⟨n.st, by simp [h, hn]⟩

/-- A change of a tag makes no node. -/
theorem State.setTag_keepsNodes (s : State) (x : NodeId) (tag : Tag) : (s.setTag x tag).KeepsNodes s := by
  intro id n hn
  by_cases h : id = x
  · subst h
    obtain ⟨m, hm, rfl⟩ : ∃ m, s.slot id = some m ∧ { m with st := tag } = n := by simpa using hn
    exact ⟨m.st, by simp [hm]⟩
  · exact ⟨n.st, by simpa [h] using hn⟩

/-- A change of the queue and of a tag keeps every node. -/
theorem State.setQueue_setTag_keepsNodes (s : State) (pq : List NodeId) (x : NodeId) (tag : Tag) :
    s.KeepsNodes ((s.setQueue pq).setTag x tag) :=
  (State.KeepsNodes.of_N_eq rfl).trans (State.keepsNodes_setTag (s.setQueue pq) x tag)

/-- A change of the queue and of a tag makes no node. -/
theorem State.keepsNodes_of_setQueue_setTag (s : State) (pq : List NodeId) (x : NodeId) (tag : Tag) :
    ((s.setQueue pq).setTag x tag).KeepsNodes s :=
  (State.setTag_keepsNodes (s.setQueue pq) x tag).trans (.of_N_eq rfl)

/-- A node placed in an empty slot leaves the others. -/
theorem State.keepsNodes_withNode (h : s.NEXT.val < 511) (hfree : s.slot ⟨s.NEXT.val, h⟩ = none) (n : Node) (k : Nat) :
    s.KeepsNodes (s.withNode h n k) := by
  intro id m hm
  have hid : id ≠ ⟨s.NEXT.val, h⟩ := by rintro rfl; simp [hfree] at hm
  exact ⟨m.st, by simp [hid, hm]⟩

theorem State.KeepsNodes.isSome (h : s.KeepsNodes t) (hx : (s.slot x).isSome = true) : (t.slot x).isSome = true := by
  obtain ⟨n, hn⟩ := Option.isSome_iff_exists.1 hx
  obtain ⟨tag, ht⟩ := h x n hn
  simp [ht]

theorem State.KeepsNodes.childOf (h : s.KeepsNodes t) (hc : s.ChildOf x y) : t.ChildOf x y := by
  obtain ⟨n, l, r, hn, hch, hx⟩ := hc
  obtain ⟨tag, ht⟩ := h y n hn
  exact ⟨_, l, r, ht, hch, hx⟩

theorem State.KeepsNodes.beforeBy (h : s.KeepsNodes t) (hb : before.TieBreak) (hxy : s.BeforeBy before x y) :
    t.BeforeBy before x y := by
  obtain ⟨nx, ny, hx, hy, hlt⟩ := State.beforeBy_iff.1 hxy
  obtain ⟨a, hx⟩ := h x nx hx
  obtain ⟨b, hy⟩ := h y ny hy
  exact State.beforeBy_iff.2 ⟨_, _, hx, hy, (hb.tagFree x y nx ny a b).trans hlt⟩

/-- The order reads no tag, so two states with the same nodes but for their tags order ids alike. -/
theorem State.KeepsNodes.beforeBy_eq (hb : before.TieBreak) (hst : s.KeepsNodes t) (hts : t.KeepsNodes s) :
    t.beforeBy before x y = s.beforeBy before x y :=
  Bool.eq_iff_iff.2 ⟨hts.beforeBy hb, hst.beforeBy hb⟩

theorem State.KeepsNodes.freqOf (h : s.KeepsNodes t) (hx : (s.slot x).isSome = true) : t.freqOf x = s.freqOf x := by
  obtain ⟨n, hn⟩ := Option.isSome_iff_exists.1 hx
  obtain ⟨tag, ht⟩ := h x n hn
  simp [State.freqOf, hn, ht]

theorem State.KeepsNodes.treeAt (h : s.KeepsNodes t) {tr : CodeTree} (htr : s.TreeAt x tr) : t.TreeAt x tr := by
  induction htr with
  | leaf hn hch =>
    obtain ⟨tag, ht⟩ := h _ _ hn
    have hleaf := State.TreeAt.leaf ht hch
    exact hleaf
  | node hn hch _ _ ihl ihr =>
    obtain ⟨tag, ht⟩ := h _ _ hn
    exact .node ht hch ihl ihr

end keeps

end Sys2Proof.Machine

namespace Sys2Proof.Machine

/-! ## The invariants of R31 in parts

The arena and the queue (`ArenaInv`), the bit writer (`WriterInv`) and the encoding table (`TableFits`) are written by
different commands, so their invariants are kept apart; `State.invFor_iff` puts them together. -/

/-- Items 4, 6 (for NEXT) and 7 of R31: what does not read a tag. -/
structure State.ForestInv (s : State) : Prop where
  slots : s.SlotsBelowNext
  childBelow : ∀ c p, s.ChildOf c p → c.val < p.val
  childrenDiffer : ∀ p n l r, s.slot p = some n → n.children = some (l, r) → l ≠ r
  childOnce : ∀ c p q, s.ChildOf c p → s.ChildOf c q → p = q
  sums : ∀ p n l r nl nr, s.slot p = some n → n.children = some (l, r) → s.slot l = some nl → s.slot r = some nr →
    n.frequency.toNat = nl.frequency.toNat + nr.frequency.toNat ∧ n.character = Config.sentinel

/-- Items 1, 2 and 6 (for PQ) of R31. -/
structure State.QueueInv (before : Comparator) (s : State) : Prop where
  distinct : s.PQ.Nodup
  queuedIff : ∀ id, id ∈ s.PQ ↔ ∃ n, s.slot id = some n ∧ n.st = .queued
  sorted : s.PQ.Pairwise (s.BeforeBy before)
  bound : s.PQ.length ≤ 256

/-- The tags CHILD and ROOT (items 4 and 5 of R31), where the nodes in `pending` are tagged CHILD already and wait for
the parent that is about to be allocated (42_tree_builder.md R106). -/
structure State.LinkInv (pending : NodeId → Prop) (s : State) : Prop where
  childIff : ∀ c n, s.slot c = some n → (n.st = .child ↔ (∃ p, s.ChildOf c p) ∨ pending c)
  rootIff : ∀ id n, s.slot id = some n → (n.st = .root ↔ s.ROOT = some id)
  rootAllocated : ∀ id, s.ROOT = some id → (s.slot id).isSome = true

/-- What R31 says of the arena, the queue and ROOT. -/
structure State.ArenaInv (before : Comparator) (s : State) : Prop where
  forest : s.ForestInv
  queue : s.QueueInv before
  links : s.LinkInv fun _ => False

/-- Item 8 of R31. -/
structure State.WriterInv (s : State) : Prop where
  closed : s.OPEN = false → s.NBITS = 0 ∧ s.ACC = 0
  clean : s.AccClean

/-- Item 10 of R31, of a table. -/
def TableFits (table : Vector CodeEntry 256) : Prop :=
  ∀ sym, (table.get (symIndex sym)).bits.toNat < 2 ^ (table.get (symIndex sym)).len.toNat

/-- R31 is its three parts. -/
theorem State.invFor_iff {before : Comparator} {s : State} :
    s.InvFor before ↔ s.ArenaInv before ∧ s.WriterInv ∧ TableFits s.CODE := by
  constructor
  · intro h
    exact ⟨⟨⟨h.slots, h.childBelow, h.childrenDiffer, h.childOnce, h.sums⟩,
      ⟨h.queueDistinct, h.queuedIff, h.queueSorted, h.queueBound⟩,
      ⟨by simpa using h.childIff, h.rootIff, h.rootAllocated⟩⟩, ⟨h.closedWriter, h.accClean⟩, h.codeFits⟩
  · rintro ⟨⟨hf, hq, hl⟩, hw, ht⟩
    exact ⟨hf.slots, hq.distinct, hq.queuedIff, hq.sorted, hf.childBelow, hf.childrenDiffer, hf.childOnce,
      by simpa using hl.childIff, hl.rootIff, hl.rootAllocated, hq.bound, hf.sums, hw.closed, hw.clean, ht⟩

section parts
variable {before : Comparator} {pending : NodeId → Prop} {s t : State} {x : NodeId} {n : Node}

theorem State.childOf_congr (h : t.N = s.N) (c p : NodeId) : t.ChildOf c p ↔ s.ChildOf c p :=
  ⟨(State.KeepsNodes.of_N_eq h.symm).childOf, (State.KeepsNodes.of_N_eq h).childOf⟩

/-- The forest depends on N and NEXT, and on no tag. -/
theorem State.ForestInv.of_keepsNodes (h : s.ForestInv) (hst : s.KeepsNodes t) (hts : t.KeepsNodes s)
    (hnext : t.NEXT = s.NEXT) : t.ForestInv where
  slots id := by rw [hnext, ← h.slots id]; exact ⟨hts.isSome, hst.isSome⟩
  childBelow c p hc := h.childBelow c p (hts.childOf hc)
  childrenDiffer p m l r hm hch := by
    obtain ⟨_, hm⟩ := hts p m hm
    exact h.childrenDiffer p _ l r hm hch
  childOnce c p q hp hq := h.childOnce c p q (hts.childOf hp) (hts.childOf hq)
  sums p m l r ml mr hm hch hl hr := by
    obtain ⟨_, hm⟩ := hts p m hm
    obtain ⟨_, hl⟩ := hts l ml hl
    obtain ⟨_, hr⟩ := hts r mr hr
    have hsum := h.sums p _ l r _ _ hm hch hl hr
    exact hsum

theorem State.QueueInv.readable (h : s.QueueInv before) : s.QueueReadable := by
  intro e he
  obtain ⟨m, hm, _⟩ := (h.queuedIff e).1 he
  simp [hm]

theorem State.LinkInv.congr (h : s.LinkInv pending) (hN : t.N = s.N) (hroot : t.ROOT = s.ROOT) : t.LinkInv pending where
  childIff c m hm := by
    rw [State.slot_congr hN] at hm
    simpa [State.childOf_congr hN] using h.childIff c m hm
  rootIff id m hm := by
    rw [State.slot_congr hN] at hm
    rw [hroot]
    exact h.rootIff id m hm
  rootAllocated id hid := by
    rw [State.slot_congr hN]
    exact h.rootAllocated id (hroot ▸ hid)

theorem State.QueueInv.congr (h : s.QueueInv before) (hN : t.N = s.N) (hPQ : t.PQ = s.PQ) : t.QueueInv before where
  distinct := hPQ ▸ h.distinct
  queuedIff id := by rw [hPQ, State.slot_congr hN]; exact h.queuedIff id
  sorted := by
    rw [hPQ]
    exact h.sorted.imp fun hxy => (State.beforeBy_congr (State.slot_congr hN _) (State.slot_congr hN _)).trans hxy
  bound := hPQ ▸ h.bound

/-- The arena's invariants depend on NEXT, N, PQ and ROOT alone. -/
theorem State.ArenaInv.congr (h : s.ArenaInv before) (hnext : t.NEXT = s.NEXT) (hN : t.N = s.N) (hPQ : t.PQ = s.PQ)
    (hroot : t.ROOT = s.ROOT) : t.ArenaInv before where
  forest := h.forest.of_keepsNodes (.of_N_eq hN) (.of_N_eq hN.symm) hnext
  queue := h.queue.congr hN hPQ
  links := h.links.congr hN hroot

/-! ### Entering and leaving the queue -/

/-- A node becomes QUEUED and enters the queue at the place the order gives it (R92). -/
theorem State.QueueInv.insert (hb : before.TieBreak) (h : s.QueueInv before) (hx : x ∉ s.PQ)
    (hslot : ∀ y, y ≠ x → t.slot y = s.slot y) (htx : t.slot x = some n) (hn : n.st = .queued)
    (hPQ : t.PQ = insertAt s.PQ (s.PQ.countP fun e => t.beforeBy before e x) x) (hlen : s.PQ.length < 256) :
    t.QueueInv before := by
  have hne : ∀ y ∈ s.PQ, y ≠ x := fun y hy e => hx (e ▸ hy)
  refine ⟨?_, fun id => ?_, ?_, ?_⟩
  · rw [hPQ, (insertAt_perm _ _ _).nodup_iff]
    exact List.nodup_cons.2 ⟨hx, h.distinct⟩
  · rw [hPQ, mem_insertAt]
    by_cases hid : id = x
    · subst hid; simp [htx, hn]
    · simp [hid, hslot, h.queuedIff]
  · rw [hPQ]
    refine pairwise_insertAt (r := t.beforeBy before) (fun a b c => State.beforeBy_trans hb) ?_ fun e he => ?_
    · refine h.sorted.imp_of_mem fun ha hc hac => ?_
      rw [State.beforeBy_congr (hslot _ (hne _ ha)) (hslot _ (hne _ hc))]
      exact hac
    · refine State.beforeBy_total hb (hne e he) ?_ (by simp [htx])
      rw [hslot e (hne e he)]
      exact h.readable e he
  · rw [hPQ, length_insertAt]; omega

/-- The front leaves the queue and takes another tag (R93). -/
theorem State.QueueInv.removeFront {rest : List NodeId} (h : s.QueueInv before) (hPQ : s.PQ = x :: rest)
    (hslot : ∀ y, y ≠ x → t.slot y = s.slot y) (htx : t.slot x = some n) (hn : n.st ≠ .queued) (ht : t.PQ = rest) :
    t.QueueInv before := by
  have hnodup := h.distinct
  rw [hPQ, List.nodup_cons] at hnodup
  have hne : ∀ y ∈ rest, y ≠ x := fun y hy e => hnodup.1 (e ▸ hy)
  refine ⟨ht ▸ hnodup.2, fun id => ?_, ?_, ?_⟩
  · by_cases hid : id = x
    · subst hid; simp [htx, hn, ht, hnodup.1]
    · rw [ht, hslot id hid, ← h.queuedIff id, hPQ]; simp [hid]
  · have hsorted := h.sorted
    rw [hPQ, List.pairwise_cons] at hsorted
    rw [ht]
    refine hsorted.2.imp_of_mem fun ha hc hac => ?_
    show t.beforeBy before _ _ = true
    rw [State.beforeBy_congr (hslot _ (hne _ ha)) (hslot _ (hne _ hc))]
    exact hac
  · have := h.bound
    rw [hPQ, List.length_cons] at this
    rw [ht]; omega

/-! ### Tags -/

theorem State.childOf_setTag (s : State) (x : NodeId) (tag : Tag) (c p : NodeId) :
    (s.setTag x tag).ChildOf c p ↔ s.ChildOf c p :=
  ⟨(s.setTag_keepsNodes x tag).childOf, (s.keepsNodes_setTag x tag).childOf⟩

theorem State.ForestInv.setTag (h : s.ForestInv) (x : NodeId) (tag : Tag) : (s.setTag x tag).ForestInv :=
  h.of_keepsNodes (s.keepsNodes_setTag x tag) (s.setTag_keepsNodes x tag) rfl

/-- A HELD or QUEUED node takes another tag than ROOT; tagged CHILD it waits for its parent. -/
theorem State.LinkInv.setTag (h : s.LinkInv pending) (hx : s.slot x = some n) (hc : n.st ≠ .child) (hr : n.st ≠ .root)
    {tag : Tag} (htag : tag ≠ .root) : (s.setTag x tag).LinkInv fun c => pending c ∨ c = x ∧ tag = .child where
  childIff c m hm := by
    simp only [State.childOf_setTag]
    by_cases hcx : c = x
    · subst hcx
      obtain rfl : { n with st := tag } = m := by simpa [hx] using hm
      have hnone := (h.childIff c n hx).not.1 hc
      push Not at hnone
      simp [hnone.1, hnone.2]
    · have hm : s.slot c = some m := by simpa [hcx] using hm
      simpa [hcx] using h.childIff c m hm
  rootIff id m hm := by
    by_cases hid : id = x
    · subst hid
      obtain rfl : { n with st := tag } = m := by simpa [hx] using hm
      simpa [htag, hr] using h.rootIff id n hx
    · exact h.rootIff id m (by simpa [hid] using hm)
  rootAllocated id hid := (s.keepsNodes_setTag x tag).isSome (h.rootAllocated id hid)

/-- Where ROOT is NIL, a HELD or QUEUED node becomes the root (R109). -/
theorem State.LinkInv.setRoot (h : s.LinkInv pending) (hx : s.slot x = some n) (hc : n.st ≠ .child)
    (hroot : s.ROOT = none) (ht : t.N = (s.setTag x .root).N) (htr : t.ROOT = some x) : t.LinkInv pending where
  childIff c m hm := by
    rw [State.slot_congr ht] at hm
    simp only [State.childOf_congr ht, State.childOf_setTag]
    by_cases hcx : c = x
    · subst hcx
      obtain rfl : { n with st := .root } = m := by simpa [hx] using hm
      simpa [hc] using h.childIff c n hx
    · exact h.childIff c m (by simpa [hcx] using hm)
  rootIff id m hm := by
    rw [State.slot_congr ht] at hm
    by_cases hid : id = x
    · subst hid
      obtain rfl : { n with st := .root } = m := by simpa [hx] using hm
      simp [htr]
    · have hne : x ≠ id := fun e => hid e.symm
      simpa [htr, hne, hroot] using h.rootIff id m (by simpa [hid] using hm)
  rootAllocated id hid := by
    obtain rfl : x = id := Option.some.inj (htr.symm.trans hid)
    rw [State.slot_congr ht]
    simp [hx]

/-! ### Allocation -/

/-- The children of a node. -/
def Node.HasChild (n : Node) (c : NodeId) : Prop := ∃ l r, n.children = some (l, r) ∧ (c = l ∨ c = r)

/-- `n` may be allocated: it is a leaf, or its children are two different nodes without a parent and it has the sum of
their frequencies (R12, R106). -/
def State.MayBeParent (s : State) (n : Node) : Prop :=
  ∀ l r, n.children = some (l, r) → l ≠ r ∧ (∀ p, ¬ s.ChildOf l p) ∧ (∀ p, ¬ s.ChildOf r p) ∧
    ∃ nl nr, s.slot l = some nl ∧ s.slot r = some nr ∧
      n.frequency.toNat = nl.frequency.toNat + nr.frequency.toNat ∧ n.character = Config.sentinel

/-- The slot at NEXT is empty. -/
theorem State.ForestInv.free (h : s.ForestInv) (hn : s.NEXT.val < 511) : s.slot ⟨s.NEXT.val, hn⟩ = none := by
  have := (h.slots ⟨s.NEXT.val, hn⟩).not.2 (lt_irrefl _)
  simpa using this

theorem State.childOf_withNode (hn : s.NEXT.val < 511) (hfree : s.slot ⟨s.NEXT.val, hn⟩ = none) (n : Node) (k : Nat)
    (c p : NodeId) : (s.withNode hn n k).ChildOf c p ↔ s.ChildOf c p ∨ p = ⟨s.NEXT.val, hn⟩ ∧ n.HasChild c := by
  by_cases hp : p = ⟨s.NEXT.val, hn⟩
  · subst hp; simp [ChildOf, Node.HasChild, hfree]
  · simp [ChildOf, hp]

/-- The children of a node that may be allocated are nodes without a parent. -/
theorem State.MayBeParent.child (h : s.MayBeParent n) {c : NodeId} (hc : n.HasChild c) :
    (s.slot c).isSome = true ∧ ∀ p, ¬ s.ChildOf c p := by
  obtain ⟨l, r, hch, rfl | rfl⟩ := hc <;> obtain ⟨-, hl, hr, nl, nr, hsl, hsr, -⟩ := h _ _ hch
  · exact ⟨by simp [hsl], hl⟩
  · exact ⟨by simp [hsr], hr⟩

/-- Allocating a leaf, or the parent of two nodes without one, keeps the forest. -/
theorem State.ForestInv.withNode (h : s.ForestInv) (hn : s.NEXT.val < 511) (hp : s.MayBeParent n) (k : Nat) :
    (s.withNode hn n k).ForestInv := by
  have hfree := h.free hn
  have hkeep := State.keepsNodes_withNode hn hfree n k
  have hold : ∀ y, (s.slot y).isSome = true → y ≠ ⟨s.NEXT.val, hn⟩ := by rintro y hy rfl; simp [hfree] at hy
  refine ⟨fun id => ?_, fun c p hc => ?_, fun p m l r hm hch => ?_, fun c p q hcp hcq => ?_,
    fun p m l r ml mr hm hch hl hr => ?_⟩
  · have hnext : (s.withNode hn n k).NEXT.val = s.NEXT.val + 1 := rfl
    rw [hnext, State.slot_withNode]
    by_cases hid : id = ⟨s.NEXT.val, hn⟩
    · subst hid; simp
    · have : id.val ≠ s.NEXT.val := fun e => hid (Fin.ext e)
      simp only [hid, if_false, h.slots id]; omega
  · rcases (State.childOf_withNode hn hfree n k c p).1 hc with hold | ⟨rfl, hnew⟩
    · exact h.childBelow c p hold
    · exact (h.slots c).1 (hp.child hnew).1
  · rw [State.slot_withNode] at hm
    split at hm
    · obtain rfl := Option.some.inj hm
      exact (hp l r hch).1
    · exact h.childrenDiffer p m l r hm hch
  · rcases (State.childOf_withNode hn hfree n k c p).1 hcp with hp₁ | ⟨rfl, hn₁⟩ <;>
      rcases (State.childOf_withNode hn hfree n k c q).1 hcq with hq₁ | ⟨rfl, hn₂⟩
    · exact h.childOnce c p q hp₁ hq₁
    · exact absurd hp₁ ((hp.child hn₂).2 p)
    · exact absurd hq₁ ((hp.child hn₁).2 q)
    · rfl
  · rw [State.slot_withNode] at hm
    split at hm
    · obtain rfl := Option.some.inj hm
      obtain ⟨-, -, -, nl, nr, hsl, hsr, hsum⟩ := hp l r hch
      rw [State.slot_withNode, if_neg (hold l (by simp [hsl])), hsl] at hl
      rw [State.slot_withNode, if_neg (hold r (by simp [hsr])), hsr] at hr
      obtain rfl := Option.some.inj hl
      obtain rfl := Option.some.inj hr
      exact hsum
    · have hbelow : ∀ c, s.ChildOf c p → c ≠ ⟨s.NEXT.val, hn⟩ := by
        rintro c hc rfl
        have hlt := h.childBelow _ p hc
        have hpn := (h.slots p).1 (by simp [hm])
        simp only at hlt
        omega
      rw [State.slot_withNode, if_neg (hbelow l ⟨m, l, r, hm, hch, .inl rfl⟩)] at hl
      rw [State.slot_withNode, if_neg (hbelow r ⟨m, l, r, hm, hch, .inr rfl⟩)] at hr
      exact h.sums p m l r ml mr hm hch hl hr

/-- The new node is its children's parent, so they no longer wait. -/
theorem State.LinkInv.withNode (h : s.LinkInv n.HasChild) (hf : s.ForestInv) (hn : s.NEXT.val < 511)
    (hp : s.MayBeParent n) (k : Nat) : (s.withNode hn n k).LinkInv fun _ => False := by
  have hfree := hf.free hn
  refine ⟨fun c m hm => ?_, fun id m hm => ?_, fun id hid => ?_⟩
  · simp only [State.childOf_withNode hn hfree]
    rw [State.slot_withNode] at hm
    split at hm
    · rename_i hc
      subst hc
      obtain rfl := Option.some.inj hm
      have hno : ¬ n.HasChild ⟨s.NEXT.val, hn⟩ := fun hc => by simpa [hfree] using (hp.child hc).1
      have hno' : ∀ p, ¬ s.ChildOf ⟨s.NEXT.val, hn⟩ p := by
        intro p hc
        have hlt := hf.childBelow _ p hc
        obtain ⟨m, l, r, hm, -⟩ := hc
        have hpn := (hf.slots p).1 (by simp [hm])
        simp only at hlt
        omega
      simp [hno, hno']
    · rw [h.childIff c m hm]
      simp [exists_or]
  · rw [State.slot_withNode] at hm
    split at hm
    · rename_i hid
      subst hid
      obtain rfl := Option.some.inj hm
      have hno : s.ROOT ≠ some ⟨s.NEXT.val, hn⟩ := fun e => by simpa [hfree] using h.rootAllocated _ e
      have hroot : (s.withNode hn n k).ROOT = s.ROOT := rfl
      simp [hroot, hno]
    · exact h.rootIff id m hm
  · exact (State.keepsNodes_withNode hn hfree n k).isSome (h.rootAllocated id hid)

/-- The place `positionFor` counts is the one the order gives the new node. -/
theorem State.positionFor_eq (hb : before.TieBreak) (hn : s.NEXT.val < 511) (n : Node) (k : Nat) :
    s.positionFor before hn n =
      s.PQ.countP fun e => (s.withNode hn n k).beforeBy before e ⟨s.NEXT.val, hn⟩ := by
  refine congrArg (List.countP · s.PQ) (funext fun e => ?_)
  have hplaced := s.tag_placed hn n k
  rw [State.beforeIn_eq_beforeBy ((State.slot_setSlot _ _ _ _).trans (if_pos rfl)), ← hplaced]
  exact (State.KeepsNodes.beforeBy_eq hb ((State.KeepsNodes.of_N_eq rfl).trans (State.keepsNodes_setTag _ _ _))
    ((State.setTag_keepsNodes _ _ _).trans (.of_N_eq rfl))).symm

/-- The new node enters the queue at its place. -/
theorem State.QueueInv.withNode (hb : before.TieBreak) (h : s.QueueInv before) (hf : s.ForestInv)
    (hn : s.NEXT.val < 511) (hlen : s.PQ.length < 256) (n : Node) :
    (s.withNode hn n (s.positionFor before hn n)).QueueInv before := by
  refine h.insert (x := ⟨s.NEXT.val, hn⟩) (n := { n with st := .queued }) hb ?_ (fun y hy => by simp [hy]) (by simp) rfl ?_ hlen
  · intro hmem
    simpa [hf.free hn] using h.readable _ hmem
  · rw [← State.positionFor_eq hb]; rfl

end parts

end Sys2Proof.Machine

namespace Sys2Proof.Machine

/-! ## The engine's operations keep the arena's invariants

For every tie-break (93_implementation_defined.md U1), so that they serve the commands and the laws for every comparator. -/

section engine
variable {before : Comparator} {s t : State} {x y : NodeId} {n : Node} {rest : List NodeId}

/-- The front of the queue is a QUEUED node. -/
theorem State.QueueInv.front (h : s.QueueInv before) (hPQ : s.PQ = x :: rest) : ∃ n, s.slot x = some n ∧ n.st = .queued :=
  (h.queuedIff x).1 (by simp [hPQ])

/-- The front leaves the queue and is tagged otherwise. -/
theorem State.QueueInv.setTag_front (h : s.QueueInv before) (hPQ : s.PQ = x :: rest) {tag : Tag} (htag : tag ≠ .queued) :
    ((s.setQueue rest).setTag x tag).QueueInv before := by
  obtain ⟨n, hn, -⟩ := h.front hPQ
  exact h.removeFront (n := { n with st := tag }) hPQ (fun y hy => by simp [hy]) (by simp [hn]) htag rfl

/-- The front leaves the queue and is tagged HELD or CHILD. -/
theorem State.LinkInv.setTag_front {pending : NodeId → Prop} (h : s.LinkInv pending) (hq : s.QueueInv before)
    (hPQ : s.PQ = x :: rest) {tag : Tag} (htag : tag ≠ .root) :
    ((s.setQueue rest).setTag x tag).LinkInv fun c => pending c ∨ c = x ∧ tag = .child := by
  obtain ⟨n, hn, hst⟩ := hq.front hPQ
  have hrest : (s.setQueue rest).LinkInv pending := h.congr rfl rfl
  exact hrest.setTag (n := n) hn (by simp [hst]) (by simp [hst]) htag

/-- The forest does not depend on the queue. -/
theorem State.ForestInv.setQueue (h : s.ForestInv) (pq : List NodeId) : (s.setQueue pq).ForestInv :=
  h.of_keepsNodes (.of_N_eq rfl) (.of_N_eq rfl) rfl

/-- DEQ's effect (R100). -/
theorem State.ArenaInv.dequeue (h : s.ArenaInv before) (hPQ : s.PQ = x :: rest) :
    ((s.setQueue rest).setTag x .held).ArenaInv before where
  forest := (h.forest.setQueue rest).setTag x .held
  queue := h.queue.setTag_front hPQ (by decide)
  links := by simpa using h.links.setTag_front h.queue hPQ (tag := .held) (by decide)

/-- The state BUILD's drain leaves: the front is the root (R109). -/
def State.drained (s : State) (r : NodeId) (rest : List NodeId) : State :=
  { (s.setQueue rest).setTag r .root with ROOT := some r, BUILT := true }

/-- BUILD's drain (R109). -/
theorem State.ArenaInv.drain (h : s.ArenaInv before) (hroot : s.ROOT = none) (hPQ : s.PQ = x :: rest) :
    (s.drained x rest).ArenaInv before := by
  obtain ⟨n, hn, hst⟩ := h.queue.front hPQ
  have hforest := (h.forest.setQueue rest).setTag x .root
  exact {
    forest := hforest.of_keepsNodes (.of_N_eq rfl) (.of_N_eq rfl) rfl
    queue := (h.queue.setTag_front hPQ (tag := .root) (by decide)).congr rfl rfl
    links := h.links.setRoot hn (by simp [hst]) hroot rfl rfl }

/-- Enqueueing a HELD node (R92, R98). -/
theorem State.ArenaInv.enqueue (hb : before.TieBreak) (h : s.ArenaInv before) (hx : s.slot x = some n) (hst : n.st = .held)
    (hlen : s.PQ.length < 256) (he : s.enqueue before x = .done () t) : t.ArenaInv before := by
  obtain ⟨m, hm, -, rfl⟩ := State.enqueue_done he
  obtain rfl : n = m := Option.some.inj (hx.symm.trans hm)
  have hlinks : (s.setQueue (insertAt s.PQ (s.PQ.countP (s.beforeIn before x n)) x)).LinkInv fun _ => False :=
    h.links.congr rfl rfl
  refine ⟨(h.forest.setQueue _).setTag x .queued, ?_, ?_⟩
  · refine h.queue.insert (x := x) (n := { n with st := .queued }) hb ?_ (fun y hy => by simp [hy]) (by simp [hx]) rfl ?_ hlen
    · intro hmem
      obtain ⟨m, hm, hq⟩ := (h.queue.queuedIff x).1 hmem
      obtain rfl : n = m := Option.some.inj (hx.symm.trans hm)
      simp [hst] at hq
    · refine congrArg (fun r => insertAt s.PQ (s.PQ.countP r) x) (funext fun e => ?_)
      rw [State.beforeIn_eq_beforeBy hx]
      exact (State.KeepsNodes.beforeBy_eq hb (s.setQueue_setTag_keepsNodes _ x .queued)
        (s.keepsNodes_of_setQueue_setTag _ x .queued)).symm
  · simpa using hlinks.setTag (n := n) hx (by simp [hst]) (by simp [hst]) (tag := .queued) (by decide)

/-- Placing a node at NEXT whose children, if any, are already tagged CHILD. -/
theorem State.arenaInv_withNode (hb : before.TieBreak) (hf : s.ForestInv) (hq : s.QueueInv before)
    (hl : s.LinkInv n.HasChild) (hp : s.MayBeParent n) (hn : s.NEXT.val < 511) (hlen : s.PQ.length < 256) :
    (s.withNode hn n (s.positionFor before hn n)).ArenaInv before :=
  ⟨hf.withNode hn hp _, hq.withNode hb hf hn hlen n, hl.withNode hf hn hp _⟩

/-- `new_leaf` where there is room and every entry of the queue names a node (R94). -/
theorem State.newLeaf_readable (sym : Byte) (f : Freq) (hq : s.QueueReadable) (hn : s.NEXT.val < 511)
    (hlen : s.PQ.length < 256) : s.newLeaf before sym f =
      .done ⟨s.NEXT.val, hn⟩ (s.withNode hn ⟨sym, f, none, .held⟩ (s.positionFor before hn ⟨sym, f, none, .held⟩)) := by
  rw [newLeaf, if_neg (by omega), if_neg (by rw [pqLen]; omega), State.allocate_readable s before sym f none hn hq]

/-- `new_leaf` keeps the invariants (R94). -/
theorem State.ArenaInv.newLeaf (hb : before.TieBreak) (h : s.ArenaInv before) {sym : Byte} {f : Freq} {id : NodeId}
    (hl : s.newLeaf before sym f = .done id t) : t.ArenaInv before := by
  obtain ⟨hn, hlen, -⟩ := State.newLeaf_done hl
  rw [State.newLeaf_readable sym f h.queue.readable hn hlen, RuleResult.done.injEq] at hl
  obtain ⟨-, rfl⟩ := hl
  have hleaf : Node.HasChild ⟨sym, f, none, .held⟩ = fun _ => False := by
    funext c; simp [Node.HasChild]
  exact State.arenaInv_withNode hb h.forest h.queue (hleaf ▸ h.links) (by simp [MayBeParent]) hn hlen

/-! ### merge_step -/

/-- The node a merge step allocates over `x` and `y` (R106). -/
def mergedNode (x y : NodeId) (nx ny : Node) : Node :=
  ⟨Config.sentinel, BitVec.ofNat 32 (nx.frequency.toNat + ny.frequency.toNat), some (x, y), .held⟩

/-- The state a merge step leaves (R106). -/
def State.merged (s : State) (before : Comparator) (hn : s.NEXT.val < 511) (x y : NodeId) (rest : List NodeId)
    (nx ny : Node) : State :=
  (s.consumed x y rest).withNode hn (mergedNode x y nx ny)
    ((s.consumed x y rest).positionFor before hn (mergedNode x y nx ny))

theorem State.keepsNodes_consumed (s : State) (x y : NodeId) (rest : List NodeId) : s.KeepsNodes (s.consumed x y rest) :=
  ((State.KeepsNodes.of_N_eq rfl).trans (State.keepsNodes_setTag (s.setQueue rest) x .child)).trans
    (State.keepsNodes_setTag _ y .child)

theorem State.consumed_keepsNodes (s : State) (x y : NodeId) (rest : List NodeId) : (s.consumed x y rest).KeepsNodes s :=
  ((State.setTag_keepsNodes _ y .child).trans (State.setTag_keepsNodes (s.setQueue rest) x .child)).trans
    (.of_N_eq rfl)

/-- `merge_step` where all three checks pass and every entry of the queue names a node (R106). -/
theorem State.mergeStep_readable {nx ny : Node} (hq : s.QueueReadable) (hPQ : s.PQ = x :: y :: rest)
    (hx : s.slot x = some nx) (hy : s.slot y = some ny) (hn : s.NEXT.val < 511)
    (hsum : nx.frequency.toNat + ny.frequency.toNat < 2 ^ 32) :
    s.mergeStep before = .done ⟨s.NEXT.val, hn⟩ (s.merged before hn x y rest nx ny) := by
  have hread : (s.consumed x y rest).QueueReadable := fun e he =>
    (s.keepsNodes_consumed x y rest).isSome (hq e (by rw [hPQ]; exact List.mem_cons_of_mem _ (List.mem_cons_of_mem _ he)))
  have hcap : ¬ s.NEXT.val > 510 := by omega
  have hfit : ¬ nx.frequency.toNat + ny.frequency.toNat ≥ 2 ^ 32 := by omega
  simp only [mergeStep, hPQ, hcap, hx, hy, hfit, if_false]
  exact State.allocate_readable (s.consumed x y rest) before _ _ _ hn hread

/-- A completed merge step under the invariants: what it found, and the state it left. -/
theorem State.mergeStep_done_readable {p : NodeId} (hq : s.QueueReadable) (h : s.mergeStep before = .done p t) :
    ∃ x y rest nx ny, s.PQ = x :: y :: rest ∧ s.slot x = some nx ∧ s.slot y = some ny ∧
      nx.frequency.toNat + ny.frequency.toNat < 2 ^ 32 ∧ ∃ hn : s.NEXT.val < 511, t = s.merged before hn x y rest nx ny := by
  obtain ⟨x, y, rest, nx, ny, hPQ, hx, hy, hsum, hn, -⟩ := State.mergeStep_done h
  rw [State.mergeStep_readable hq hPQ hx hy hn hsum, RuleResult.done.injEq] at h
  exact ⟨x, y, rest, nx, ny, hPQ, hx, hy, hsum, hn, h.2.symm⟩

/-- After the two removals x and y are tagged CHILD and wait for their parent. -/
theorem State.ArenaInv.consumed_links (h : s.ArenaInv before) (hPQ : s.PQ = x :: y :: rest) :
    (s.consumed x y rest).QueueInv before ∧ (s.consumed x y rest).LinkInv fun c => c = x ∨ c = y := by
  have hq₁ := h.queue.setTag_front hPQ (tag := .child) (by decide)
  have hl₁ := h.links.setTag_front h.queue hPQ (tag := .child) (by decide)
  have hq₂ := hq₁.setTag_front (x := y) (rest := rest) rfl (tag := .child) (by decide)
  have hl₂ : (s.consumed x y rest).LinkInv _ := hl₁.setTag_front hq₁ (x := y) (rest := rest) rfl (tag := .child) (by decide)
  exact ⟨hq₂, by simpa using hl₂⟩

/-- The node of a merge step may be allocated: its children were different QUEUED nodes, which have no parent. -/
theorem State.ArenaInv.mayBeParent_merged (h : s.ArenaInv before) (hPQ : s.PQ = x :: y :: rest) {nx ny : Node}
    (hx : s.slot x = some nx) (hy : s.slot y = some ny) (hsum : nx.frequency.toNat + ny.frequency.toNat < 2 ^ 32) :
    (s.consumed x y rest).MayBeParent (mergedNode x y nx ny) := by
  have hnodup := h.queue.distinct
  rw [hPQ] at hnodup
  have hxy : x ≠ y := by rintro rfl; simp at hnodup
  have hparentless : ∀ c ∈ s.PQ, ∀ p, ¬ (s.consumed x y rest).ChildOf c p := by
    intro c hc p hcp
    obtain ⟨m, hm, hst⟩ := (h.queue.queuedIff c).1 hc
    have hchild := (h.links.childIff c m hm).2 (.inl ⟨p, (s.consumed_keepsNodes x y rest).childOf hcp⟩)
    simp [hst] at hchild
  rintro l r hlr
  obtain ⟨rfl, rfl⟩ : x = l ∧ y = r := by simpa [mergedNode] using hlr
  obtain ⟨a, ha⟩ := s.keepsNodes_consumed x y rest x nx hx
  obtain ⟨b, hb⟩ := s.keepsNodes_consumed x y rest y ny hy
  refine ⟨hxy, hparentless x (by simp [hPQ]), hparentless y (by simp [hPQ]), _, _, ha, hb, ?_, rfl⟩
  simp only [mergedNode, BitVec.toNat_ofNat]
  omega

/-- `merge_step` keeps the invariants (R106). -/
theorem State.ArenaInv.mergeStep (hb : before.TieBreak) (h : s.ArenaInv before) {p : NodeId}
    (hm : s.mergeStep before = .done p t) : t.ArenaInv before := by
  obtain ⟨x, y, rest, nx, ny, hPQ, hx, hy, hsum, hn, rfl⟩ := State.mergeStep_done_readable h.queue.readable hm
  obtain ⟨hq, hl⟩ := h.consumed_links hPQ
  have hf : (s.consumed x y rest).ForestInv :=
    h.forest.of_keepsNodes (s.keepsNodes_consumed x y rest) (s.consumed_keepsNodes x y rest) rfl
  have hchild : (mergedNode x y nx ny).HasChild = fun c => c = x ∨ c = y := by
    funext c; simp [Node.HasChild, mergedNode]
  have hlen : (s.consumed x y rest).PQ.length < 256 := by
    have := h.queue.bound
    rw [hPQ] at this
    rw [List.length_cons, List.length_cons] at this
    show rest.length < 256
    omega
  exact State.arenaInv_withNode hb hf hq (hchild ▸ hl) (h.mayBeParent_merged hPQ hx hy hsum) hn hlen

end engine

end Sys2Proof.Machine

namespace Sys2Proof.Machine

/-! ## What a command can do

`ruleOf` is the rule behind each command; `RuleFrame` says once, per command, which fields its rule may write. -/

/-- The rule of each command, with this hardware's straps and comparator. -/
def ruleOf : Instr → State → RuleResult Reply
  | .reset => resetRule Config.padBit
  | .rdreg reg => rdregRule reg
  | .nodeRd id field => nodeRdRule id field
  | .freqWr sym count => freqWrRule sym count
  | .seed => seedRule nodeBefore
  | .srcerr => srcerrRule
  | .enql sym freq => enqlRule nodeBefore sym freq
  | .enq id => enqRule nodeBefore id
  | .deq => deqRule
  | .merge => mergeRule nodeBefore
  | .build => buildRule nodeBefore
  | .ser => serRule Config.serOrder
  | .mktab => mktabRule
  | .codeRd sym chunk => codeRdRule sym chunk
  | .emit sym => emitRule sym
  | .openSink => openRule
  | .wbits value width => wbitsRule value width
  | .closeSink => closeRule Config.padBit

/-- RESET and the read class run in every state (R166). -/
theorem exec_always {i : Instr} (s : State) (h : i = .reset ∨ i.readClass = true) : exec i s = s.runAlways (ruleOf i) := by
  rcases h with rfl | h
  · rfl
  · cases i with
    | rdreg _ | nodeRd _ _ | codeRd _ _ => rfl
    | _ => simp [Instr.readClass] at h

/-- Every other command is refused while FAULTED (R166, R181). -/
theorem exec_unlessFaulted {i : Instr} (s : State) (hr : i ≠ .reset) (hc : i.readClass = false) :
    exec i s = s.runUnlessFaulted (ruleOf i) := by
  cases i with
  | reset => exact absurd rfl hr
  | rdreg _ | nodeRd _ _ | codeRd _ _ => simp [Instr.readClass] at hc
  | _ => rfl

/-- A command with a next state was refused, or its rule completed, or its rule raised. -/
theorem exec_next {i : Instr} {s t : State} (h : exec i s = .next t) :
    (i ≠ .reset ∧ s.FAULT ≠ 0 ∧ t = s.refuse) ∨ (∃ a u, ruleOf i s = .done a u ∧ t = u.respond 0 a.aux a.val) ∨
      ∃ f u, ruleOf i s = .raised f u ∧ t = u.raise f := by
  by_cases hi : i = .reset ∨ i.readClass = true
  · rw [exec_always s hi] at h
    exact .inr (RuleResult.finish_next h)
  · simp only [not_or, Bool.not_eq_true] at hi
    rw [exec_unlessFaulted s hi.1 hi.2] at h
    rcases State.runUnlessFaulted_next h with ⟨hf, ht⟩ | ⟨-, hd⟩ | ⟨-, hr⟩
    · exact .inl ⟨hi.1, hf, ht⟩
    · exact .inr (.inl hd)
    · exact .inr (.inr hr)

/-- `P` holds of the state in which a rule, or a part of one, ends, whether it completes or raises. -/
def RuleResult.Leaves {α : Type} (P : State → Prop) : RuleResult α → Prop
  | .done _ u => P u
  | .raised _ u => P u
  | .stuck _ => True

section leaves
variable {α β : Type} {P Q : State → Prop}

@[simp] theorem RuleResult.leaves_done (a : α) (u : State) : (RuleResult.done a u).Leaves P ↔ P u := Iff.rfl
@[simp] theorem RuleResult.leaves_raised (f : FaultKind) (u : State) : (RuleResult.raised f u : RuleResult α).Leaves P ↔ P u := Iff.rfl
@[simp] theorem RuleResult.leaves_stuck (w : Fault) : (RuleResult.stuck w : RuleResult α).Leaves P := trivial

theorem RuleResult.leaves_iff {r : RuleResult α} :
    r.Leaves P ↔ (∀ a u, r = .done a u → P u) ∧ ∀ f u, r = .raised f u → P u := by
  cases r <;> simp

theorem RuleResult.Leaves.mono {r : RuleResult α} (h : r.Leaves P) (hPQ : ∀ u, P u → Q u) : r.Leaves Q := by
  cases r with
  | done a u => exact hPQ u h
  | raised f u => exact hPQ u h
  | stuck w => trivial

theorem RuleResult.Leaves.andThen {r : RuleResult α} {k : α → State → RuleResult β} (h : r.Leaves P)
    (hraise : ∀ u, P u → Q u) (hk : ∀ a u, r = .done a u → P u → (k a u).Leaves Q) : (r.andThen k).Leaves Q := by
  cases r with
  | done a u => exact hk a u rfl h
  | raised f u => exact hraise u h
  | stuck w => trivial

/-- What a command leaves is what its rule leaves, but for FAULT and the responses; a refusal leaves everything. -/
theorem exec_leaves {i : Instr} {s t : State} (h : exec i s = .next t) (hself : i ≠ .reset → P s)
    (hrule : (ruleOf i s).Leaves P) : ∃ u fault rsp, P u ∧ t = { u with FAULT := fault, rsp := rsp } := by
  rcases exec_next h with ⟨hi, -, rfl⟩ | ⟨a, u, hr, rfl⟩ | ⟨f, u, hr, rfl⟩
  · exact ⟨s, _, _, hself hi, rfl⟩
  · exact ⟨u, u.FAULT, _, by simpa [hr] using hrule, rfl⟩
  · exact ⟨u, _, _, by simpa [hr] using hrule, rfl⟩

end leaves

/-! ### The loops of SEED and BUILD -/

section loops
variable {before : Comparator} {P : State → Prop}

/-- What `new_leaf` keeps, the loop of SEED keeps (R83). -/
theorem State.seedFrom_leaves (hP : ∀ u sym f id v, P u → u.newLeaf before sym f = .done id v → P v) (syms : List Byte) :
    ∀ (s : State) (k : Nat), P s → (s.seedFrom before k syms).Leaves P := by
  induction syms with
  | nil => exact fun s k hs => hs
  | cons sym rest ih =>
    intro s k hs
    unfold seedFrom
    split
    · exact ih s k hs
    · cases hl : s.newLeaf before sym (s.freq sym) with
      | done id u => exact ih u (k + 1) (hP s sym _ id u hs hl)
      | raised f u => exact (State.newLeaf_raised hl).2.2 ▸ hs
      | stuck w => trivial

/-- What `merge_step` keeps, BUILD's loop keeps (R109). -/
theorem State.mergeAll_leaves (hP : ∀ u p v, P u → u.mergeStep before = .done p v → P v) (rounds : Nat) :
    ∀ s : State, P s → (s.mergeAll before rounds).Leaves P := by
  induction rounds with
  | zero => exact fun s hs => hs
  | succ rounds ih =>
    intro s hs
    unfold mergeAll
    split
    · cases hm : s.mergeStep before with
      | done p u => exact ih u (hP s p u hs hm)
      | raised f u => exact (State.mergeStep_raised hm).1 ▸ hs
      | stuck w => trivial
    · exact hs

theorem State.mergeStep_leaves (hP : ∀ u p v, P u → u.mergeStep before = .done p v → P v) {s : State} (hs : P s) :
    (s.mergeStep before).Leaves P :=
  RuleResult.leaves_iff.2 ⟨fun p u h => hP s p u hs h, fun _ _ h => (State.mergeStep_raised h).1 ▸ hs⟩

theorem State.newLeaf_leaves (hP : ∀ u sym f id v, P u → u.newLeaf before sym f = .done id v → P v) {s : State} (hs : P s)
    (sym : Byte) (f : Freq) : (s.newLeaf before sym f).Leaves P :=
  RuleResult.leaves_iff.2 ⟨fun id u h => hP s sym f id u hs h, fun _ _ h => (State.newLeaf_raised h).2.2 ▸ hs⟩

end loops

/-! ### The rules one by one

One lemma per rule that branches: `P` holds of what the rule leaves if it holds of each state the rule can end in. -/

section rules
variable {before : Comparator} {P : State → Prop} {s : State}

theorem rdregRule_leaves (hs : P s) (reg : BitVec 3) : (rdregRule reg s).Leaves P := by
  unfold rdregRule
  split <;> exact hs

theorem nodeRdRule_leaves (hs : P s) (id : BitVec 9) (field : BitVec 1) : (nodeRdRule id field s).Leaves P := by
  unfold nodeRdRule
  split
  · exact hs
  · split
    · exact hs
    · split
      · trivial
      · exact hs

/-- SEED's loop keeps what `new_leaf` keeps (R83). -/
theorem seedRule_leaves (hP : ∀ u sym f id v, P u → u.newLeaf before sym f = .done id v → P v) (hs : P s) :
    (seedRule before s).Leaves P :=
  State.seedFrom_leaves hP allSyms s 0 hs

theorem enqlRule_leaves (hP : ∀ u sym f id v, P u → u.newLeaf before sym f = .done id v → P v) (hs : P s) (sym : Byte)
    (freq : Freq) : (enqlRule before sym freq s).Leaves P :=
  (State.newLeaf_leaves hP hs sym freq).andThen (fun _ hu => hu) fun _ _ _ hu => hu

/-- ENQ leaves the state, or enqueues a HELD node where there is room (R98). -/
theorem enqRule_leaves (hs : P s) (henq : ∀ x n u, s.slot x = some n → n.st = .held → s.PQ.length < 256 →
    s.enqueue before x = .done () u → P u) (id : BitVec 9) : (enqRule before id s).Leaves P := by
  unfold enqRule
  split
  · exact hs
  · rename_i x _
    split
    · exact hs
    · split
      · trivial
      · rename_i n hn
        split
        · exact hs
        · rename_i hst
          split
          · exact hs
          · rename_i hlen
            cases he : s.enqueue before x with
            | done a u => exact henq x n u hn (not_not.1 hst) (not_le.1 hlen) he
            | raised f u => exact absurd he (State.enqueue_ne_raised s u before x f)
            | stuck w => trivial

/-- DEQ leaves the state, or takes the front and tags it HELD (R100). -/
theorem deqRule_leaves (hs : P s) (hdeq : ∀ x rest, s.PQ = x :: rest → P ((s.setQueue rest).setTag x .held)) :
    (deqRule s).Leaves P := by
  unfold deqRule
  rcases s.dequeue_cases with ⟨-, hd⟩ | ⟨x, rest, hPQ, hd⟩ <;> rw [hd]
  · exact hs
  · exact hdeq x rest hPQ

theorem mergeRule_leaves (hP : ∀ u p v, P u → u.mergeStep before = .done p v → P v) (hs : P s) :
    (mergeRule before s).Leaves P :=
  (State.mergeStep_leaves hP hs).andThen (fun _ hu => hu) fun _ _ _ hu => hu

/-- BUILD leaves the state, or only BUILT set, or what its loop leaves, or that drained (R109, R111). -/
theorem buildRule_leaves {Q : State → Prop} {s : State} (hP : ∀ u p v, P u → u.mergeStep before = .done p v → P v)
    (hs : P s) (hself : Q s) (hbuilt : s.ROOT = none → s.PQ = [] → Q { s with BUILT := true })
    (hloop : s.ROOT = none → ∀ u, P u → Q u)
    (hdrain : s.ROOT = none → s.PQ ≠ [] → ∀ u r rest, P u → u.PQ = r :: rest → Q (u.drained r rest)) :
    (buildRule before s).Leaves Q := by
  unfold buildRule
  split
  · exact hself
  · rename_i hroot
    have hroot : s.ROOT = none := by simpa using hroot
    split
    · rename_i hlen
      exact hbuilt hroot (List.length_eq_zero_iff.1 hlen)
    · rename_i hlen
      refine (State.mergeAll_leaves hP _ s hs).andThen (hloop hroot) fun _ u _ hu => ?_
      unfold State.drainRoot
      rcases u.dequeue_cases with ⟨-, hd⟩ | ⟨r, rest, hPQ, hd⟩ <;> rw [hd]
      · exact hloop hroot u hu
      · exact hdrain hroot (fun e => hlen (List.length_eq_zero_iff.2 e)) u r rest hu hPQ

/-- SER leaves the state, or puts bits into an open sink (R123). -/
theorem serRule_leaves (hs : P s) (hput : s.OPEN = true → ∀ bits, P (s.putBitSeq bits)) (order : SerOrder) :
    (serRule order s).Leaves P := by
  unfold serRule
  split
  · exact hs
  · rename_i ho
    split
    · exact hs
    · split
      · trivial
      · exact hput (Bool.not_eq_false _ ▸ ho) _

/-- EMIT leaves the state, or puts bits into an open sink (R138). -/
theorem emitRule_leaves (hs : P s) (hput : s.OPEN = true → ∀ bits, P (s.putBitSeq bits)) (sym : Byte) :
    (emitRule sym s).Leaves P := by
  unfold emitRule
  split
  · exact hs
  · rename_i ho
    split
    · exact hs
    · exact hput (Bool.not_eq_false _ ▸ ho) _

/-- WBITS leaves the state, or puts bits into an open sink (R150). -/
theorem wbitsRule_leaves (hs : P s) (hput : s.OPEN = true → ∀ bits, P (s.putBitSeq bits)) (value : Byte)
    (width : BitVec 16) : (wbitsRule value width s).Leaves P := by
  unfold wbitsRule
  split
  · exact hs
  · rename_i ho
    split
    · exact hs
    · exact hput (Bool.not_eq_false _ ▸ ho) _

/-- OPEN leaves the state, or the writer's registers cleared (R148). -/
theorem openRule_leaves (hs : P s) (hopen : P (s.clearWriter true)) : (openRule s).Leaves P := by
  unfold openRule
  split
  · exact hs
  · exact hopen

/-- CLOSE leaves the state, or flushes and clears the writer's registers (R152). -/
theorem closeRule_leaves {pad : Bool} (hs : P s) (hclose : P ((s.flushSink pad).clearWriter false)) :
    (closeRule pad s).Leaves P := by
  unfold closeRule
  split
  · exact hs
  · exact hclose

/-- MKTAB writes a table that its traversal made (R134). -/
theorem mktabRule_leaves (htable : ∀ table, s.codeTable = .ok table → P { s with CODE := table }) :
    (mktabRule s).Leaves P := by
  unfold mktabRule
  split
  · trivial
  · rename_i table ht
    exact htable table ht

end rules

/-! ### Which fields each rule may write -/

/-- The fields NEXT, N and PQ have been written. -/
def State.ArenaWritten (s u : State) : Prop := ∃ next N PQ, u = { s with NEXT := next, N := N, PQ := PQ }

/-- ACC and NBITS have been written, and OUT has been extended. -/
def State.BitsWritten (s u : State) : Prop :=
  ∃ acc nbits out, s.OUT <+: out ∧ u = { s with ACC := acc, NBITS := nbits, OUT := out }

theorem State.ArenaWritten.newLeaf {s u v : State} {before : Comparator} {sym : Byte} {f : Freq} {id : NodeId}
    (h : s.ArenaWritten u) (hl : u.newLeaf before sym f = .done id v) : s.ArenaWritten v := by
  obtain ⟨_, _, _, rfl⟩ := h
  obtain ⟨_, _, _, _, _, rfl⟩ := State.newLeaf_done hl
  exact ⟨_, _, _, rfl⟩

theorem State.ArenaWritten.mergeStep {s u v : State} {before : Comparator} {p : NodeId} (h : s.ArenaWritten u)
    (hm : u.mergeStep before = .done p v) : s.ArenaWritten v := by
  obtain ⟨_, _, _, rfl⟩ := h
  obtain ⟨_, _, _, _, _, _, _, _, _, _, _, _, _, rfl⟩ := State.mergeStep_done hm
  exact ⟨_, _, _, rfl⟩

theorem State.bitsWritten_putBit (s : State) (b : Bool) : s.BitsWritten (s.putBit b) := by
  unfold putBit
  split
  · exact ⟨_, _, s.OUT, List.prefix_refl _, rfl⟩
  · exact ⟨_, _, _, List.prefix_append _ _, rfl⟩

theorem State.bitsWritten_putBitSeq (s : State) (bits : List Bool) : s.BitsWritten (s.putBitSeq bits) := by
  induction bits generalizing s with
  | nil => exact ⟨_, _, s.OUT, List.prefix_refl _, rfl⟩
  | cons b rest ih =>
    obtain ⟨_, _, _, hout, hb⟩ := s.bitsWritten_putBit b
    obtain ⟨acc, nbits, out, hout', hr⟩ := ih (s.putBit b)
    rw [hb] at hout' hr
    exact ⟨acc, nbits, out, hout.trans hout', by rw [putBitSeq_cons, hb]; exact hr⟩

theorem State.flushSink_out (s : State) (pad : Bool) : ∃ out, s.OUT <+: out ∧ s.flushSink pad = { s with OUT := out } := by
  unfold flushSink
  split
  · exact ⟨_, List.prefix_append _ _, rfl⟩
  · exact ⟨_, (List.prefix_append _ _).trans (List.prefix_append _ _), rfl⟩

/-- What the rule of each command may write, in a state `s` it leaves as `u` (R40, 10_state.md R16 to R29). -/
def RuleFrame : Instr → State → State → Prop
  | .reset, s, u => ∃ out, s.OUT <+: out ∧ u = { State.reset with OUT := out, host := s.host, rsp := s.rsp }
  | .rdreg _, s, u | .nodeRd _ _, s, u | .codeRd _ _, s, u | .srcerr, s, u => u = s
  | .freqWr _ _, s, u => ∃ freq, u = { s with FREQ := freq }
  | .mktab, s, u => ∃ code, u = { s with CODE := code }
  | .enq _, s, u | .deq, s, u => ∃ N PQ, u = { s with N := N, PQ := PQ }
  | .seed, s, u | .enql _ _, s, u | .merge, s, u => s.ArenaWritten u
  | .build, s, u => s.ArenaWritten u ∨ s.ROOT = none ∧ ∃ next N PQ root, (root ≠ none → s.PQ ≠ []) ∧
      u = { s with NEXT := next, N := N, PQ := PQ, ROOT := root, BUILT := true }
  | .ser, s, u | .emit _, s, u | .wbits _ _, s, u => s.BitsWritten u
  | .openSink, s, u => ∃ o acc nbits, u = { s with OPEN := o, ACC := acc, NBITS := nbits }
  | .closeSink, s, u => ∃ o acc nbits out, s.OUT <+: out ∧
      u = { s with OPEN := o, ACC := acc, NBITS := nbits, OUT := out }

theorem State.bitsWritten_refl (s : State) : s.BitsWritten s := ⟨_, _, _, List.prefix_refl _, rfl⟩

theorem State.arenaWritten_refl (s : State) : s.ArenaWritten s := ⟨_, _, _, rfl⟩

/-- A rule other than RESET's may leave the state as it is. -/
theorem ruleFrame_refl {i : Instr} (s : State) (h : i ≠ .reset) : RuleFrame i s s := by
  cases i with
  | reset => exact absurd rfl h
  | rdreg _ | nodeRd _ _ | codeRd _ _ | srcerr => rfl
  | freqWr _ _ | mktab => exact ⟨_, rfl⟩
  | enq _ | deq => exact ⟨_, _, rfl⟩
  | seed | enql _ _ | merge => exact s.arenaWritten_refl
  | build => exact .inl s.arenaWritten_refl
  | ser | emit _ | wbits _ _ => exact s.bitsWritten_refl
  | openSink => exact ⟨_, _, _, rfl⟩
  | closeSink => exact ⟨_, _, _, _, List.prefix_refl _, rfl⟩

/-- Each rule keeps to its frame, whether it completes or raises. -/
theorem rule_frame (i : Instr) (s : State) : (ruleOf i s).Leaves (RuleFrame i s) := by
  have hself : i ≠ .reset → RuleFrame i s s := ruleFrame_refl s
  cases i with
  | reset =>
    by_cases ho : s.OPEN = true
    · obtain ⟨out, hout, hf⟩ := s.flushSink_out Config.padBit
      exact ⟨out, hout, by rw [if_pos ho, hf]; rfl⟩
    · exact ⟨s.OUT, List.prefix_refl _, by rw [if_neg ho]; rfl⟩
  | rdreg reg => exact rdregRule_leaves (hself (by simp)) reg
  | nodeRd id field => exact nodeRdRule_leaves (hself (by simp)) id field
  | freqWr sym count => exact ⟨_, rfl⟩
  | srcerr => rfl
  | codeRd sym chunk => rfl
  | seed => exact seedRule_leaves (fun _ _ _ _ _ => .newLeaf) s.arenaWritten_refl
  | enql sym freq => exact enqlRule_leaves (fun _ _ _ _ _ => .newLeaf) s.arenaWritten_refl sym freq
  | enq id =>
    refine enqRule_leaves (hself (by simp)) (fun x n u _ _ _ he => ?_) id
    obtain ⟨_, _, _, rfl⟩ := State.enqueue_done he
    exact ⟨_, _, rfl⟩
  | deq => exact deqRule_leaves (hself (by simp)) fun _ _ _ => ⟨_, _, rfl⟩
  | merge => exact mergeRule_leaves (fun _ _ _ => .mergeStep) s.arenaWritten_refl
  | build =>
    refine buildRule_leaves (fun _ _ _ => .mergeStep) s.arenaWritten_refl (hself (by simp)) ?_ (fun _ _ => .inl) ?_
    · exact fun hroot _ => .inr ⟨hroot, _, _, _, none, by simp, by rw [← hroot]⟩
    · rintro hroot hPQ u r rest ⟨_, _, _, rfl⟩ -
      exact .inr ⟨hroot, _, _, _, some r, fun _ => hPQ, rfl⟩
  | ser => exact serRule_leaves (hself (by simp)) (fun _ => s.bitsWritten_putBitSeq) _
  | mktab => exact mktabRule_leaves fun table _ => ⟨table, rfl⟩
  | emit sym => exact emitRule_leaves (hself (by simp)) (fun _ => s.bitsWritten_putBitSeq) sym
  | openSink => exact openRule_leaves (hself (by simp)) ⟨_, _, _, rfl⟩
  | wbits value width => exact wbitsRule_leaves (hself (by simp)) (fun _ => s.bitsWritten_putBitSeq) value width
  | closeSink =>
    obtain ⟨out, hout, hf⟩ := s.flushSink_out Config.padBit
    exact closeRule_leaves (hself (by simp)) ⟨_, _, _, out, hout, by rw [hf]; rfl⟩

/-- A command writes what its rule may write, FAULT and one response. -/
theorem exec_frame {i : Instr} {s t : State} (h : exec i s = .next t) :
    ∃ u fault rsp, RuleFrame i s u ∧ t = { u with FAULT := fault, rsp := rsp } :=
  exec_leaves h (ruleFrame_refl s) (rule_frame i s)

/-- Which commands other than RESET write each field (R16, R20, R26, R40). -/
structure WritesOnly (i : Instr) (s u : State) : Prop where
  host : u.host = s.host
  rsp : u.rsp = s.rsp
  FAULT : u.FAULT = s.FAULT
  FREQ : (∀ sym count, i ≠ .freqWr sym count) → u.FREQ = s.FREQ
  CODE : i ≠ .mktab → u.CODE = s.CODE
  NEXT : u.NEXT = s.NEXT ∨ i = .seed ∨ i = .merge ∨ i = .build ∨ ∃ sym freq, i = .enql sym freq
  arena : (u.N = s.N ∧ u.PQ = s.PQ) ∨ i = .seed ∨ i = .merge ∨ i = .build ∨ i = .deq ∨ (∃ id, i = .enq id) ∨
    ∃ sym freq, i = .enql sym freq
  ROOT : i ≠ .build → u.ROOT = s.ROOT ∧ u.BUILT = s.BUILT
  writer : (u.OPEN = s.OPEN ∧ u.ACC = s.ACC ∧ u.NBITS = s.NBITS) ∨ i = .openSink ∨ i = .ser ∨ i = .closeSink ∨
    (∃ sym, i = .emit sym) ∨ ∃ value width, i = .wbits value width
  OUT : u.OUT = s.OUT ∨ i = .ser ∨ i = .closeSink ∨ (∃ sym, i = .emit sym) ∨ ∃ value width, i = .wbits value width
  outGrows : s.OUT <+: u.OUT

/-- The frames of the rules, field by field. -/
theorem RuleFrame.writesOnly {i : Instr} {s u : State} (h : RuleFrame i s u) (hi : i ≠ .reset) : WritesOnly i s u := by
  cases i with
  | reset => exact absurd rfl hi
  | rdreg _ | nodeRd _ _ | codeRd _ _ | srcerr =>
    obtain rfl : u = s := h
    constructor <;> simp
  | freqWr _ _ | mktab =>
    obtain ⟨_, rfl⟩ := h
    constructor <;> simp
  | enq _ | deq =>
    obtain ⟨_, _, rfl⟩ := h
    constructor <;> simp
  | seed | enql _ _ | merge =>
    obtain ⟨_, _, _, rfl⟩ := h
    constructor <;> simp
  | build =>
    obtain ⟨_, _, _, rfl⟩ | ⟨_, _, _, _, _, _, rfl⟩ := h <;> constructor <;> simp
  | ser | emit _ | wbits _ _ =>
    obtain ⟨_, _, _, hout, rfl⟩ := h
    constructor <;> simp [hout]
  | openSink =>
    obtain ⟨_, _, _, rfl⟩ := h
    constructor <;> simp
  | closeSink =>
    obtain ⟨_, _, _, _, hout, rfl⟩ := h
    constructor <;> simp [hout]

/-- A command other than RESET writes what its rule may write, FAULT and one response. -/
theorem exec_writesOnly {i : Instr} {s t : State} (h : exec i s = .next t) (hi : i ≠ .reset) :
    ∃ u fault rsp, WritesOnly i s u ∧ t = { u with FAULT := fault, rsp := rsp } := by
  obtain ⟨u, fault, rsp, hu, ht⟩ := exec_frame h
  exact ⟨u, fault, rsp, hu.writesOnly hi, ht⟩

/-! ### Invariants of the arena, of commands and of steps -/

/-- `P` reads the arena alone and is kept by each operation that commands other than RESET and DEQ use on it. -/
structure ArenaClosed (before : Comparator) (P : State → Prop) : Prop where
  congr : ∀ u v, v.NEXT = u.NEXT → v.N = u.N → v.PQ = u.PQ → v.ROOT = u.ROOT → P u → P v
  newLeaf : ∀ u sym f id v, P u → u.newLeaf before sym f = .done id v → P v
  mergeStep : ∀ u p v, P u → u.mergeStep before = .done p v → P v
  enqueue : ∀ u x n v, P u → u.slot x = some n → n.st = .held → u.PQ.length < 256 → u.enqueue before x = .done () v → P v
  drain : ∀ u r rest, P u → u.ROOT = none → u.PQ = r :: rest → P (u.drained r rest)

/-- DEQ keeps `P`. -/
def DeqClosed (P : State → Prop) : Prop := ∀ u x rest, P u → u.PQ = x :: rest → P ((u.setQueue rest).setTag x .held)

section invariants
variable {P : State → Prop} {i : Instr} {s t : State}

/-- What the engine's operations keep, every rule but RESET's keeps. -/
theorem rule_keeps_arena (hP : ArenaClosed nodeBefore P) (hdeq : i = .deq → DeqClosed P) (hi : i ≠ .reset) (hs : P s) :
    (ruleOf i s).Leaves P := by
  have hframe := rule_frame i s
  cases i with
  | reset => exact absurd rfl hi
  | seed => exact seedRule_leaves hP.newLeaf hs
  | enql sym freq => exact enqlRule_leaves hP.newLeaf hs sym freq
  | enq id => exact enqRule_leaves hs (fun x n u hn hst hlen he => hP.enqueue s x n u hs hn hst hlen he) id
  | deq => exact deqRule_leaves hs fun x rest hPQ => hdeq rfl s x rest hs hPQ
  | merge => exact mergeRule_leaves hP.mergeStep hs
  | build =>
    have hloop : ∀ u p v, s.ArenaWritten u ∧ P u → u.mergeStep nodeBefore = .done p v → s.ArenaWritten v ∧ P v :=
      fun u p v hu hm => ⟨hu.1.mergeStep hm, hP.mergeStep u p v hu.2 hm⟩
    refine buildRule_leaves hloop ⟨s.arenaWritten_refl, hs⟩ hs (fun _ _ => ?_) (fun _ _ hu => hu.2) ?_
    · exact hP.congr s _ rfl rfl rfl rfl hs
    · rintro hroot - u r rest ⟨⟨_, _, _, rfl⟩, hu⟩ hPQ
      exact hP.drain _ r rest hu hroot hPQ
  | rdreg _ | nodeRd _ _ | codeRd _ _ | srcerr => exact hframe.mono fun u hu => hu ▸ hs
  | freqWr _ _ | mktab => exact hframe.mono fun u ⟨_, hu⟩ => hu ▸ hP.congr s _ rfl rfl rfl rfl hs
  | ser | emit _ | wbits _ _ => exact hframe.mono fun u ⟨_, _, _, _, hu⟩ => hu ▸ hP.congr s _ rfl rfl rfl rfl hs
  | openSink => exact hframe.mono fun u ⟨_, _, _, hu⟩ => hu ▸ hP.congr s _ rfl rfl rfl rfl hs
  | closeSink => exact hframe.mono fun u ⟨_, _, _, _, _, hu⟩ => hu ▸ hP.congr s _ rfl rfl rfl rfl hs

/-- What the engine's operations keep, every command but RESET keeps. -/
theorem exec_keeps_arena (hP : ArenaClosed nodeBefore P) (hdeq : i = .deq → DeqClosed P) (hi : i ≠ .reset)
    (h : exec i s = .next t) (hs : P s) : P t := by
  obtain ⟨u, fault, rsp, hu, rfl⟩ := exec_leaves h (fun _ => hs) (rule_keeps_arena hP hdeq hi hs)
  exact hP.congr u _ rfl rfl rfl rfl hu

/-- What does not read the presented words, and is kept by the platform's reset, an illegal word and every command, is kept
by every step (R160, R200). -/
theorem step_keeps (hhost : ∀ u host, P u → P { u with host := host }) (hreset : ∀ u, P u → P u.release)
    (hraise : ∀ u f, P u → P (u.raise f)) (hexec : ∀ i u v, exec i u = .next v → P u → P v) (hs : P s)
    (h : step s = .next t) : P t := by
  unfold step State.nextPresented at h
  cases hh : s.host with
  | nil =>
    simp only [hh, State.idle, Host.Outcome.next.injEq] at h
    exact h ▸ hs
  | cons e rest =>
    have hs' := hhost s rest hs
    cases e with
    | hardwareReset =>
      simp only [hh, Host.Outcome.next.injEq] at h
      exact h ▸ hreset _ hs'
    | command w =>
      simp only [hh] at h
      cases hd : decode w with
      | illegal why =>
        simp only [hd, Host.Outcome.next.injEq] at h
        exact h ▸ hraise _ .illegalCommand hs'
      | instr i => exact hexec i _ t (by simpa only [hd] using h) hs'

end invariants

end Sys2Proof.Machine

namespace Sys2Proof.Machine

/-! ## Responses, faults, and who writes what -/

/-- RESET always completes, and what it leaves is the reset state but for OUT and the host's side (R161). -/
theorem exec_reset {s t : State} (h : exec .reset s = .next t) :
    ∃ out, s.OUT <+: out ∧
      t = { State.reset with OUT := out, host := s.host, rsp := s.rsp ++ [responseWord 0 0 0] } := by
  obtain ⟨out, hout, hu⟩ := rule_frame .reset s
  have ht := Host.Outcome.next.inj h
  exact ⟨out, hout, by rw [← ht, hu]; rfl⟩

/-- Settles O10: the three ways a command ends each append one response (R63, R160, R180, R181). -/
theorem oneResponseAndFirstFaultKept : Obligations.OneResponseAndFirstFaultKept := by
  intro i s t h
  by_cases hi : i = .reset
  · subst hi
    obtain ⟨out, -, rfl⟩ := exec_reset h
    exact ⟨rfl, 0, 0, 0, rfl, by simp, by simp, fun _ => ⟨rfl, rfl⟩⟩
  · have hw : (ruleOf i s).Leaves (WritesOnly i s) := (rule_frame i s).mono fun u hu => hu.writesOnly hi
    rcases exec_next h with ⟨-, hf, rfl⟩ | ⟨a, u, hr, rfl⟩ | ⟨f, u, hr, rfl⟩
    · exact ⟨rfl, refusedCode, 0, 0, rfl, by simp, fun _ => (if_neg hf).symm, fun h => absurd h hi⟩
    · rw [hr] at hw
      refine ⟨hw.host, 0, a.aux, a.val, by simp [hw.rsp], by simp, fun _ => ?_, fun h => absurd h hi⟩
      rw [State.respond_FAULT, hw.FAULT]
      split
      · assumption
      · rfl
    · rw [hr] at hw
      exact ⟨hw.host, faultCode f, 0, 0, by simp [hw.rsp], by simp, fun _ => by simp [hw.FAULT], fun h => absurd h hi⟩

/-- A raise records the code of a kind, or keeps what FAULT held (R180). -/
theorem State.FaultKnown.raise {s : State} (h : s.FaultKnown) (f : FaultKind) : (s.raise f).FaultKnown := by
  unfold State.FaultKnown
  rw [State.raise_FAULT]
  split
  · exact .inr ⟨f, rfl⟩
  · exact h

/-- A command leaves FAULT 0 or the code of a fault kind. -/
theorem exec_keeps_faultKnown {i : Instr} {s t : State} (h : exec i s = .next t) (hs : s.FaultKnown) : t.FaultKnown := by
  by_cases hi : i = .reset
  · subst hi
    obtain ⟨out, -, rfl⟩ := exec_reset h
    exact .inl rfl
  · have hw : (ruleOf i s).Leaves State.FaultKnown := (rule_frame i s).mono fun u hu => by
      rw [State.FaultKnown, (hu.writesOnly hi).FAULT]; exact hs
    rcases exec_next h with ⟨-, -, rfl⟩ | ⟨a, u, hr, rfl⟩ | ⟨f, u, hr, rfl⟩
    · exact hs
    · rw [hr] at hw; exact hw
    · rw [hr] at hw; exact State.FaultKnown.raise hw f

/-- Settles O12: a raise records a known code, and nothing else writes FAULT but a reset. -/
theorem stepKeepsFaultKnown : Obligations.StepKeepsFaultKnown := fun _ _ =>
  step_keeps (fun _ _ hu => hu) (fun _ _ => .inl rfl) (fun _ f hu => hu.raise f) (fun _ _ _ => exec_keeps_faultKnown)

/-- A command only extends OUT (R28). -/
theorem exec_OUT_prefix {i : Instr} {s t : State} (h : exec i s = .next t) : s.OUT <+: t.OUT := by
  by_cases hi : i = .reset
  · subst hi
    obtain ⟨out, hout, rfl⟩ := exec_reset h
    exact hout
  · obtain ⟨u, _, _, hu, rfl⟩ := exec_writesOnly h hi
    exact hu.outGrows

/-- Settles O14: no command cuts OUT, and a platform reset leaves it. -/
theorem outOnlyGrows : Obligations.OutOnlyGrows := by
  intro s t h
  obtain ⟨events, he⟩ : s.OUT <+: t.OUT :=
    step_keeps (P := fun u => s.OUT <+: u.OUT) (fun _ _ hu => hu) (fun _ hu => hu) (fun _ _ hu => hu)
      (fun _ _ _ h hu => hu.trans (exec_OUT_prefix h)) (List.prefix_refl _) h
  exact ⟨events, he.symm⟩

/-- Settles O15, from the frames of the rules. -/
theorem tablesWrittenOnlyByTheirCommands : Obligations.TablesWrittenOnlyByTheirCommands := by
  intro i s t h hi
  obtain ⟨u, _, _, hu, rfl⟩ := exec_writesOnly h hi
  exact ⟨hu.FREQ, hu.CODE⟩

/-- Settles O17, from the frames of the rules. -/
theorem arenaAndQueueWriters : Obligations.ArenaAndQueueWriters := by
  intro i s t h
  by_cases hi : i = .reset
  · exact ⟨.inr (.inl hi), .inr (.inl hi)⟩
  · obtain ⟨u, _, _, hu, rfl⟩ := exec_writesOnly h hi
    exact ⟨hu.NEXT.imp_right .inr, hu.arena.imp_right .inr⟩

/-- Settles O20, from the frames of the rules. -/
theorem writerRegistersWriters : Obligations.WriterRegistersWriters := by
  intro i s t h
  by_cases hi : i = .reset
  · simp [hi]
  · obtain ⟨u, _, _, hu, rfl⟩ := exec_writesOnly h hi
    rcases hu.OUT with hout | hout
    · rcases hu.writer with ⟨-, hacc, hnbits⟩ | hopen | hother
      · exact .inl ⟨hacc, hnbits, hout⟩
      · exact .inr (.inl ⟨hopen, hout⟩)
      · tauto
    · tauto

/-- Settles O18: only BUILD writes ROOT and BUILT, and it does where ROOT is NIL. -/
theorem rootIsSetOncePerRun : Obligations.RootIsSetOncePerRun := by
  intro i s t h hi
  by_cases hb : i = .build
  · subst hb
    obtain ⟨u, _, _, hu, rfl⟩ := exec_frame h
    rcases hu with ⟨_, _, _, rfl⟩ | ⟨hroot, _, _, _, root, hne, rfl⟩
    · simp +contextual
    · simp only [hroot]
      exact ⟨by simp, by simp, by simp, fun _ r hr => ⟨hne (by simp [hr]), trivial⟩⟩
  · obtain ⟨u, _, _, hu, rfl⟩ := exec_writesOnly h hi
    obtain ⟨hroot, hbuilt⟩ := hu.ROOT hb
    refine ⟨fun _ => ⟨hroot, hbuilt⟩, fun r hr => hroot.trans hr, fun hs => hbuilt.trans hs, fun hs r hr => ?_⟩
    simp [hroot, hs] at hr

end Sys2Proof.Machine

namespace Sys2Proof.Machine

/-! ## Nodes are written once, and only DEQ makes one HELD -/

/-- From `s` to `u` no node below NEXT was lost or changed but for its tag, and NEXT did not fall (R21, R23). -/
def State.ArenaGrew (s u : State) : Prop :=
  s.NEXT.val ≤ u.NEXT.val ∧
    ∀ (id : NodeId) (n : Node), id.val < s.NEXT.val → s.slot id = some n → ∃ tag, u.slot id = some { n with st := tag }

theorem State.ArenaGrew.keepsNodes {s u v : State} (h : s.ArenaGrew u) (hk : u.KeepsNodes v) (hnext : v.NEXT = u.NEXT) :
    s.ArenaGrew v := by
  refine ⟨hnext ▸ h.1, fun id n hid hn => ?_⟩
  obtain ⟨_, hu⟩ := h.2 id n hid hn
  obtain ⟨tag, hv⟩ := hk id _ hu
  exact ⟨tag, hv⟩

theorem State.ArenaGrew.withNode {s u : State} (h : s.ArenaGrew u) (hn : u.NEXT.val < 511) (n : Node) (k : Nat) :
    s.ArenaGrew (u.withNode hn n k) := by
  have hnext : (u.withNode hn n k).NEXT.val = u.NEXT.val + 1 := rfl
  refine ⟨hnext ▸ Nat.le_succ_of_le h.1, fun id m hid hm => ?_⟩
  have hne : id ≠ ⟨u.NEXT.val, hn⟩ := by rintro rfl; exact absurd h.1 (not_le.2 hid)
  rw [State.slot_withNode, if_neg hne]
  exact h.2 id m hid hm

/-- The engine's operations let the arena grow, in every state. -/
theorem arenaGrew_closed (s : State) : ArenaClosed nodeBefore s.ArenaGrew where
  congr u v hnext hN _ _ h := h.keepsNodes (.of_N_eq hN) hnext
  newLeaf u sym f id v h hl := by
    obtain ⟨hn, -, k, -, -, rfl⟩ := State.newLeaf_done hl
    exact h.withNode hn _ k
  mergeStep u p v h hm := by
    obtain ⟨x, y, rest, _, _, -, -, -, -, hn, k, -, -, rfl⟩ := State.mergeStep_done hm
    exact (h.keepsNodes (u.keepsNodes_consumed x y rest) rfl).withNode hn _ k
  enqueue u x n v h hx _ _ he := by
    obtain ⟨_, -, -, rfl⟩ := State.enqueue_done he
    exact h.keepsNodes (u.setQueue_setTag_keepsNodes _ x .queued) rfl
  drain u r rest h _ _ := h.keepsNodes ((u.setQueue_setTag_keepsNodes rest r .root).trans (.of_N_eq rfl)) rfl

/-- Settles O16: every operation lets the arena grow. -/
theorem nodesAreWrittenOnce : Obligations.NodesAreWrittenOnce := by
  intro i s t h hi
  have hdeq : DeqClosed s.ArenaGrew := fun u x rest hu _ => hu.keepsNodes (u.setQueue_setTag_keepsNodes rest x .held) rfl
  exact exec_keeps_arena (arenaGrew_closed s) (fun _ => hdeq) hi h ⟨le_rfl, fun _ n _ hn => ⟨n.st, hn⟩⟩

/-- A HELD node of `u` was the same HELD node in `s` (R22). -/
def State.HeldFrom (s u : State) : Prop := ∀ id n, u.slot id = some n → n.st = .held → s.slot id = some n

theorem State.HeldFrom.setTag {s u : State} (h : s.HeldFrom u) (x : NodeId) {tag : Tag} (htag : tag ≠ .held) :
    s.HeldFrom (u.setTag x tag) := by
  intro id n hn hst
  by_cases hid : id = x
  · subst hid
    obtain ⟨m, -, rfl⟩ : ∃ m, u.slot id = some m ∧ { m with st := tag } = n := by simpa using hn
    exact absurd hst htag
  · exact h id n (by simpa [hid] using hn) hst

theorem State.HeldFrom.withNode {s u : State} (h : s.HeldFrom u) (hn : u.NEXT.val < 511) (n : Node) (k : Nat) :
    s.HeldFrom (u.withNode hn n k) := by
  intro id m hm hst
  rw [State.slot_withNode] at hm
  split at hm
  · obtain rfl := Option.some.inj hm
    simp at hst
  · exact h id m hm hst

/-- The engine's operations but DEQ tag nodes QUEUED, CHILD or ROOT. -/
theorem heldFrom_closed (s : State) : ArenaClosed nodeBefore s.HeldFrom where
  congr u v _ hN _ _ h id n hn := h id n (State.slot_congr hN id ▸ hn)
  newLeaf u sym f id v h hl := by
    obtain ⟨hn, -, k, -, -, rfl⟩ := State.newLeaf_done hl
    exact h.withNode hn _ k
  mergeStep u p v h hm := by
    obtain ⟨x, y, rest, _, _, -, -, -, -, hn, k, -, -, rfl⟩ := State.mergeStep_done hm
    have hq : s.HeldFrom (u.setQueue rest) := h
    exact ((hq.setTag x (tag := .child) (by decide)).setTag y (tag := .child) (by decide)).withNode hn _ k
  enqueue u x n v h hx _ _ he := by
    obtain ⟨_, -, -, rfl⟩ := State.enqueue_done he
    exact State.HeldFrom.setTag (u := u.setQueue _) h x (by decide)
  drain u r rest h _ _ := State.HeldFrom.setTag (u := u.setQueue rest) h r (tag := .root) (by decide)

@[simp] theorem State.slot_reset (id : NodeId) : State.reset.slot id = none := by
  simp [State.slot, State.reset, Vector.get_eq_getElem]

/-- Settles O32: after RESET there is no node, and no other command but DEQ tags one HELD. -/
theorem nodesBecomeHeldOnlyByDeq : Obligations.NodesBecomeHeldOnlyByDeq := by
  intro i s t id n h hi hn hst
  by_cases hr : i = .reset
  · subst hr
    obtain ⟨_, -, rfl⟩ := exec_reset h
    have hnone := State.slot_reset id
    exact absurd (hnone.symm.trans hn) (by simp)
  · exact exec_keeps_arena (heldFrom_closed s) (fun hd => absurd hd hi) hr h (fun _ _ hm _ => hm) id n hn hst

/-! ## The invariants of R31 at reset and over every step -/

/-! ### The bit writer -/

/-- One bit of a byte after a write of one bit. -/
theorem getLsbD_setBit (v : Byte) {j : Nat} (hj : j < 8) (b : Bool) (i : Nat) :
    (setBit v j b).getLsbD i = if i = j then b else v.getLsbD i := by
  by_cases hij : i = j
  · subst hij
    cases b <;> simp [setBit, hj]
  · have hbit : (1#8 <<< j).getLsbD i = false := by
      simp only [BitVec.getLsbD_shiftLeft, BitVec.getLsbD_one, Bool.and_eq_false_iff, decide_eq_false_iff_not]
      by_cases hlt : i < j
      · exact .inl (by simp [hlt])
      · exact .inr (by omega)
    by_cases hi : i < 8
    · rw [if_neg hij]
      cases b with
      | true => rw [setBit, if_pos rfl, BitVec.getLsbD_or, hbit, Bool.or_false]
      | false =>
        rw [setBit, if_neg Bool.false_ne_true, BitVec.getLsbD_and, BitVec.getLsbD_not, hbit]
        simp [hi]
    · have hv : v.getLsbD i = false := BitVec.getLsbD_of_ge v i (not_lt.1 hi)
      rw [if_neg hij, hv, BitVec.getLsbD_of_ge _ i (not_lt.1 hi)]

/-- Accepting a bit leaves the positions below it 0 (R145). -/
theorem State.AccClean.putBit {s : State} (h : s.AccClean) (b : Bool) : (s.putBit b).AccClean := by
  intro i hi
  have hlt := s.NBITS.isLt
  unfold State.putBit at hi ⊢
  split
  · rename_i hn
    simp only [hn, dite_true] at hi
    rw [getLsbD_setBit _ (by omega), if_neg (by omega)]
    exact h i (by omega)
  · simp

theorem State.AccClean.putBitSeq {s : State} (h : s.AccClean) (bits : List Bool) : (s.putBitSeq bits).AccClean := by
  induction bits generalizing s with
  | nil => exact h
  | cons b rest ih => exact ih (h.putBit b)

theorem State.writerInv_clear {s : State} (hacc : s.ACC = 0) (hnbits : s.NBITS = 0) : s.WriterInv :=
  ⟨fun _ => ⟨hnbits, hacc⟩, fun i _ => by simp [hacc]⟩

/-! ### The encoding table -/

theorem tableFits_empty : TableFits emptyTable := by
  intro sym
  simp [emptyTable, CodeEntry.empty, Vector.get_eq_getElem]

/-- A code that fits its length, and a length that fits its field, make an entry that fits. -/
theorem TableFits.setCode {table : Vector CodeEntry 256} (h : TableFits table) (sym : Byte) {bits len : Nat}
    (hbits : bits < 2 ^ len) (hlen : len ≤ 255) : TableFits (setCode table sym bits len) := by
  intro x
  by_cases hx : symIndex x = symIndex sym
  · have hentry : (Machine.setCode table sym bits len).get (symIndex x) = ⟨BitVec.ofNat 255 bits, BitVec.ofNat 8 len⟩ := by
      simp [Machine.setCode, hx, Vector.get_eq_getElem]
    rw [hentry]
    simp only [BitVec.toNat_ofNat, Nat.mod_eq_of_lt (show len < 2 ^ 8 by omega)]
    exact lt_of_le_of_lt (Nat.mod_le _ _) hbits
  · have hne : (symIndex sym).val ≠ (symIndex x).val := fun e => hx (Fin.ext e.symm)
    have hentry : (Machine.setCode table sym bits len).get (symIndex x) = table.get (symIndex x) := by
      simp [Machine.setCode, Vector.get_eq_getElem, Vector.getElem_set_ne, hne]
    rw [hentry]
    exact h x

/-- The walk writes codes as long as their paths, which the stack bounds (R30, R131, R132). -/
theorem State.walk_tableFits (s : State) (stack : Nat) : ∀ (id : NodeId) (bits len : Nat) (table table' : Vector CodeEntry 256),
    bits < 2 ^ len → len + stack ≤ 256 → TableFits table → s.walk stack id bits len table = .ok table' → TableFits table' := by
  induction stack with
  | zero => intro id bits len table table' _ _ _ h; simp [walk] at h
  | succ stack ih =>
    intro id bits len table table' hbits hlen ht h
    unfold walk at h
    split at h
    · simp at h
    · split at h
      · obtain rfl := Except.ok.inj h
        exact ht.setCode _ hbits (by omega)
      · split at h
        · simp at h
        · rename_i l r _ _ left hl
          have hleft := ih l (2 * bits) (len + 1) table left (by rw [pow_succ]; omega) (by omega) ht hl
          exact ih r (2 * bits + 1) (len + 1) left table' (by rw [pow_succ]; omega) (by omega) hleft h

/-- Every entry of the table MKTAB makes fits its length (R134). -/
theorem State.codeTable_tableFits {s : State} {table : Vector CodeEntry 256} (h : s.codeTable = .ok table) :
    TableFits table := by
  unfold codeTable at h
  split at h
  · obtain rfl := Except.ok.inj h
    exact tableFits_empty
  · split at h
    · simp at h
    · split at h
      · obtain rfl := Except.ok.inj h
        exact tableFits_empty.setCode _ (by decide) (by decide)
      · exact s.walk_tableFits 256 _ 0 0 _ _ (by decide) (by decide) tableFits_empty h

/-- Items 8 and 10 of R31 are kept by every rule but RESET's. -/
theorem rule_keeps_writer_and_table {i : Instr} {s : State} (hi : i ≠ .reset) (hw : s.WriterInv) (ht : TableFits s.CODE) :
    (ruleOf i s).Leaves fun u => u.WriterInv ∧ TableFits u.CODE := by
  have hframe := (rule_frame i s).mono fun u hu => hu.writesOnly hi
  have hput : s.OPEN = true → ∀ bits, (s.putBitSeq bits).WriterInv ∧ TableFits (s.putBitSeq bits).CODE :=
    fun ho bits => ⟨⟨by simp [ho], hw.clean.putBitSeq bits⟩, by simpa using ht⟩
  cases i with
  | reset => exact absurd rfl hi
  | ser => exact serRule_leaves ⟨hw, ht⟩ hput _
  | emit sym => exact emitRule_leaves ⟨hw, ht⟩ hput sym
  | wbits value width => exact wbitsRule_leaves ⟨hw, ht⟩ hput value width
  | openSink => exact openRule_leaves ⟨hw, ht⟩ ⟨State.writerInv_clear rfl rfl, ht⟩
  | closeSink => exact closeRule_leaves ⟨hw, ht⟩ ⟨State.writerInv_clear rfl rfl, by simpa using ht⟩
  | mktab => exact mktabRule_leaves fun table h => ⟨⟨hw.closed, hw.clean⟩, State.codeTable_tableFits h⟩
  | _ =>
    refine hframe.mono fun u hu => ?_
    obtain ⟨ho, hacc, hnbits⟩ := by simpa using hu.writer
    exact ⟨⟨by rw [ho, hacc, hnbits]; exact hw.closed, by rw [State.AccClean, hacc, hnbits]; exact hw.clean⟩,
      by rw [hu.CODE (by simp)]; exact ht⟩

/-! ### Reset, commands and steps -/

/-- A state without nodes meets what R31 says of the arena. -/
theorem State.arenaInv_empty {before : Comparator} {s : State} (hslot : ∀ id, s.slot id = none) (hnext : s.NEXT = 0)
    (hPQ : s.PQ = []) (hroot : s.ROOT = none) : s.ArenaInv before := by
  have hchild : ∀ c p, ¬ s.ChildOf c p := by
    rintro c p ⟨n, l, r, hn, -⟩
    simp [hslot] at hn
  exact {
    forest := ⟨by simp [SlotsBelowNext, hslot, hnext], fun c p h => absurd h (hchild c p), by simp [hslot],
      fun c p q h => absurd h (hchild c p), by simp [hslot]⟩
    queue := ⟨by simp [hPQ], by simp [hPQ, hslot], by simp [hPQ], by simp [hPQ]⟩
    links := ⟨by simp [hslot], by simp [hslot], by simp [hroot]⟩ }

/-- Every state with the block's values of R32 meets the invariants, whatever the order. -/
theorem State.invFor_of_reset {before : Comparator} {s : State} {out : List OutEvent} {host : List HostEvent}
    {rsp : List Word} (h : s = { State.reset with OUT := out, host := host, rsp := rsp }) : s.InvFor before := by
  subst h
  exact State.invFor_iff.2 ⟨State.arenaInv_empty State.slot_reset rfl rfl rfl, State.writerInv_clear rfl rfl, tableFits_empty⟩

/-- Settles O52, the base case of the invariants over steps. -/
theorem invariantsHoldAfterReset : Obligations.InvariantsHoldAfterReset :=
  ⟨State.invFor_of_reset (s := State.reset) rfl, by simp [State.ChildrenInOrder], .inl rfl⟩

/-- The engine's operations keep what R31 says of the arena. -/
theorem arenaInv_closed : ArenaClosed nodeBefore (State.ArenaInv nodeBefore) where
  congr _ _ hnext hN hPQ hroot h := h.congr hnext hN hPQ hroot
  newLeaf _ _ _ _ _ h hl := h.newLeaf nodeBefore_tieBreak hl
  mergeStep _ _ _ h hm := h.mergeStep nodeBefore_tieBreak hm
  enqueue _ _ _ _ h hx hst hlen he := h.enqueue nodeBefore_tieBreak hx hst hlen he
  drain _ _ _ h hroot hPQ := h.drain hroot hPQ

theorem arenaInv_deqClosed : DeqClosed (State.ArenaInv nodeBefore) := fun _ _ _ h hPQ => h.dequeue hPQ

/-- Every command keeps the invariants of R31, faulting or not. -/
theorem exec_keeps_inv {i : Instr} {s t : State} (h : exec i s = .next t) (hs : s.Inv) : t.Inv := by
  by_cases hi : i = .reset
  · subst hi
    obtain ⟨out, -, ht⟩ := exec_reset h
    exact State.invFor_of_reset ht
  · obtain ⟨ha, hw, hc⟩ := State.invFor_iff.1 hs
    obtain ⟨u, _, _, ⟨hwu, hcu⟩, rfl⟩ := exec_leaves h (fun _ => ⟨hw, hc⟩) (rule_keeps_writer_and_table hi hw hc)
    exact State.invFor_iff.2
      ⟨exec_keeps_arena arenaInv_closed (fun _ => arenaInv_deqClosed) hi h ha, ⟨hwu.closed, hwu.clean⟩, hcu⟩

/-- The invariants read neither FAULT nor the host's side. -/
theorem State.InvFor.of_host_side {before : Comparator} {s : State} (h : s.InvFor before) (fault : Byte)
    (host : List HostEvent) (rsp : List Word) :
    State.InvFor before { s with FAULT := fault, host := host, rsp := rsp } := by
  obtain ⟨ha, hw, hc⟩ := State.invFor_iff.1 h
  exact State.invFor_iff.2 ⟨ha.congr rfl rfl rfl rfl, ⟨hw.closed, hw.clean⟩, hc⟩

/-- Settles O53: each part of R31 is kept by the operations that write what it reads. -/
theorem stepKeepsTheInvariants : Obligations.StepKeepsTheInvariants := fun _ _ =>
  step_keeps (fun u host hu => hu.of_host_side u.FAULT host u.rsp) (fun _ _ => State.invFor_of_reset rfl)
    (fun u _ hu => hu.of_host_side _ u.host _) (fun _ _ _ => exec_keeps_inv)

end Sys2Proof.Machine

namespace Sys2Proof.Machine

/-! ## Left is before right (spec/42_tree_builder.md R108) -/

section children
variable {s t u : State}

theorem State.ChildrenInOrder.of_keepsNodes (h : s.ChildrenInOrder) (hst : s.KeepsNodes t) (hts : t.KeepsNodes s) :
    t.ChildrenInOrder := by
  intro p n l r hn hch
  obtain ⟨_, hn⟩ := hts p n hn
  exact hst.beforeBy nodeBefore_tieBreak (h p _ l r hn hch)

theorem State.ChildrenInOrder.withNode (h : s.ChildrenInOrder) (hn : s.NEXT.val < 511)
    (hfree : s.slot ⟨s.NEXT.val, hn⟩ = none) {n : Node} (hch : ∀ l r, n.children = some (l, r) → s.Before l r) (k : Nat) :
    (s.withNode hn n k).ChildrenInOrder := by
  intro p m l r hm hlr
  refine (State.keepsNodes_withNode hn hfree n k).beforeBy nodeBefore_tieBreak ?_
  rw [State.slot_withNode] at hm
  split at hm
  · obtain rfl := Option.some.inj hm
    exact hch l r hlr
  · exact h p m l r hm hlr

/-- The engine's operations keep the children in order, in a state that meets R31's items on the arena: a merge step takes
the first two entries of a sorted queue, in that order. -/
theorem childrenInOrder_closed : ArenaClosed nodeBefore fun u => u.ArenaInv nodeBefore ∧ u.ChildrenInOrder where
  congr u v hnext hN hPQ hroot h :=
    ⟨h.1.congr hnext hN hPQ hroot, h.2.of_keepsNodes (.of_N_eq hN) (.of_N_eq hN.symm)⟩
  newLeaf u sym f id v h hl := by
    refine ⟨h.1.newLeaf nodeBefore_tieBreak hl, ?_⟩
    obtain ⟨hn, -, k, -, -, rfl⟩ := State.newLeaf_done hl
    exact h.2.withNode hn (h.1.forest.free hn) (by simp) k
  mergeStep u p v h hm := by
    refine ⟨h.1.mergeStep nodeBefore_tieBreak hm, ?_⟩
    obtain ⟨x, y, rest, nx, ny, hPQ, -, -, -, hn, rfl⟩ := State.mergeStep_done_readable h.1.queue.readable hm
    have hxy : u.Before x y := by
      have hsorted := h.1.queue.sorted
      rw [hPQ] at hsorted
      exact (List.pairwise_cons.1 hsorted).1 y (by simp)
    have hforest : (u.consumed x y rest).ForestInv :=
      h.1.forest.of_keepsNodes (u.keepsNodes_consumed x y rest) (u.consumed_keepsNodes x y rest) rfl
    refine (h.2.of_keepsNodes (u.keepsNodes_consumed x y rest) (u.consumed_keepsNodes x y rest)).withNode hn
      (hforest.free hn) (fun l r hlr => ?_) _
    obtain ⟨rfl, rfl⟩ : x = l ∧ y = r := by simpa [mergedNode] using hlr
    exact (u.keepsNodes_consumed x y rest).beforeBy nodeBefore_tieBreak hxy
  enqueue u x n v h hx hst hlen he := by
    refine ⟨h.1.enqueue nodeBefore_tieBreak hx hst hlen he, ?_⟩
    obtain ⟨_, -, -, rfl⟩ := State.enqueue_done he
    exact h.2.of_keepsNodes (u.setQueue_setTag_keepsNodes _ x .queued)
      (u.keepsNodes_of_setQueue_setTag _ x .queued)
  drain u r rest h hroot hPQ := by
    refine ⟨h.1.drain hroot hPQ, ?_⟩
    exact h.2.of_keepsNodes ((u.setQueue_setTag_keepsNodes rest r .root).trans (.of_N_eq rfl))
      ((State.KeepsNodes.of_N_eq rfl).trans (u.keepsNodes_of_setQueue_setTag rest r .root))

theorem childrenInOrder_deqClosed : DeqClosed fun u => u.ArenaInv nodeBefore ∧ u.ChildrenInOrder :=
  fun u x rest h hPQ => ⟨h.1.dequeue hPQ, h.2.of_keepsNodes (u.setQueue_setTag_keepsNodes rest x .held)
    (u.keepsNodes_of_setQueue_setTag rest x .held)⟩

end children

/-- Settles O34: the order of the children over every step, and what it says of the frequencies. -/
theorem stepKeepsChildrenInOrder : Obligations.StepKeepsChildrenInOrder := by
  intro s t hs hord h
  have hreset : ∀ (u : State) (out : List OutEvent) (host : List HostEvent) (rsp : List Word),
      u = { State.reset with OUT := out, host := host, rsp := rsp } → u.ArenaInv nodeBefore ∧ u.ChildrenInOrder := by
    rintro u out host rsp rfl
    exact ⟨(State.invFor_iff.1 (State.invFor_of_reset rfl)).1, invariantsHoldAfterReset.2.1⟩
  have hexec : ∀ i (u v : State), exec i u = .next v → u.ArenaInv nodeBefore ∧ u.ChildrenInOrder →
      v.ArenaInv nodeBefore ∧ v.ChildrenInOrder := by
    intro i u v hi hu
    by_cases hr : i = .reset
    · subst hr
      obtain ⟨out, -, hv⟩ := exec_reset hi
      exact hreset v _ _ _ hv
    · exact exec_keeps_arena childrenInOrder_closed (fun _ => childrenInOrder_deqClosed) hr hi hu
  have ht := step_keeps (P := fun u => u.ArenaInv nodeBefore ∧ u.ChildrenInOrder)
    (fun u host hu => childrenInOrder_closed.congr u _ rfl rfl rfl rfl hu) (fun u _ => hreset _ _ _ _ rfl)
    (fun u f hu => childrenInOrder_closed.congr u _ rfl rfl rfl rfl hu) hexec ⟨(State.invFor_iff.1 hs).1, hord⟩ h
  exact ⟨ht.2, fun p n l r hn hch => State.freqOf_le_of_beforeBy nodeBefore_tieBreak (ht.2 p n l r hn hch)⟩

/-! ## The queue is a function of the nodes (spec/41_priority_queue.md R91, R102) -/

/-- Settles O31: the entries are the QUEUED nodes, and a strict order sorts a list in one way only. -/
theorem queueIsAFunctionOfTheNodes : Obligations.QueueIsAFunctionOfTheNodes := by
  intro s t hs ht hN
  have hmem : ∀ id, id ∈ s.PQ ↔ id ∈ t.PQ := fun id => by
    rw [hs.queuedIff, ht.queuedIff, State.slot_congr hN]
  have hsorted : s.PQ.Pairwise t.Before := hs.queueSorted.imp fun hxy =>
    (State.KeepsNodes.of_N_eq hN.symm).beforeBy nodeBefore_tieBreak hxy
  refine List.Perm.eq_of_pairwise (fun x y _ _ hxy hyx => ?_) hsorted ht.queueSorted
    ((List.perm_ext_iff_of_nodup hs.queueDistinct ht.queueDistinct).2 hmem)
  exact absurd (State.beforeBy_trans nodeBefore_tieBreak hxy hyx) (State.beforeBy_irrefl nodeBefore_tieBreak x)

/-! ## Trees are shallow (spec/10_state.md R31 item 9) -/

section trees
variable {s : State}

/-- `x` is `a` or below it in a tree. -/
def State.Below (s : State) : NodeId → NodeId → Prop := Relation.ReflTransGen s.ChildOf

theorem State.ForestInv.below_le (h : s.ForestInv) {x a : NodeId} (hx : s.Below x a) : x.val ≤ a.val := by
  induction hx with
  | refl => rfl
  | tail _ hc ih => exact ih.trans (h.childBelow _ _ hc).le

/-- A child is below only itself and what its parent is below. -/
theorem State.ForestInv.below_of_child (h : s.ForestInv) {c p a : NodeId} (hc : s.ChildOf c p) (ha : s.Below c a) :
    c = a ∨ s.Below p a := by
  rcases Relation.ReflTransGen.cases_head ha with rfl | ⟨q, hq, hqa⟩
  · exact .inl rfl
  · exact .inr (h.childOnce c p q hc hq ▸ hqa)

/-- Two children of one node are not below each other. -/
theorem State.ForestInv.not_below_sibling (h : s.ForestInv) {l r p : NodeId} (hl : s.ChildOf l p) (hr : s.ChildOf r p)
    (hne : l ≠ r) : ¬ s.Below l r := by
  intro hlr
  have hpr := h.below_le ((h.below_of_child hl hlr).resolve_left hne)
  have hrp := h.childBelow r p hr
  omega

/-- What is below one child is not below the other. -/
theorem State.ForestInv.below_siblings_disjoint (h : s.ForestInv) {x l r p : NodeId} (hl : s.ChildOf l p)
    (hr : s.ChildOf r p) (hne : l ≠ r) (hxl : s.Below x l) : ¬ s.Below x r := by
  intro hxr
  have hunique : Relator.RightUnique s.ChildOf := fun c p q hp hq => h.childOnce c p q hp hq
  rcases Relation.ReflTransGen.total_of_right_unique hunique hxl hxr with hlr | hrl
  · exact h.not_below_sibling hl hr hne hlr
  · exact h.not_below_sibling hr hl hne.symm hrl

/-- A tree's nodes are as many different ids, all below its root. -/
theorem State.TreeAt.nodes (h : s.ForestInv) {id : NodeId} {tr : CodeTree} (ht : s.TreeAt id tr) :
    ∃ ids : Finset NodeId, ids.card = tr.leaves.length + tr.internals ∧ ∀ x ∈ ids, s.Below x id := by
  induction ht with
  | leaf => exact ⟨{_}, rfl, fun x hx => Finset.mem_singleton.1 hx ▸ .refl⟩
  | @node id l r n tl tr hn hch _ _ ihl ihr =>
    obtain ⟨idsl, hcardl, hl⟩ := ihl
    obtain ⟨idsr, hcardr, hr⟩ := ihr
    have hcl : s.ChildOf l id := ⟨n, l, r, hn, hch, .inl rfl⟩
    have hcr : s.ChildOf r id := ⟨n, l, r, hn, hch, .inr rfl⟩
    have hdisjoint : Disjoint idsl idsr := Finset.disjoint_left.2 fun x hxl hxr =>
      h.below_siblings_disjoint hcl hcr (h.childrenDiffer id n l r hn hch) (hl x hxl) (hr x hxr)
    have hroot : id ∉ idsl ∪ idsr := by
      intro hid
      have hlt := h.childBelow l id hcl
      have hrt := h.childBelow r id hcr
      rcases Finset.mem_union.1 hid with hid | hid
      · have := h.below_le (hl id hid); omega
      · have := h.below_le (hr id hid); omega
    refine ⟨insert id (idsl ∪ idsr), ?_, fun x hx => ?_⟩
    · rw [Finset.card_insert_of_notMem hroot, Finset.card_union_of_disjoint hdisjoint, hcardl, hcardr]
      simp only [CodeTree.leaves, CodeTree.internals, List.length_append]
      omega
    · rcases Finset.mem_insert.1 hx with rfl | hx
      · exact .refl
      · rcases Finset.mem_union.1 hx with hx | hx
        · exact (hl x hx).tail hcl
        · exact (hr x hx).tail hcr

theorem CodeTree.depth_le_internals (t : CodeTree) : t.depth ≤ t.internals := by
  induction t with
  | leaf c => exact le_rfl
  | node l r ihl ihr => simp only [depth, internals]; omega

/-- A child is an allocated node: its id is below an allocated one. -/
theorem State.ForestInv.child_allocated (h : s.ForestInv) {c p : NodeId} (hc : s.ChildOf c p) : (s.slot c).isSome = true := by
  have hlt := h.childBelow c p hc
  obtain ⟨n, _, _, hn, -⟩ := hc
  have hp := (h.slots p).1 (by simp [hn])
  exact (h.slots c).2 (by omega)

/-- Every allocated id names a tree: its children have smaller ids and are allocated. -/
theorem State.ForestInv.exists_treeAt (h : s.ForestInv) : ∀ id : NodeId, (s.slot id).isSome = true → ∃ tr, s.TreeAt id tr := by
  intro id
  induction id using WellFoundedLT.induction with
  | ind id ih =>
    intro hid
    obtain ⟨n, hn⟩ := Option.isSome_iff_exists.1 hid
    rcases hch : n.children with _ | ⟨l, r⟩
    · exact ⟨_, .leaf hn hch⟩
    · have hcl : s.ChildOf l id := ⟨n, l, r, hn, hch, .inl rfl⟩
      have hcr : s.ChildOf r id := ⟨n, l, r, hn, hch, .inr rfl⟩
      obtain ⟨tl, hl⟩ := ih l (h.childBelow l id hcl) (h.child_allocated hcl)
      obtain ⟨tr, hr⟩ := ih r (h.childBelow r id hcr) (h.child_allocated hcr)
      exact ⟨_, .node hn hch hl hr⟩

/-- In an arena of 511 slots a tree has at most 256 leaves, and depth at most 255. -/
theorem State.TreeAt.shallow (h : s.ForestInv) {id : NodeId} {tr : CodeTree} (ht : s.TreeAt id tr) :
    tr.depth ≤ 255 ∧ tr.leaves.length ≤ 256 := by
  obtain ⟨ids, hcard, -⟩ := ht.nodes h
  have hcap : ids.card ≤ 511 := by simpa using Finset.card_le_univ ids
  have hleaves := tr.leaves_internals
  have hdepth := tr.depth_le_internals
  omega

end trees

/-- Settles O54: a tree's nodes are different slots, of which there are 511. -/
theorem treesAreShallow : Obligations.TreesAreShallow := by
  intro s id hs hid
  have hf := (State.invFor_iff.1 hs).1.forest
  obtain ⟨tr, ht⟩ := hf.exists_treeAt id ((hf.slots id).2 hid)
  exact ⟨tr, ht, ht.shallow hf⟩

end Sys2Proof.Machine

namespace Sys2Proof.Machine

/-! ## RDREG (spec/10_state.md R17, R19) -/

section views
variable (s : State)

/-- The low field of a concatenation; `BitVec.extractLsb'_append_eq_of_le` drops the fields below the one asked for. -/
theorem extractLsb'_append_low {v w : Nat} (hi : BitVec v) (lo : BitVec w) : (hi ++ lo).extractLsb' 0 w = lo := by
  rw [BitVec.extractLsb'_append_eq_of_add_le (by omega), BitVec.extractLsb'_eq_self]

/-- A one-bit field that holds a flag is that flag's bit. -/
theorem getLsbD_of_flagBit {w i : Nat} {v : BitVec w} {b : Bool} (h : v.extractLsb' i 1 = flagBit b) : v.getLsbD i = b := by
  simpa [flagBit] using congrArg (BitVec.getLsbD · 0) h

theorem State.status_FAULT : s.status.extractLsb' 0 8 = s.FAULT := by
  unfold status
  exact extractLsb'_append_low _ _

theorem State.status_BUILT : s.status.extractLsb' 8 1 = flagBit s.BUILT := by
  unfold status
  rw [BitVec.extractLsb'_append_eq_of_le (by decide)]
  exact extractLsb'_append_low _ _

theorem State.status_TREE : s.status.extractLsb' 9 1 = flagBit s.ROOT.isSome := by
  unfold status
  iterate 2 rw [BitVec.extractLsb'_append_eq_of_le (by decide)]
  exact extractLsb'_append_low _ _

theorem State.status_reserved10 : s.status.extractLsb' 10 1 = flagBit false := by
  unfold status
  iterate 3 rw [BitVec.extractLsb'_append_eq_of_le (by decide)]
  exact extractLsb'_append_low _ _

theorem State.status_BWOPEN : s.status.extractLsb' 11 1 = flagBit s.OPEN := by
  unfold status
  iterate 4 rw [BitVec.extractLsb'_append_eq_of_le (by decide)]
  exact extractLsb'_append_low _ _

theorem State.status_NBITS : s.status.extractLsb' 12 3 = BitVec.ofNat 3 s.NBITS.val := by
  unfold status
  iterate 5 rw [BitVec.extractLsb'_append_eq_of_le (by decide)]
  exact extractLsb'_append_low _ _

theorem State.status_reserved15 : s.status.extractLsb' 15 1 = flagBit false := by
  unfold status
  iterate 6 rw [BitVec.extractLsb'_append_eq_of_le (by decide)]
  exact extractLsb'_append_low _ _

theorem State.status_PQLEN : s.status.extractLsb' 16 9 = BitVec.ofNat 9 s.pqLen := by
  unfold status
  iterate 7 rw [BitVec.extractLsb'_append_eq_of_le (by decide)]
  exact extractLsb'_append_low _ _

theorem State.status_reservedHigh : s.status.extractLsb' 25 7 = 0 := by
  unfold status
  iterate 8 rw [BitVec.extractLsb'_append_eq_of_le (by decide)]
  exact BitVec.extractLsb'_eq_self

theorem State.bwst_ACC : s.bwst.extractLsb' 0 8 = s.ACC := by
  unfold bwst
  exact extractLsb'_append_low _ _

theorem State.bwst_NBITS : s.bwst.extractLsb' 8 3 = BitVec.ofNat 3 s.NBITS.val := by
  unfold bwst
  rw [BitVec.extractLsb'_append_eq_of_le (by decide)]
  exact extractLsb'_append_low _ _

theorem State.bwst_OPEN : s.bwst.extractLsb' 11 1 = flagBit s.OPEN := by
  unfold bwst
  iterate 2 rw [BitVec.extractLsb'_append_eq_of_le (by decide)]
  exact extractLsb'_append_low _ _

theorem State.bwst_reservedHigh : s.bwst.extractLsb' 12 20 = 0 := by
  unfold bwst
  iterate 3 rw [BitVec.extractLsb'_append_eq_of_le (by decide)]
  exact BitVec.extractLsb'_eq_self

/-- NBITS fits its 3 bits. -/
theorem State.toNat_ofNat_NBITS : (BitVec.ofNat 3 s.NBITS.val).toNat = s.NBITS.val := by
  rw [BitVec.toNat_ofNat, Nat.mod_eq_of_lt s.NBITS.isLt]

/-- A node id as a result value (R65). -/
theorem setWidth_nodeField (r : NodeId) : (nodeField r).setWidth 32 = BitVec.ofNat 32 r.val := by
  apply BitVec.eq_of_toNat_eq
  have := r.isLt
  simp only [nodeField, BitVec.toNat_setWidth, BitVec.toNat_ofNat]
  omega

/-- RDREG answers its view with aux 0 and changes nothing (R163). -/
theorem exec_rdreg {reg : BitVec 3} {v : BitVec 32} (h : s.view reg = some v) :
    exec (.rdreg reg) s = .next { s with rsp := s.rsp ++ [responseWord 0 0 v] } := by
  show (rdregRule reg s).finish = _
  rw [rdregRule, h]
  rfl

/-- An id or NIL as a result value, as RDREG's statement writes it. -/
theorem State.view_ROOT :
    s.view 1 = some (BitVec.ofNat 32 (match s.ROOT with | some r => r.val | none => 0x1FF)) := by
  show some ((optNodeField s.ROOT).setWidth 32) = _
  cases s.ROOT with
  | none => rfl
  | some r => exact congrArg some (setWidth_nodeField r)

theorem State.view_PQHEAD :
    s.view 5 = some (BitVec.ofNat 32 (match s.PQ with | id :: _ => id.val | [] => 0x1FF)) := by
  show some ((optNodeField s.PQ.head?).setWidth 32) = _
  cases s.PQ with
  | nil => rfl
  | cons id rest => exact congrArg some (setWidth_nodeField id)

end views

/-- Settles O50, field by field. -/
theorem rdregReadsTheViews : Obligations.RdregReadsTheViews := by
  intro s
  refine ⟨⟨s.status, exec_rdreg s rfl, s.status_FAULT, getLsbD_of_flagBit s.status_BUILT, getLsbD_of_flagBit s.status_TREE,
      getLsbD_of_flagBit s.status_reserved10, getLsbD_of_flagBit s.status_BWOPEN, ?_,
      getLsbD_of_flagBit s.status_reserved15, s.status_PQLEN, s.status_reservedHigh⟩,
    exec_rdreg s s.view_ROOT, exec_rdreg s rfl, exec_rdreg s rfl,
    ⟨s.bwst, exec_rdreg s rfl, s.bwst_ACC, ?_, getLsbD_of_flagBit s.bwst_OPEN, s.bwst_reservedHigh⟩,
    exec_rdreg s s.view_PQHEAD⟩
  · rw [s.status_NBITS, s.toNat_ofNat_NBITS]
  · rw [s.bwst_NBITS, s.toNat_ofNat_NBITS]

end Sys2Proof.Machine

namespace Sys2Proof.Machine

/-! ## BUILD makes one tree (spec/42_tree_builder.md R109, R112)

For every tie-break (93_implementation_defined.md U1). `Merging` is the invariant of BUILD's loop. -/

/-- Inserting related elements at the same place keeps two lists related. -/
theorem forall₂_insertAt {R : NodeId → CodeTree → Prop} {ids : List NodeId} {trees : List CodeTree} {x : NodeId}
    {tr : CodeTree} (h : List.Forall₂ R ids trees) (hx : R x tr) (k : Nat) :
    List.Forall₂ R (insertAt ids k x) (trees.take k ++ tr :: trees.drop k) :=
  List.rel_append (List.forall₂_take k h) (.cons hx (List.forall₂_drop k h))

theorem perm_take_cons_drop {α : Type} (l : List α) (k : Nat) (x : α) : List.Perm (l.take k ++ x :: l.drop k) (x :: l) := by
  simpa using List.perm_middle (l₁ := l.take k) (l₂ := l.drop k) (a := x)

section merging
variable {before : Comparator} {s t u : State} {trees : List CodeTree} {x y : NodeId} {rest : List NodeId} {nx ny : Node}

/-- The trees `now` hold the leaves and the internal nodes of the trees `trees` of `m` entries, and one more internal node
for each entry fewer (R112). -/
def SameLeaves (trees now : List CodeTree) (m k : Nat) : Prop :=
  List.Perm (now.flatMap CodeTree.leaves) (trees.flatMap CodeTree.leaves) ∧
    (now.map CodeTree.internals).sum + k = (trees.map CodeTree.internals).sum + m

/-- What BUILD's loop keeps, from `s` whose entries name `trees` (R109, R112). -/
structure State.Merging (before : Comparator) (s : State) (trees : List CodeTree) (u : State) : Prop where
  arena : u.ArenaInv before
  written : s.ArenaWritten u
  entries : u.PQ ≠ []
  room : u.NEXT.val + u.PQ.length = s.NEXT.val + s.PQ.length
  total : u.queueTotal = s.queueTotal
  trees : ∃ now, List.Forall₂ u.TreeAt u.PQ now ∧ SameLeaves trees now s.PQ.length u.PQ.length

/-- A merge step keeps every node but for its tag (R106). -/
theorem State.ForestInv.keepsNodes_merged (h : s.ForestInv) (hn : s.NEXT.val < 511) (x y : NodeId) (rest : List NodeId)
    (nx ny : Node) : s.KeepsNodes (s.merged before hn x y rest nx ny) := by
  have hf : (s.consumed x y rest).ForestInv :=
    h.of_keepsNodes (s.keepsNodes_consumed x y rest) (s.consumed_keepsNodes x y rest) rfl
  exact (s.keepsNodes_consumed x y rest).trans (State.keepsNodes_withNode (s := s.consumed x y rest) hn (hf.free hn) _ _)

/-- The new node of a merge step (R106). -/
theorem State.slot_merged_new (hn : s.NEXT.val < 511) :
    (s.merged before hn x y rest nx ny).slot ⟨s.NEXT.val, hn⟩ = some { mergedNode x y nx ny with st := .queued } :=
  (State.slot_withNode (s.consumed x y rest) hn _ _ _).trans (if_pos rfl)

/-- A merge step leaves the sum of the frequencies in the queue (R105). -/
theorem State.ArenaInv.queueTotal_merged (h : s.ArenaInv before) (hPQ : s.PQ = x :: y :: rest) (hx : s.slot x = some nx)
    (hy : s.slot y = some ny) (hn : s.NEXT.val < 511) (hsum : nx.frequency.toNat + ny.frequency.toNat < 2 ^ 32) :
    (s.merged before hn x y rest nx ny).queueTotal = s.queueTotal := by
  have hkeep := h.forest.keepsNodes_merged (before := before) hn x y rest nx ny
  have hrest : rest.map (s.merged before hn x y rest nx ny).freqOf = rest.map s.freqOf :=
    List.map_congr_left fun e he => hkeep.freqOf (h.queue.readable e (by simp [hPQ, he]))
  have hnew : (s.merged before hn x y rest nx ny).freqOf ⟨s.NEXT.val, hn⟩ = nx.frequency.toNat + ny.frequency.toNat := by
    rw [freqOf, State.slot_merged_new hn]
    exact Nat.mod_eq_of_lt hsum
  calc (s.merged before hn x y rest nx ny).queueTotal
      = ((⟨s.NEXT.val, hn⟩ :: rest).map (s.merged before hn x y rest nx ny).freqOf).sum :=
        ((insertAt_perm rest _ _).map _).sum_eq
    _ = nx.frequency.toNat + ny.frequency.toNat + (rest.map s.freqOf).sum := by rw [List.map_cons, List.sum_cons, hnew, hrest]
    _ = s.queueTotal := by simp [queueTotal, hPQ, freqOf, hx, hy, Nat.add_assoc]

/-- A merge step joins the trees of the two entries it removes and leaves the others (R106). -/
theorem State.ArenaInv.treesAt_merged (h : s.ArenaInv before) (hPQ : s.PQ = x :: y :: rest) (hn : s.NEXT.val < 511)
    {now : List CodeTree} (hnow : List.Forall₂ s.TreeAt s.PQ now) :
    ∃ now', List.Forall₂ (s.merged before hn x y rest nx ny).TreeAt (s.merged before hn x y rest nx ny).PQ now' ∧
      SameLeaves now now' s.PQ.length (s.PQ.length - 1) := by
  have hkeep := h.forest.keepsNodes_merged (before := before) hn x y rest nx ny
  rw [hPQ] at hnow ⊢
  obtain ⟨tx, now₁, hx, hnow₁, rfl⟩ := List.forall₂_cons_left_iff.1 hnow
  obtain ⟨ty, others, hy, hothers, rfl⟩ := List.forall₂_cons_left_iff.1 hnow₁
  have hnew : (s.merged before hn x y rest nx ny).TreeAt ⟨s.NEXT.val, hn⟩ (.node tx ty) :=
    .node (State.slot_merged_new hn) rfl (hkeep.treeAt hx) (hkeep.treeAt hy)
  refine ⟨_, forall₂_insertAt (hothers.imp fun _ _ => hkeep.treeAt) hnew _, ?_, ?_⟩
  · refine ((perm_take_cons_drop others _ _).flatMap_right _).trans (.of_eq ?_)
    simp [CodeTree.leaves]
  · rw [((perm_take_cons_drop others _ (CodeTree.node tx ty)).map _).sum_eq]
    simp [CodeTree.internals]
    omega

/-- A completed merge step keeps the loop's invariant. -/
theorem State.Merging.mergeStep (hb : before.TieBreak) (h : State.Merging before s trees u) {p : NodeId} {v : State}
    (hm : u.mergeStep before = .done p v) : State.Merging before s trees v := by
  have harena := h.arena.mergeStep hb hm
  have hwritten := h.written.mergeStep hm
  have hlen := State.mergeStep_length hm
  obtain ⟨x, y, rest, nx, ny, hPQ, hx, hy, hsum, hn, rfl⟩ := State.mergeStep_done_readable h.arena.queue.readable hm
  obtain ⟨now, hnow, hleaves, hint⟩ := h.trees
  obtain ⟨now', hnow', hleaves', hint'⟩ := h.arena.treesAt_merged (nx := nx) (ny := ny) hPQ hn hnow
  have hnext : (u.merged before hn x y rest nx ny).NEXT.val = u.NEXT.val + 1 := rfl
  have hroom := h.room
  have hlen2 : u.PQ.length = rest.length + 2 := by simp [hPQ]
  refine ⟨harena, hwritten, ?_, by omega, (h.arena.queueTotal_merged hPQ hx hy hn hsum).trans h.total,
    now', hnow', hleaves'.trans hleaves, by omega⟩
  exact List.ne_nil_of_length_pos (by omega)

/-- With two entries, room and no overflow a merge step completes (R106). -/
theorem State.Merging.mergeStep_completes (h : State.Merging before s trees u) (hlen : 2 ≤ u.PQ.length)
    (hroom : s.NEXT.val + (s.PQ.length - 1) ≤ 511) (htotal : s.queueTotal < 2 ^ 32) :
    ∃ p v, u.mergeStep before = .done p v := by
  have hnext := h.room
  have hcap := s.NEXT.isLt
  have hn : u.NEXT.val < 511 := by omega
  obtain ⟨x, y, rest, hPQ⟩ : ∃ x y rest, u.PQ = x :: y :: rest := by
    match hq : u.PQ, hlen with
    | x :: y :: rest, _ => exact ⟨x, y, rest, rfl⟩
  obtain ⟨nx, hx⟩ := Option.isSome_iff_exists.1 (h.arena.queue.readable x (by simp [hPQ]))
  obtain ⟨ny, hy⟩ := Option.isSome_iff_exists.1 (h.arena.queue.readable y (by simp [hPQ]))
  have hsum : nx.frequency.toNat + ny.frequency.toNat < 2 ^ 32 := by
    have htot := h.total
    simp only [queueTotal, hPQ, List.map_cons, List.sum_cons, freqOf, hx, hy, Option.map_some, Option.getD_some] at htot htotal
    omega
  exact ⟨_, _, State.mergeStep_readable h.arena.queue.readable hPQ hx hy hn hsum⟩

/-- BUILD's loop completes with one entry (R109, R112). -/
theorem State.Merging.mergeAll (hb : before.TieBreak) (hroom : s.NEXT.val + (s.PQ.length - 1) ≤ 511)
    (htotal : s.queueTotal < 2 ^ 32) (rounds : Nat) : ∀ u, State.Merging before s trees u → u.PQ.length ≤ rounds + 1 →
      ∃ v, u.mergeAll before rounds = .done () v ∧ State.Merging before s trees v ∧ v.PQ.length = 1 := by
  induction rounds with
  | zero =>
    intro u hu hlen
    have hpos := List.length_pos_iff.2 hu.entries
    exact ⟨u, rfl, hu, by omega⟩
  | succ rounds ih =>
    intro u hu hlen
    by_cases hmore : u.pqLen > 1
    · obtain ⟨p, v, hm⟩ := hu.mergeStep_completes hmore hroom htotal
      have hshorter := State.mergeStep_length hm
      obtain ⟨w, hw, hmw⟩ := ih v (hu.mergeStep hb hm) (by omega)
      exact ⟨w, by rw [State.mergeAll, if_pos hmore, hm]; exact hw, hmw⟩
    · have hpos := List.length_pos_iff.2 hu.entries
      refine ⟨u, by rw [State.mergeAll, if_neg hmore], hu, ?_⟩
      rw [pqLen] at hmore
      omega

/-- An entry of the queue names a tree. -/
theorem State.ArenaInv.exists_trees (h : s.ArenaInv before) : ∃ trees, List.Forall₂ s.TreeAt s.PQ trees := by
  have hall : ∀ pq : List NodeId, (∀ e ∈ pq, (s.slot e).isSome = true) → ∃ trees, List.Forall₂ s.TreeAt pq trees := by
    intro pq
    induction pq with
    | nil => exact fun _ => ⟨[], .nil⟩
    | cons e rest ih =>
      intro hpq
      obtain ⟨tr, htr⟩ := h.forest.exists_treeAt e (hpq e (by simp))
      obtain ⟨trees, htrees⟩ := ih fun x hx => hpq x (List.mem_cons_of_mem e hx)
      exact ⟨tr :: trees, .cons htr htrees⟩
  exact hall s.PQ h.queue.readable

/-- The state in which BUILD's loop starts. -/
theorem State.ArenaInv.merging_self (h : s.ArenaInv before) (hPQ : s.PQ ≠ []) (htrees : List.Forall₂ s.TreeAt s.PQ trees) :
    State.Merging before s trees s :=
  ⟨h, s.arenaWritten_refl, hPQ, rfl, rfl, trees, htrees, .refl _, rfl⟩

/-- What a BUILD that completes leaves of `s`: one tree `tr` under the id `r` (R109, R112). -/
structure State.BuildEnds (s t : State) (r : NodeId) (tr : CodeTree) : Prop where
  next : t.NEXT.val = s.NEXT.val + (s.PQ.length - 1)
  root : ∃ n, t.slot r = some n ∧ n.st = .root ∧ n.frequency.toNat = s.queueTotal
  tree : t.TreeAt r tr
  counts : ∀ trees, List.Forall₂ s.TreeAt s.PQ trees → List.Perm tr.leaves (trees.flatMap CodeTree.leaves) ∧
    tr.internals = (trees.map CodeTree.internals).sum + (s.PQ.length - 1)
  frame : t = { s with NEXT := t.NEXT, N := t.N, PQ := [], ROOT := some r, BUILT := true }

/-- When the loop has left one entry, the drain ends BUILD. -/
theorem State.Merging.drained (h : State.Merging before s trees u) (hs : s.PQ ≠ [])
    (htrees : List.Forall₂ s.TreeAt s.PQ trees) {r : NodeId} (hPQ : u.PQ = [r]) : ∃ tr, s.BuildEnds (u.drained r []) r tr := by
  have hkeep : u.KeepsNodes (u.drained r []) := (u.setQueue_setTag_keepsNodes [] r .root).trans (.of_N_eq rfl)
  obtain ⟨now, hnow, hleaves, hint⟩ := h.trees
  rw [hPQ] at hnow hint
  obtain ⟨tr, _, htr, hnil, rfl⟩ := List.forall₂_cons_left_iff.1 hnow
  obtain rfl := List.forall₂_nil_left_iff.1 hnil
  obtain ⟨n, hn, -⟩ := h.arena.queue.front hPQ
  have hroot : (u.drained r []).slot r = some { n with st := .root } := by
    show ((u.setQueue []).setTag r .root).slot r = _
    simp [hn]
  have hpos := List.length_pos_iff.2 hs
  have hroom := h.room
  have htotal := h.total
  simp only [queueTotal, hPQ, freqOf, hn, List.map_cons, List.map_nil, List.sum_cons, List.sum_nil, Option.map_some,
    Option.getD_some] at htotal
  rw [hPQ] at hroom
  refine ⟨tr, ?_, ⟨_, hroot, rfl, htotal⟩, hkeep.treeAt htr, fun trees' htrees' => ?_, ?_⟩
  · show u.NEXT.val = _
    rw [List.length_singleton] at hroom
    omega
  · have hunique : Relator.RightUnique s.TreeAt := fun _ _ _ => State.TreeAt_unique
    obtain rfl : trees' = trees := hunique.forall₂ htrees' htrees
    simp only [List.flatMap_cons, List.flatMap_nil, List.append_nil, List.map_cons, List.map_nil, List.sum_cons,
      List.sum_nil, List.length_singleton] at hleaves hint
    exact ⟨hleaves, by omega⟩
  · obtain ⟨_, _, _, rfl⟩ := h.written
    rfl

/-- BUILD's rule, for every tie-break, where ROOT is NIL, the queue is not empty, and there is room and no overflow. -/
theorem buildRule_ends (hb : before.TieBreak) (h : s.ArenaInv before) (hroot : s.ROOT = none) (hPQ : s.PQ ≠ [])
    (hroom : s.NEXT.val + (s.PQ.length - 1) ≤ 511) (htotal : s.queueTotal < 2 ^ 32) :
    ∃ t r tr, buildRule before s = .done (.node (some r)) t ∧ s.BuildEnds t r tr := by
  obtain ⟨trees, htrees⟩ := h.exists_trees
  have hlen : ¬ s.pqLen = 0 := fun e => hPQ (List.length_eq_zero_iff.1 e)
  obtain ⟨u, hu, hmerging, hone⟩ :=
    State.Merging.mergeAll hb hroom htotal s.pqLen s (h.merging_self hPQ htrees) (Nat.le_succ _)
  obtain ⟨r, hr⟩ := List.length_eq_one_iff.1 hone
  obtain ⟨tr, hends⟩ := hmerging.drained hPQ htrees hr
  refine ⟨_, r, tr, ?_, hends⟩
  rw [buildRule, hroot, if_neg (by simp), if_neg hlen, hu]
  simp [State.drainRoot, State.dequeue, hr, State.drained]

/-- A queue of leaves names these leaves' trees. -/
theorem State.QueueOfLeaves.treesAt {chars : List Byte} (h : s.QueueOfLeaves chars) :
    List.Forall₂ s.TreeAt s.PQ (chars.map .leaf) := by
  refine List.forall₂_map_right_iff.2 (h.imp ?_)
  rintro e c ⟨n, hn, hch, rfl⟩
  exact .leaf hn hch

end merging

/-- Settles O37: BUILD's rule for this hardware's comparator, and its response. -/
theorem buildMakesOneTree : Obligations.BuildMakesOneTree := by
  intro s hs hf hroot hPQ hroom htotal
  obtain ⟨u, r, tr, hrule, hends⟩ :=
    buildRule_ends nodeBefore_tieBreak (State.invFor_iff.1 hs).1 hroot hPQ hroom htotal
  obtain ⟨n, hn, hst, hfreq⟩ := hends.root
  have hexec : exec .build s = .next (u.respond 0 0 ((optNodeField (some r)).setWidth 32)) := by
    show s.runUnlessFaulted (buildRule nodeBefore) = _
    rw [s.runUnlessFaulted_free _ hf, hrule]
    rfl
  have hword : responseWord 0 0 ((optNodeField (some r)).setWidth 32) = BitVec.ofNat 64 r.val := by
    have := r.isLt
    rw [optNodeField, setWidth_nodeField, responseWord_count r.val (by omega)]
  have hframe := hends.frame
  have hkeep : u.KeepsNodes (u.respond 0 0 ((optNodeField (some r)).setWidth 32)) := .of_N_eq rfl
  refine ⟨_, r, n, tr, hexec, ?_, ?_, ?_, hends.next, hn, hst, hfreq, hkeep.treeAt hends.tree, hends.counts, fun chars hchars => ?_, ?_⟩
  · rw [State.respond_ROOT, hframe]
  · rw [State.respond_BUILT, hframe]
  · rw [State.respond_PQ, hframe]
  · have hcounts := hends.counts _ (State.QueueOfLeaves.treesAt hchars)
    simpa [List.flatMap_map, CodeTree.leaves, CodeTree.internals, Function.comp_def] using hcounts
  · rw [State.respond, hword, hframe]

end Sys2Proof.Machine

namespace Sys2Proof.Machine

/-! ## Command words (spec/30_encoding.md R60 to R74)

A row of R67 fixes the opcode and leaves the low bits of each field to the operands, so a word matches it exactly where
its opcode is the row's and its fields fit these bits. The two round trips follow, and from them which words are legal. -/

section words
open Sys2Proof.Laws
variable {w : Word} {i j : Instr}

/-! ### The rows by their operand bits -/

/-- Every bit of a field from bit `n` up. -/
def highBits (m n : Nat) : BitVec m := BitVec.allOnes m <<< n

@[simp] theorem getLsbD_highBits (m n k : Nat) : (highBits m n).getLsbD k = (decide (k < m) && decide (n ≤ k)) := by
  by_cases hk : k < m
  · simp [highBits, hk, ← decide_not]
  · simp [highBits, hk]

/-- A field has no bit from bit `n` up where it is below `2 ^ n`. -/
theorem and_highBits_eq_zero {m : Nat} (n : Nat) (v : BitVec m) : v &&& highBits m n = 0 ↔ v.toNat < 2 ^ n := by
  constructor
  · intro h
    refine Nat.lt_pow_two_of_testBit _ fun k hk => ?_
    have hbit : (v &&& highBits m n).getLsbD k = false := by rw [h]; exact BitVec.getLsbD_zero
    rw [BitVec.getLsbD_and, getLsbD_highBits, decide_eq_true hk] at hbit
    by_cases hkm : k < m
    · rwa [decide_eq_true hkm, Bool.and_true, Bool.and_true] at hbit
    · exact BitVec.getLsbD_of_ge v k (by omega)
  · intro h
    apply BitVec.eq_of_getLsbD_eq
    intro k _
    by_cases hkn : n ≤ k
    · have hv : v.getLsbD k = false := Nat.testBit_lt_two_pow (h.trans_le (Nat.pow_le_pow_right (by decide) hkn))
      simp [hv]
    · simp [hkn]

/-- How many low bits of the fields `a`, `b` and `imm` belong to operands (R66, R67). -/
structure OperandBits where
  a : Nat
  b : Nat
  imm : Nat

/-- The operand bits of a command's row (R66, R67). -/
def operandBits : Instr → OperandBits
  | .rdreg _ => ⟨3, 0, 0⟩
  | .nodeRd _ _ => ⟨1, 9, 0⟩
  | .freqWr _ _ | .enql _ _ => ⟨8, 0, 32⟩
  | .enq _ => ⟨0, 9, 0⟩
  | .codeRd _ _ => ⟨8, 3, 0⟩
  | .emit _ => ⟨8, 0, 0⟩
  | .wbits _ _ => ⟨8, 16, 0⟩
  | .reset | .seed | .srcerr | .deq | .merge | .build | .ser | .mktab | .openSink | .closeSink => ⟨0, 0, 0⟩

/-- A command's row (R67): the opcode alone, and every bit fixed that belongs to no operand. -/
def rowFor (i : Instr) : Row where
  matchBits := commandWord (opcodeOf i) 0 0 0
  mask := commandWord (BitVec.allOnes 8) (highBits 8 (operandBits i).a) (highBits 16 (operandBits i).b)
    (highBits 32 (operandBits i).imm)

/-- The decoder's rows are these. -/
theorem rowOf_opcodeOf (i : Instr) : rowOf (opcodeOf i) = some (rowFor i) := by
  cases i <;> simp only [opcodeOf, rowFor, operandBits] <;> decide

/-- A word matches a command's row where its opcode is the command's and its fields fit the operand bits. -/
theorem and_mask_eq_iff : w &&& (rowFor i).mask = (rowFor i).matchBits ↔ opField w = opcodeOf i ∧
    (aField w).toNat < 2 ^ (operandBits i).a ∧ (bField w).toNat < 2 ^ (operandBits i).b ∧
    (immField w).toNat < 2 ^ (operandBits i).imm := by
  conv_lhs => rw [← commandWord_fields w]
  rw [rowFor, commandWord_and, commandWord_inj, BitVec.and_allOnes, and_highBits_eq_zero, and_highBits_eq_zero,
    and_highBits_eq_zero]

/-! ### The opcode and the operands -/

/-- An encoded command carries its opcode. -/
theorem opField_encode (i : Instr) : opField (encode i) = opcodeOf i := by
  cases i <;> exact opField_commandWord _ _ _ _

/-- Every command's word matches the row of its opcode. -/
theorem encodedMatch : ∀ i, EncodedMatch.Statement i
  | .reset => EncodedMatch.reset
  | .rdreg reg => EncodedMatch.rdreg reg
  | .nodeRd id field => EncodedMatch.nodeRd id field
  | .freqWr sym count => EncodedMatch.freqWr sym count
  | .seed => EncodedMatch.seed
  | .srcerr => EncodedMatch.srcerr
  | .enql sym freq => EncodedMatch.enql sym freq
  | .enq id => EncodedMatch.enq id
  | .deq => EncodedMatch.deq
  | .merge => EncodedMatch.merge
  | .build => EncodedMatch.build
  | .ser => EncodedMatch.ser
  | .mktab => EncodedMatch.mktab
  | .codeRd sym chunk => EncodedMatch.codeRd sym chunk
  | .emit sym => EncodedMatch.emit sym
  | .openSink => EncodedMatch.openSink
  | .wbits value width => EncodedMatch.wbits value width
  | .closeSink => EncodedMatch.closeSink

/-- An encoded command matches its row. -/
theorem encode_and_mask (i : Instr) : encode i &&& (rowFor i).mask = (rowFor i).matchBits := by
  obtain ⟨r, hr, hm⟩ := encodedMatch i
  rw [rowOf_opcodeOf, Option.some.injEq] at hr
  exact hr ▸ hm

/-- The low bits of a zero-extended operand are the operand. -/
theorem extractLsb'_setWidth_self {n m : Nat} (h : n ≤ m) (v : BitVec n) : (v.setWidth m).extractLsb' 0 n = v := by
  apply BitVec.eq_of_getLsbD_eq
  intro k hk
  simp [hk, show k < m by omega]

/-- A field that fits an operand's bits is the operand, zero-extended. -/
theorem setWidth_extractLsb'_self {n m : Nat} {v : BitVec m} (h : v.toNat < 2 ^ n) :
    (v.extractLsb' 0 n).setWidth m = v := by
  apply BitVec.eq_of_toNat_eq
  simp [Nat.mod_eq_of_lt h]

/-- The operands of an encoded command are the command's (R61). -/
theorem operandsOf_encode (i : Instr) : operandsOf (encode i) = some i := by
  rw [operandsOf, opField_encode]
  cases i <;> simp [opcodeOf, encode, extractLsb'_setWidth_self]

/-- Operands are read only from a word with the command's opcode. -/
theorem opField_of_operandsOf (h : operandsOf w = some i) : opField w = opcodeOf i := by
  unfold operandsOf at h
  split at h <;> cases h <;> exact BitVec.eq_of_toNat_eq ‹_›

/-- A word with a command's opcode has operands of a command with the same mnemonic. -/
theorem exists_operandsOf (h : opField w = opcodeOf i) : ∃ j, operandsOf w = some j ∧ mnemonicOf j = mnemonicOf i := by
  rw [operandsOf, h]
  cases i <;> exact ⟨_, rfl, rfl⟩

/-- The word of the operands read from `w`: `w` without the bits that belong to no operand. -/
theorem encode_of_operandsOf (h : operandsOf w = some i) : encode i = commandWord (opField w)
    (((aField w).extractLsb' 0 (operandBits i).a).setWidth 8) (((bField w).extractLsb' 0 (operandBits i).b).setWidth 16)
    (((immField w).extractLsb' 0 (operandBits i).imm).setWidth 32) := by
  rw [opField_of_operandsOf h]
  unfold operandsOf at h
  split at h <;> cases h <;> simp [encode, opcodeOf, operandBits]

/-- The operands of a word that matches their row determine the word (R69). -/
theorem encode_eq_of_operandsOf (h : operandsOf w = some i) (hm : w &&& (rowFor i).mask = (rowFor i).matchBits) :
    encode i = w := by
  obtain ⟨-, ha, hb, himm⟩ := and_mask_eq_iff.1 hm
  rw [encode_of_operandsOf h, setWidth_extractLsb'_self ha, setWidth_extractLsb'_self hb, setWidth_extractLsb'_self himm,
    commandWord_fields]

/-! ### Decoding -/

/-- What a word with an opcode of R66 decodes to. -/
theorem decode_of_operandsOf (h : operandsOf w = some i) : decode w =
    if w &&& (rowFor i).mask ≠ (rowFor i).matchBits then .illegal .unusedBitsNotZero
    else if i.wellFormed then .instr i else .illegal .reservedRegister := by
  rw [decode, opField_of_operandsOf h, rowOf_opcodeOf, h]

/-- A word decodes to the command whose operands it has, where it matches the row and the command is well-formed (R68). -/
theorem decode_eq_instr_iff_row : decode w = .instr i ↔
    operandsOf w = some i ∧ w &&& (rowFor i).mask = (rowFor i).matchBits ∧ i.wellFormed = true := by
  constructor
  · intro h
    cases hi : operandsOf w with
    | none => cases hr : rowOf (opField w) <;> simp [decode, hi, hr] at h
    | some j =>
      rw [decode_of_operandsOf hi] at h
      split_ifs at h with hm hw
      cases h
      exact ⟨rfl, not_not.1 hm, hw⟩
  · rintro ⟨hi, hm, hw⟩
    rw [decode_of_operandsOf hi, if_neg (not_not.2 hm), if_pos hw]

/-- A word decodes to a command exactly where it is the command's word (R68, R69). -/
theorem decode_eq_instr_iff : decode w = .instr i ↔ i.wellFormed = true ∧ encode i = w := by
  rw [decode_eq_instr_iff_row]
  constructor
  · rintro ⟨hi, hm, hw⟩
    exact ⟨hw, encode_eq_of_operandsOf hi hm⟩
  · rintro ⟨hw, rfl⟩
    exact ⟨operandsOf_encode i, encode_and_mask i, hw⟩

/-- A word that decodes to a command has its opcode. -/
theorem opField_of_decode (h : decode w = .instr i) : opField w = opcodeOf i :=
  opField_of_operandsOf (decode_eq_instr_iff_row.1 h).1

/-! ### The table of R67 -/

/-- The row of R67 that a command falls under. -/
def tableRow (i : Instr) : String × Word × Word := (mnemonicOf i, (rowFor i).matchBits, (rowFor i).mask)

/-- One command of each row, in the order of R66. -/
def oneOfEach : List Instr :=
  [.reset, .rdreg 0, .nodeRd 0 0, .freqWr 0 0, .seed, .srcerr, .enql 0 0, .enq 0, .deq, .merge, .build, .ser, .mktab,
    .codeRd 0 0, .emit 0, .openSink, .wbits 0 0, .closeSink]

theorem tableR67_eq_map : tableR67 = oneOfEach.map tableRow := by decide

theorem tableRow_mem (i : Instr) : tableRow i ∈ tableR67 := by
  rw [tableR67_eq_map]
  cases i <;> simp [oneOfEach, tableRow, rowFor, opcodeOf, operandBits, mnemonicOf]

/-- The table has one row per mnemonic. -/
theorem tableR67_unique : ∀ p ∈ tableR67, ∀ q ∈ tableR67, p.1 = q.1 → p = q := by decide

/-- A row's opcode is its command's. -/
theorem opField_tableRow (i : Instr) : opField (tableRow i).2.1 = opcodeOf i := opField_commandWord _ _ _ _

/-- Commands with one mnemonic have one row. -/
theorem rowFor_eq_of_mnemonicOf_eq (h : mnemonicOf i = mnemonicOf j) : rowFor i = rowFor j := by
  have hrow : tableRow i = tableRow j := tableR67_unique _ (tableRow_mem i) _ (tableRow_mem j) h
  exact congrArg (fun row : String × Word × Word => Row.mk row.2.1 row.2.2) hrow

/-- The extra condition of R67 is RDREG's alone: its field `a` is at most 5. -/
theorem wellFormed_iff (i : Instr) : i.wellFormed = true ↔ (mnemonicOf i = "RDREG" → (aField (encode i)).toNat ≤ 5) := by
  cases i with
  | rdreg reg =>
    simp [Instr.wellFormed, mnemonicOf, encode]
    omega
  | _ => simp [Instr.wellFormed, mnemonicOf]

/-- A word is a legal encoding of a command with the mnemonic of `j` iff it matches the row of `j` and meets the extra
condition (R67). -/
theorem exists_decode_iff_row : (∃ i, decode w = .instr i ∧ mnemonicOf i = mnemonicOf j) ↔
    w &&& (rowFor j).mask = (rowFor j).matchBits ∧ (mnemonicOf j = "RDREG" → (aField w).toNat ≤ 5) := by
  constructor
  · rintro ⟨i, hd, hmn⟩
    obtain ⟨hw, rfl⟩ := decode_eq_instr_iff.1 hd
    rw [← rowFor_eq_of_mnemonicOf_eq hmn, ← hmn]
    exact ⟨encode_and_mask i, (wellFormed_iff i).1 hw⟩
  · rintro ⟨hm, ha⟩
    obtain ⟨i, hi, hmn⟩ := exists_operandsOf (and_mask_eq_iff.1 hm).1
    rw [← rowFor_eq_of_mnemonicOf_eq hmn] at hm
    have he : encode i = w := encode_eq_of_operandsOf hi hm
    exact ⟨i, decode_eq_instr_iff.2 ⟨(wellFormed_iff i).2 (by rwa [hmn, he]), he⟩, hmn⟩

/-- A row of the table is some command's. -/
theorem exists_tableRow {row : String × Word × Word} (h : row ∈ tableR67) : ∃ i, tableRow i = row := by
  rw [tableR67_eq_map] at h
  obtain ⟨i, -, hrow⟩ := List.mem_map.1 h
  exact ⟨i, hrow⟩

/-! ### Illegal words -/

/-- A word that decodes to no command is illegal. -/
theorem exists_illegal (h : ∀ i, decode w ≠ .instr i) : ∃ why, decode w = .illegal why := by
  cases hd : decode w with
  | instr i => exact absurd hd (h i)
  | illegal why => exact ⟨why, rfl⟩

/-- A word with a command's opcode that does not match the command's row, or fails the extra condition, is illegal (R70). -/
theorem exists_illegal_of_opField (hop : opField w = opcodeOf j)
    (h : ¬ (w &&& (rowFor j).mask = (rowFor j).matchBits ∧ (mnemonicOf j = "RDREG" → (aField w).toNat ≤ 5))) :
    ∃ why, decode w = .illegal why := by
  refine exists_illegal fun i hd => h (exists_decode_iff_row.1 ⟨i, hd, ?_⟩)
  obtain ⟨i', hi', hmn⟩ := exists_operandsOf hop
  obtain ⟨hi, -⟩ := decode_eq_instr_iff_row.1 hd
  rw [hi, Option.some.injEq] at hi'
  rw [hi', hmn]

/-- A word with a command's opcode and a field beyond the command's operand bits is illegal (R70). -/
theorem exists_illegal_of_wide_field (hop : opField w = opcodeOf j)
    (h : 2 ^ (operandBits j).a ≤ (aField w).toNat ∨ 2 ^ (operandBits j).b ≤ (bField w).toNat) :
    ∃ why, decode w = .illegal why := by
  refine exists_illegal_of_opField hop fun ⟨hm, _⟩ => ?_
  obtain ⟨-, ha, hb, -⟩ := and_mask_eq_iff.1 hm
  omega

/-- A presented illegal word raises IllegalCommand (R70, R160). -/
theorem step_illegal {s : State} {why : Illegal} {rest : List HostEvent} (hhost : s.host = .command w :: rest)
    (hd : decode w = .illegal why) : step s = .next ({ s with host := rest }.raise .illegalCommand) := by
  simp only [step, State.nextPresented, hhost, hd, State.illegalWord]

end words

/-- Settles O1: the opcode, the operands, the row's match and the extra condition of an encoded command. -/
theorem decodeEncodeRoundTrip : Obligations.DecodeEncodeRoundTrip :=
  fun _ hw => decode_eq_instr_iff.2 ⟨hw, rfl⟩

/-- Settles O2: a word that matches a row is made of its opcode and its operands. -/
theorem encodeDecodeRoundTrip : Obligations.EncodeDecodeRoundTrip :=
  fun _ _ hd => decode_eq_instr_iff.1 hd

/-- Settles O3: each row of the table is a command's. -/
theorem legalWordsAreTheTableRows : Obligations.LegalWordsAreTheTableRows := by
  intro m matchBits mask w hrow
  obtain ⟨j, hj⟩ := exists_tableRow hrow
  cases hj
  exact exists_decode_iff_row

/-- Settles O4: the words decode, and a word that decodes is its command's word (O2). -/
theorem specExampleWordsDecode : Obligations.SpecExampleWordsDecode := by
  intro p hp
  have hd : decode p.1 = .instr p.2 := by
    revert p
    decide
  exact ⟨(decode_eq_instr_iff.1 hd).2, hd⟩

/-- Settles O5: the raise, and the ways a word fails to match its row. -/
theorem illegalWordRaisesIllegalCommand : Obligations.IllegalWordRaisesIllegalCommand := by
  refine ⟨fun s w why rest hhost hd => step_illegal hhost hd, fun w h => ?_, fun w row hrow hop hm => ?_,
    fun w hop ha => ?_, fun w hop h => ?_, fun w hop hb => ?_, fun w hop hb => ?_⟩
  · exact exists_illegal fun i hd =>
      h _ (tableRow_mem i) ((opField_of_decode hd).trans (opField_tableRow i).symm)
  · obtain ⟨j, rfl⟩ := exists_tableRow hrow
    exact exists_illegal_of_opField (hop.trans (opField_tableRow j)) fun hlegal => hm hlegal.1
  · refine exists_illegal_of_opField (j := .rdreg 0) hop fun ⟨_, hle⟩ => ?_
    have := hle rfl
    omega
  · exact exists_illegal_of_wide_field (j := .nodeRd 0 0) hop h
  · exact exists_illegal_of_wide_field (j := .enq 0) hop (.inr hb)
  · exact exists_illegal_of_wide_field (j := .codeRd 0 0) hop (.inr hb)

end Sys2Proof.Machine

namespace Sys2Proof.Machine

/-! ## A raise leaves the state as it was (spec/60_exceptions.md R180, R181)

`RuleResult.Raises` is the half of `RuleResult.Leaves` that speaks of a rule that raises; what a rule has written by then
is said once per rule. -/

/-- `P` holds of the state in which a rule, or a part of one, raises. -/
def RuleResult.Raises {α : Type} (P : State → Prop) : RuleResult α → Prop
  | .raised _ u => P u
  | .done _ _ | .stuck _ => True

section raises
variable {α β : Type} {P : State → Prop} {r : RuleResult α} {s : State}

theorem RuleResult.raises_iff : r.Raises P ↔ ∀ f u, r = .raised f u → P u := by
  cases r <;> simp [Raises]

theorem RuleResult.Leaves.raises (h : r.Leaves P) : r.Raises P :=
  RuleResult.raises_iff.2 (RuleResult.leaves_iff.1 h).2

theorem RuleResult.Raises.andThen {k : α → State → RuleResult β} (h : r.Raises P)
    (hk : ∀ a u, r = .done a u → (k a u).Raises P) : (r.andThen k).Raises P := by
  cases r with
  | done a u => exact hk a u rfl
  | raised f u => exact h
  | stuck w => trivial

theorem RuleResult.Raises.ite {p : Prop} [Decidable p] {r' : RuleResult α} (h : r.Raises P) (h' : r'.Raises P) :
    (if p then r else r').Raises P := by
  split
  · exact h
  · exact h'

theorem RuleResult.Raises.here (f : FaultKind) : (RuleResult.raised f s : RuleResult α).Raises (· = s) := rfl

/-! ### The rules that check before they write -/

theorem enqlRule_raises (before : Comparator) (sym : Byte) (freq : Freq) : (enqlRule before sym freq s).Raises (· = s) :=
  (RuleResult.raises_iff.2 fun _ _ h => (State.newLeaf_raised h).2.2).andThen fun _ _ _ => trivial

theorem enqRule_raises (before : Comparator) (id : BitVec 9) : (enqRule before id s).Raises (· = s) := by
  have henq : ∀ x, (s.enqueue before x).Raises (· = s) := fun x =>
    RuleResult.raises_iff.2 fun f u h => absurd h (State.enqueue_ne_raised s u before x f)
  unfold enqRule
  split
  · rfl
  · refine .ite (.here _) ?_
    split
    · trivial
    · exact .ite (.here _) (.ite (.here _) ((henq _).andThen fun _ _ _ => trivial))

theorem deqRule_raises : (deqRule s).Raises (· = s) := by
  unfold deqRule
  rcases s.dequeue_cases with ⟨-, hd⟩ | ⟨x, rest, -, hd⟩ <;> rw [hd]
  · rfl
  · trivial

theorem mergeRule_raises (before : Comparator) : (mergeRule before s).Raises (· = s) :=
  (RuleResult.raises_iff.2 fun _ _ h => (State.mergeStep_raised h).1).andThen fun _ _ _ => trivial

theorem mktabRule_raises : (mktabRule s).Raises (· = s) := by
  unfold mktabRule
  split <;> trivial

theorem serRule_raises (order : SerOrder) : (serRule order s).Raises (· = s) := by
  unfold serRule
  refine .ite (.here _) ?_
  split
  · trivial
  · split <;> trivial

/-- A rule other than SEED's and BUILD's makes all its checks before it writes (R180(4)). -/
theorem rule_raises_unchanged {i : Instr} (hseed : i ≠ .seed) (hbuild : i ≠ .build) : (ruleOf i s).Raises (· = s) := by
  cases i with
  | seed => exact absurd rfl hseed
  | build => exact absurd rfl hbuild
  | reset | freqWr _ _ => trivial
  | rdreg reg => exact (rule_frame (.rdreg reg) s).raises
  | nodeRd id field => exact (rule_frame (.nodeRd id field) s).raises
  | codeRd sym chunk => exact (rule_frame (.codeRd sym chunk) s).raises
  | srcerr => exact (rule_frame .srcerr s).raises
  | enql sym freq => exact enqlRule_raises nodeBefore sym freq
  | enq id => exact enqRule_raises nodeBefore id
  | deq => exact deqRule_raises
  | merge => exact mergeRule_raises nodeBefore
  | ser => exact serRule_raises Config.serOrder
  | mktab => exact mktabRule_raises
  | emit _ | wbits _ _ => exact .ite (.here _) (.ite (.here _) trivial)
  | openSink | closeSink => exact .ite (.here _) trivial

/-! ### The two rules that loop -/

/-- Where BUILD raises, its merge steps have written the arena and the queue (R109). -/
theorem buildRule_raises (before : Comparator) : (buildRule before s).Raises s.ArenaWritten := by
  unfold buildRule
  split
  · exact s.arenaWritten_refl
  · split
    · trivial
    · have hloop := State.mergeAll_leaves (before := before) (fun _ _ _ => .mergeStep) s.pqLen s s.arenaWritten_refl
      refine hloop.raises.andThen fun a u hu => ?_
      unfold State.drainRoot
      rcases u.dequeue_cases with ⟨-, hd⟩ | ⟨r, rest, -, hd⟩ <;> rw [hd]
      · exact (RuleResult.leaves_iff.1 hloop).1 a u hu
      · trivial

/-- Where a rule raises, at most the arena and the queue are written. -/
theorem rule_raises_arenaWritten (i : Instr) (s : State) : (ruleOf i s).Raises s.ArenaWritten := by
  by_cases hseed : i = .seed
  · subst hseed
    exact (rule_frame .seed s).raises
  · by_cases hbuild : i = .build
    · subst hbuild
      exact buildRule_raises nodeBefore
    · rw [RuleResult.raises_iff]
      intro f u hr
      rw [RuleResult.raises_iff.1 (rule_raises_unchanged hseed hbuild) f u hr]
      exact s.arenaWritten_refl

end raises

/-- A command whose answer has a non-zero code was refused, or its rule raised. -/
theorem exec_next_of_code_ne_zero {i : Instr} {s t : State} {q : Word} (h : exec i s = .next t)
    (hrsp : t.rsp = s.rsp ++ [q]) (hq : respCode q ≠ 0) :
    t = s.refuse ∨ ∃ f u, ruleOf i s = .raised f u ∧ t = u.raise f := by
  rcases exec_next h with ⟨-, -, ht⟩ | ⟨a, u, -, rfl⟩ | hraised
  · exact .inl ht
  · have hlast := congrArg List.getLast? hrsp
    rw [State.respond_rsp, List.getLast?_concat, List.getLast?_concat, Option.some.injEq] at hlast
    rw [← hlast, respCode_responseWord] at hq
    exact absurd rfl hq
  · exact .inr hraised

/-- Settles O11: a refusal writes nothing, and a rule that raises has written what `rule_raises_unchanged` and
`rule_raises_arenaWritten` say. -/
theorem faultsArePrecise : Obligations.FaultsArePrecise := by
  intro i s t q h hrsp hq
  rcases exec_next_of_code_ne_zero h hrsp hq with rfl | ⟨f, u, hr, rfl⟩
  · exact ⟨fun _ _ => rfl, rfl⟩
  · refine ⟨fun hseed hbuild => ?_, ?_⟩
    · obtain rfl : u = s := RuleResult.raises_iff.1 (rule_raises_unchanged hseed hbuild) f u hr
      rfl
    · obtain ⟨next, N, PQ, rfl⟩ := RuleResult.raises_iff.1 (rule_raises_arenaWritten i s) f u hr
      rfl

end Sys2Proof.Machine

namespace Sys2Proof.Machine

/-! ## FREQ_WR and SRCERR (spec/40_frequency_interface.md R81, R86) -/

/-- Where FAULT is 0 every command runs its rule (R160). -/
theorem exec_free (i : Instr) {s : State} (hf : s.FAULT = 0) : exec i s = (ruleOf i s).finish := by
  by_cases hi : i = .reset ∨ i.readClass = true
  · exact exec_always s hi
  · simp only [not_or, Bool.not_eq_true] at hi
    rw [exec_unlessFaulted s hi.1 hi.2, State.runUnlessFaulted_free s _ hf]

/-- Settles O21: the write of one entry of FREQ, and the response 0. -/
theorem freqWrWritesOneEntry : Obligations.FreqWrWritesOneEntry := by
  intro s sym count hf
  have hfreq : ∀ x, ((s.setFreq sym count).respond 0 0 0).freq x = if x = sym then count else s.freq x :=
    fun x => s.freq_setFreq sym x count
  refine ⟨(s.setFreq sym count).respond 0 0 0, exec_free _ hf, ?_, fun x hx => ?_, ?_⟩
  · rw [hfreq, if_pos rfl]
  · rw [hfreq, if_neg hx]
  · rw [State.respond, responseWord_zero]
    rfl

/-- Settles O24: SRCERR's rule raises SourceReadError in every state it runs in. -/
theorem srcerrRaisesSourceReadError : Obligations.SrcerrRaisesSourceReadError := by
  refine fun s => ⟨fun hf => ?_, fun hf => ?_⟩
  · have hword : responseWord 0x01 0 0 = 0x0100000000000000 := by decide
    rw [exec_free _ hf, ← hword]
    show Host.Outcome.next (s.raise .sourceRead) = _
    rw [State.raise_eq, State.afterFault, if_pos hf]
    rfl
  · have hword : responseWord refusedCode 0 0 = 0xFF00000000000000 := by decide
    rw [exec_unlessFaulted s (by simp) rfl, State.runUnlessFaulted_faulted s _ hf, ← hword]
    rfl

end Sys2Proof.Machine

namespace Sys2Proof.Machine

/-! ## SEED (spec/40_frequency_interface.md R82 to R84)

SEED's loop is followed leaf by leaf: `State.LeavesAdded.cons` puts one `new_leaf` before the leaves the rest of the loop
adds, and `State.seedFrom_eq` says where the loop ends. -/

/-- The ids `LeavesAdded` gives to `n` leaves from NEXT = `m` on (R94). -/
def idsFrom (m n : Nat) : List NodeId :=
  (List.finRange 511).filter fun id => decide (m ≤ id.val) && decide (id.val < m + n)

theorem mem_idsFrom {m n : Nat} {id : NodeId} : id ∈ idsFrom m n ↔ m ≤ id.val ∧ id.val < m + n := by
  simp [idsFrom]

theorem nodup_idsFrom (m n : Nat) : (idsFrom m n).Nodup := (List.nodup_finRange 511).filter _

theorem idsFrom_zero (m : Nat) : idsFrom m 0 = [] := by
  rw [List.eq_nil_iff_forall_not_mem]
  intro id
  rw [mem_idsFrom]
  omega

/-- The first of the ids, and the others. -/
theorem idsFrom_succ_perm {m : Nat} (hm : m < 511) (n : Nat) : (idsFrom m (n + 1)).Perm (⟨m, hm⟩ :: idsFrom (m + 1) n) := by
  have hnew : (⟨m, hm⟩ : NodeId) ∉ idsFrom (m + 1) n := by
    rw [mem_idsFrom]
    simp
  refine (List.perm_ext_iff_of_nodup (nodup_idsFrom _ _) (List.nodup_cons.2 ⟨hnew, nodup_idsFrom _ _⟩)).2 fun id => ?_
  rw [List.mem_cons, mem_idsFrom, mem_idsFrom, Fin.ext_iff]
  show _ ↔ id.val = m ∨ _
  omega

theorem sublist_insertAt (pq : List NodeId) (k : Nat) (id : NodeId) : pq.Sublist (insertAt pq k id) := by
  conv_lhs => rw [← List.take_append_drop k pq]
  exact (List.Sublist.refl _).append (List.sublist_cons_self id _)

section seeding
variable {s t : State} {sym : Byte} {syms : List Byte}

/-! ### One leaf -/

/-- The state `new_leaf` leaves for the entry of `sym` in FREQ (R83, R94). -/
def State.withLeaf (s : State) (hn : s.NEXT.val < 511) (sym : Byte) : State :=
  s.withNode hn ⟨sym, s.freq sym, none, .held⟩ (s.positionFor nodeBefore hn ⟨sym, s.freq sym, none, .held⟩)

@[simp] theorem State.withLeaf_NEXT (hn : s.NEXT.val < 511) : (s.withLeaf hn sym).NEXT.val = s.NEXT.val + 1 := rfl

@[simp] theorem State.freq_withLeaf (hn : s.NEXT.val < 511) (x : Byte) : (s.withLeaf hn sym).freq x = s.freq x := rfl

@[simp] theorem State.slot_withLeaf (hn : s.NEXT.val < 511) (id : NodeId) : (s.withLeaf hn sym).slot id =
    if id = ⟨s.NEXT.val, hn⟩ then some ⟨sym, s.freq sym, none, .queued⟩ else s.slot id :=
  State.slot_withNode s hn _ _ id

theorem State.slot_withLeaf_of_ne (hn : s.NEXT.val < 511) {id : NodeId} (hid : id.val ≠ s.NEXT.val) :
    (s.withLeaf hn sym).slot id = s.slot id := by
  rw [State.slot_withLeaf, if_neg (Fin.ne_of_val_ne hid)]

/-- The leaf stands in the queue where the order puts it (R92). -/
theorem State.withLeaf_PQ (hn : s.NEXT.val < 511) : (s.withLeaf hn sym).PQ =
    insertAt s.PQ (s.PQ.countP fun e => (s.withLeaf hn sym).before e ⟨s.NEXT.val, hn⟩) ⟨s.NEXT.val, hn⟩ :=
  congrArg (insertAt s.PQ · _) (State.positionFor_eq nodeBefore_tieBreak hn _ _)

theorem State.withLeaf_PQ_perm (hn : s.NEXT.val < 511) : (s.withLeaf hn sym).PQ.Perm (⟨s.NEXT.val, hn⟩ :: s.PQ) :=
  insertAt_perm _ _ _

theorem State.arenaWritten_withLeaf (hn : s.NEXT.val < 511) : s.ArenaWritten (s.withLeaf hn sym) := ⟨_, _, _, rfl⟩

theorem State.ArenaWritten.trans {u : State} (h : s.ArenaWritten t) (h' : t.ArenaWritten u) : s.ArenaWritten u := by
  obtain ⟨_, _, _, rfl⟩ := h
  obtain ⟨next, N, PQ, rfl⟩ := h'
  exact ⟨next, N, PQ, rfl⟩

theorem State.QueueReadable.withLeaf (h : s.QueueReadable) (hn : s.NEXT.val < 511) : (s.withLeaf hn sym).QueueReadable := by
  intro e he
  rw [State.slot_withLeaf]
  split
  · rfl
  · rename_i hne
    exact h e ((List.mem_cons.1 ((State.withLeaf_PQ_perm hn).mem_iff.1 he)).resolve_left hne)

theorem State.SlotsBelowNext.withLeaf (h : s.SlotsBelowNext) (hn : s.NEXT.val < 511) : (s.withLeaf hn sym).SlotsBelowNext := by
  intro id
  rw [State.withLeaf_NEXT]
  by_cases hid : id.val = s.NEXT.val
  · simp [Fin.ext_iff, hid]
  · rw [State.slot_withLeaf_of_ne hn hid, h id]
    omega

/-- A new leaf keeps the queue sorted (R92). -/
theorem State.SlotsBelowNext.sorted_withLeaf (h : s.SlotsBelowNext) (hq : s.QueueReadable) (hsorted : s.PQ.Pairwise s.Before)
    (hn : s.NEXT.val < 511) : (s.withLeaf hn sym).PQ.Pairwise (s.withLeaf hn sym).Before := by
  have hold : ∀ e ∈ s.PQ, e.val ≠ s.NEXT.val := fun e he => ((h e).1 (hq e he)).ne
  rw [State.withLeaf_PQ]
  refine pairwise_insertAt (r := (s.withLeaf hn sym).before) (fun _ _ _ => State.beforeBy_trans nodeBefore_tieBreak) ?_
    fun e he => ?_
  · refine hsorted.imp_of_mem fun ha hb hab => ?_
    have hsame := State.beforeBy_congr (before := nodeBefore) (State.slot_withLeaf_of_ne (sym := sym) hn (hold _ ha))
      (State.slot_withLeaf_of_ne hn (hold _ hb))
    exact hsame.trans hab
  · refine State.beforeBy_total nodeBefore_tieBreak (Fin.ne_of_val_ne (hold e he)) ?_ (by simp)
    rw [State.slot_withLeaf_of_ne hn (hold e he)]
    exact hq e he

/-! ### Leaf after leaf -/

theorem State.leavesAdded_nil (s : State) : s.LeavesAdded s [] := by
  refine ⟨rfl, by simp, fun _ _ => rfl, ?_, List.Sublist.refl _, fun _ h => h⟩
  show s.PQ.Perm (s.PQ ++ idsFrom s.NEXT.val 0)
  rw [idsFrom_zero, List.append_nil]

/-- The leaves the loop adds after a `new_leaf`, with its leaf before them. -/
theorem State.LeavesAdded.cons (hq : s.QueueReadable) {hn : s.NEXT.val < 511} (h : (s.withLeaf hn sym).LeavesAdded t syms) :
    s.LeavesAdded t (sym :: syms) := by
  obtain ⟨hnext, hnew, hold, hperm, hsub, hsorted⟩ := h
  rw [State.withLeaf_NEXT] at hnext hnew hold
  refine ⟨?_, fun j hj id hid => ?_, fun id hid => ?_, ?_, ?_, fun hslots hpairs => ?_⟩
  · rw [hnext, List.length_cons]
    omega
  · cases j with
    | zero =>
      have hfirst : id = ⟨s.NEXT.val, hn⟩ := Fin.ext hid
      rw [hold id (.inl (by omega)), State.slot_withLeaf, if_pos hfirst]
      rfl
    | succ j => exact hnew j (Nat.lt_of_succ_lt_succ hj) id (by omega)
  · rw [List.length_cons] at hid
    rw [hold id (by omega), State.slot_withLeaf_of_ne hn (by omega)]
  · calc t.PQ.Perm ((s.withLeaf hn sym).PQ ++ idsFrom (s.NEXT.val + 1) syms.length) := hperm
      List.Perm _ (⟨s.NEXT.val, hn⟩ :: s.PQ ++ idsFrom (s.NEXT.val + 1) syms.length) :=
        (State.withLeaf_PQ_perm hn).append_right _
      List.Perm _ (s.PQ ++ ⟨s.NEXT.val, hn⟩ :: idsFrom (s.NEXT.val + 1) syms.length) := List.perm_middle.symm
      List.Perm _ (s.PQ ++ idsFrom s.NEXT.val (syms.length + 1)) := (idsFrom_succ_perm hn _).symm.append_left _
  · exact (sublist_insertAt _ _ _).trans hsub
  · exact hsorted (hslots.withLeaf hn) (hslots.sorted_withLeaf hq hpairs hn)

/-! ### The loop -/

/-- How many more leaves the arena and the queue have room for (R84). -/
def State.room (s : State) : Nat := min (511 - s.NEXT.val) (256 - s.PQ.length)

theorem State.room_withLeaf (hn : s.NEXT.val < 511) : (s.withLeaf hn sym).room = s.room - 1 := by
  rw [room, State.withLeaf_NEXT, (State.withLeaf_PQ_perm hn).length_eq, List.length_cons, room]
  omega

/-- `new_leaf` where there is room (R94). -/
theorem State.newLeaf_of_room (hq : s.QueueReadable) (hroom : 0 < s.room) : ∃ hn : s.NEXT.val < 511,
    s.newLeaf nodeBefore sym (s.freq sym) = .done ⟨s.NEXT.val, hn⟩ (s.withLeaf hn sym) := by
  unfold room at hroom
  exact ⟨by omega, State.newLeaf_readable sym _ hq (by omega) (by omega)⟩

/-- `new_leaf` where there is none (R94). -/
theorem State.newLeaf_of_no_room (hroom : s.room = 0) (before : Comparator) (sym : Byte) (f : Freq) :
    s.newLeaf before sym f = .raised .allocation s := by
  unfold room at hroom
  unfold newLeaf
  split
  · rfl
  · rw [if_pos (by rw [pqLen]; omega)]

/-- The byte values among `syms` with a non-zero entry in FREQ (R82). -/
def State.nonzeroAmong (s : State) (syms : List Byte) : List Byte := syms.filter fun sym => s.freq sym != 0

theorem State.nonzeroAmong_allSyms (s : State) : s.nonzeroAmong allSyms = s.nonzeroSyms := rfl

theorem State.nonzeroAmong_withLeaf (hn : s.NEXT.val < 511) (syms : List Byte) :
    (s.withLeaf hn sym).nonzeroAmong syms = s.nonzeroAmong syms := rfl

theorem State.nonzeroAmong_cons_zero (h : s.freq sym = 0) : s.nonzeroAmong (sym :: syms) = s.nonzeroAmong syms := by
  rw [nonzeroAmong, List.filter_cons_of_neg (by simp [h])]
  rfl

theorem State.nonzeroAmong_cons_nonzero (h : s.freq sym ≠ 0) :
    s.nonzeroAmong (sym :: syms) = sym :: s.nonzeroAmong syms := by
  rw [nonzeroAmong, List.filter_cons_of_pos (by simpa using h)]
  rfl

/-- Where SEED's loop ends: it adds leaves for as many non-zero entries as there is room for, and answers their number, or
raises where there are more (R83, R84). -/
theorem State.seedFrom_eq (syms : List Byte) : ∀ (s : State) (k : Nat), s.QueueReadable →
    ∃ t, s.LeavesAdded t ((s.nonzeroAmong syms).take s.room) ∧ s.ArenaWritten t ∧ s.seedFrom nodeBefore k syms =
      if (s.nonzeroAmong syms).length ≤ s.room then .done (.count (k + (s.nonzeroAmong syms).length)) t
      else .raised .allocation t := by
  induction syms with
  | nil => exact fun s k _ => ⟨s, by simpa [nonzeroAmong] using s.leavesAdded_nil, s.arenaWritten_refl, rfl⟩
  | cons sym rest ih =>
    intro s k hq
    unfold seedFrom
    by_cases hzero : s.freq sym = 0
    · rw [if_pos hzero, State.nonzeroAmong_cons_zero hzero]
      exact ih s k hq
    · rw [if_neg hzero, State.nonzeroAmong_cons_nonzero hzero]
      rcases Nat.eq_zero_or_pos s.room with hroom | hroom
      · rw [State.newLeaf_of_no_room hroom, hroom]
        exact ⟨s, s.leavesAdded_nil, s.arenaWritten_refl, rfl⟩
      · obtain ⟨hn, hleaf⟩ := State.newLeaf_of_room (sym := sym) hq hroom
        obtain ⟨t, hadded, hwritten, hrest⟩ := ih (s.withLeaf hn sym) (k + 1) (hq.withLeaf hn)
        obtain ⟨room, hsucc⟩ := Nat.exists_eq_add_one_of_ne_zero hroom.ne'
        rw [State.nonzeroAmong_withLeaf, State.room_withLeaf, hsucc, Nat.add_one_sub_one] at hadded hrest
        have hcount : k + 1 + (s.nonzeroAmong rest).length = k + ((s.nonzeroAmong rest).length + 1) := by omega
        rw [hleaf, hsucc, List.take_succ_cons, List.length_cons]
        refine ⟨t, hadded.cons hq, (State.arenaWritten_withLeaf hn).trans hwritten, hrest.trans ?_⟩
        simp only [Nat.add_le_add_iff_right, hcount]

end seeding

/-- SEED with FAULT 0: it ends as its loop does (R83, R84). -/
theorem exec_seed {s : State} (hf : s.FAULT = 0) (hq : s.QueueReadable) :
    ∃ t, s.LeavesAdded t (s.nonzeroSyms.take s.room) ∧ s.ArenaWritten t ∧
      (s.nonzeroSyms.length ≤ s.room → exec .seed s = .next (t.respond 0 0 (BitVec.ofNat 32 s.nonzeroSyms.length))) ∧
      (s.room < s.nonzeroSyms.length → exec .seed s = .next (t.raise .allocation)) := by
  obtain ⟨t, hadded, hwritten, hend⟩ := State.seedFrom_eq allSyms s 0 hq
  rw [State.nonzeroAmong_allSyms] at hadded hend
  rw [Nat.zero_add] at hend
  have hexec : exec .seed s = (s.seedFrom nodeBefore 0 allSyms).finish := exec_free .seed hf
  refine ⟨t, hadded, hwritten, fun hroom => ?_, fun hroom => ?_⟩
  · rw [hexec, hend, if_pos hroom]
    rfl
  · rw [hexec, hend, if_neg (not_le.2 hroom)]
    rfl

/-- Settles O22: there is room for every leaf of the loop. -/
theorem seedAddsTheLeaves : Obligations.SeedAddsTheLeaves := by
  intro s hf hq hnext hlen
  have hroom : s.nonzeroSyms.length ≤ s.room := le_min (by omega) (by omega)
  obtain ⟨t, hadded, ⟨next, N, PQ, rfl⟩, hexec, -⟩ := exec_seed hf hq
  rw [List.take_of_length_le hroom] at hadded
  refine ⟨_, hexec hroom, hadded, ?_⟩
  rw [State.respond, responseWord_count _ (by omega)]

/-- Settles O23: the loop raises at the first leaf there is no room for. -/
theorem seedThatFaultsPartWay : Obligations.SeedThatFaultsPartWay := by
  rintro s fit hf hq rfl hfit
  obtain ⟨t, hadded, ⟨next, N, PQ, rfl⟩, -, hexec⟩ := exec_seed hf hq
  exact ⟨_, hexec hfit, hadded, rfl⟩

end Sys2Proof.Machine

namespace Sys2Proof.Machine

/-! ## The comparator (spec/41_priority_queue.md R90, R91) -/

theorem orderKey_kind (x : NodeId) (n : Node) : (orderKey x n).kind = if n.children = none then 0 else 1 := by
  unfold orderKey
  cases n.children <;> rfl

theorem orderKey_minor (x : NodeId) (n : Node) :
    (orderKey x n).minor = if n.children = none then n.character.toNat else 0 := by
  unfold orderKey
  cases n.children <;> rfl

/-- Settles O25: the components of the two keys, compared one after another. -/
theorem orderIsLexicographic : Obligations.OrderIsLexicographic := by
  intro x y nx ny kind minor
  rw [nodeBefore, OrderKey.smaller_iff]
  simp only [orderKey_frequency, orderKey_kind, orderKey_minor, orderKey_id, kind, minor]

/-- Settles O26: what R91 asks for is part of being a tie-break. -/
theorem orderIsStrictAndTotal : Obligations.OrderIsStrictAndTotal :=
  ⟨nodeBefore_tieBreak.irreflexive, nodeBefore_tieBreak.transitive, nodeBefore_tieBreak.total, nodeBefore_tieBreak⟩

end Sys2Proof.Machine

namespace Sys2Proof.Machine

/-! ## The queue's commands (spec/41_priority_queue.md R92 to R102) -/

section commands
variable {before : Comparator} {s t : State} {x : NodeId} {n : Node}

/-! ### How a command ends with FAULT 0 -/

/-- A rule that raises before it writes leaves what `afterFault` says (R180). -/
theorem exec_of_raised (i : Instr) {f : FaultKind} (hf : s.FAULT = 0) (h : ruleOf i s = .raised f s) :
    exec i s = .next (s.afterFault (faultCode f)) := by
  rw [exec_free i hf, h]
  rfl

/-- A rule that completes with the value `v` leaves its state and one response (R160). -/
theorem exec_of_done (i : Instr) {v : BitVec 32} (hf : s.FAULT = 0) (h : ruleOf i s = .done (.val32 v) t) :
    exec i s = .next (t.respond 0 0 v) := by
  rw [exec_free i hf, h]
  rfl

/-- An id as a response (R65). -/
theorem responseWord_node (x : NodeId) :
    responseWord 0 0 ((optNodeField (some x)).setWidth 32) = BitVec.ofNat 64 x.val := by
  rw [optNodeField, setWidth_nodeField, responseWord_count x.val (by omega)]

/-! ### ENQL -/

theorem enqlRule_full (h : s.NEXT.val = 511 ∨ 256 ≤ s.PQ.length) (before : Comparator) (sym : Byte) (freq : Freq) :
    enqlRule before sym freq s = .raised .allocation s := by
  have hroom : s.room = 0 := by
    unfold State.room
    omega
  rw [enqlRule, State.newLeaf_of_no_room hroom]
  rfl

theorem enqlRule_room (hn : s.NEXT.val < 511) (hlen : s.PQ.length < 256) (hq : s.QueueReadable) (sym : Byte) (freq : Freq) :
    enqlRule before sym freq s = .done (.node (some ⟨s.NEXT.val, hn⟩))
      (s.withNode hn ⟨sym, freq, none, .held⟩ (s.positionFor before hn ⟨sym, freq, none, .held⟩)) := by
  rw [enqlRule, State.newLeaf_readable sym freq hq hn hlen]
  rfl

/-- The new node stands in the queue where the order puts it (R92). -/
theorem State.placed_PQ (hb : before.TieBreak) (hn : s.NEXT.val < 511) (n : Node) :
    (s.withNode hn n (s.positionFor before hn n)).PQ = insertAt s.PQ
      (s.PQ.countP fun e => (s.withNode hn n (s.positionFor before hn n)).beforeBy before e ⟨s.NEXT.val, hn⟩)
      ⟨s.NEXT.val, hn⟩ :=
  congrArg (insertAt s.PQ · _) (State.positionFor_eq hb hn n _)

/-! ### ENQ -/

/-- A 9-bit operand names the id with its number. -/
theorem nodeOperand_eq_some {b : BitVec 9} (h : x.val = b.toNat) : nodeOperand b = some x := by
  rw [nodeOperand, dif_pos (by omega)]
  exact congrArg some (Fin.ext h.symm)

/-- R98: ENQ of an id at or above NEXT, or of 0x1FF, which is none. -/
theorem enqRule_unallocated {b : BitVec 9} (h : s.NEXT.val ≤ b.toNat) (before : Comparator) :
    enqRule before b s = .raised .badNode s := by
  unfold enqRule nodeOperand
  by_cases hb : b.toNat < 511
  · simp [hb, h]
  · simp [hb]

/-- R98: ENQ of an allocated id. -/
theorem enqRule_allocated {b : BitVec 9} (hx : x.val = b.toNat) (hlt : x.val < s.NEXT.val) (hn : s.slot x = some n)
    (before : Comparator) : enqRule before b s =
      if n.st ≠ .held then .raised .badNode s
      else if 256 ≤ s.PQ.length then .raised .allocation s
      else (s.enqueue before x).andThen fun _ u => .done (.val32 0) u := by
  simp only [enqRule, nodeOperand_eq_some hx, if_neg (not_le.2 hlt), hn]
  rfl

/-- The state `enqueue(x)` leaves (R92). -/
def State.enqueued (s : State) (before : Comparator) (x : NodeId) : State :=
  (s.setQueue (insertAt s.PQ (s.PQ.countP fun e => s.beforeBy before e x) x)).setTag x .queued

theorem State.enqueue_eq (hx : s.slot x = some n) (hq : s.QueueReadable) :
    s.enqueue before x = .done () (s.enqueued before x) := by
  have horder : s.beforeIn before x n = fun e => s.beforeBy before e x := funext (State.beforeIn_eq_beforeBy hx)
  rw [s.enqueue_readable before hx hq, horder]
  rfl

/-- The place of `x` is the one the order gives it in the state after the command too: a tag changes no place (R91). -/
theorem State.enqueued_PQ (hb : before.TieBreak) : (s.enqueued before x).PQ =
    insertAt s.PQ (s.PQ.countP fun e => (s.enqueued before x).beforeBy before e x) x := by
  have horder : ∀ e, (s.enqueued before x).beforeBy before e x = s.beforeBy before e x := fun _ =>
    State.KeepsNodes.beforeBy_eq hb (s.setQueue_setTag_keepsNodes _ x .queued) (s.keepsNodes_of_setQueue_setTag _ x .queued)
  simp only [horder]
  rfl

theorem State.slot_enqueued (y : NodeId) : (s.enqueued before x).slot y =
    if y = x then (s.slot x).map (fun n => { n with st := .queued }) else s.slot y := by
  rw [enqueued, State.slot_setTag]
  rfl

/-! ### DEQ -/

theorem deqRule_nil (h : s.PQ = []) : deqRule s = .raised .emptyQueue s := by
  rw [deqRule, State.dequeue, h]
  rfl

theorem deqRule_cons {rest : List NodeId} (h : s.PQ = x :: rest) :
    deqRule s = .done (.node (some x)) ((s.setQueue rest).setTag x .held) := by
  rw [deqRule, State.dequeue, h]
  rfl

/-- The arena is the value of its slots. -/
theorem State.N_eq_of_slots (h : ∀ y, t.slot y = s.slot y) : t.N = s.N :=
  Vector.ext fun j hj => h ⟨j, hj⟩

end commands

/-- Settles O27: AllocationError where a capacity is used up (`enqlRule_full`), else the leaf stands at NEXT
(`enqlRule_room`). -/
theorem enqlCreatesAndEnqueuesALeaf : Obligations.EnqlCreatesAndEnqueuesALeaf := by
  intro s sym freq hf
  refine ⟨fun hfull => exec_of_raised (.enql sym freq) hf (enqlRule_full hfull nodeBefore sym freq), fun id hid hlen hq => ?_⟩
  have hn : s.NEXT.val < 511 := hid ▸ id.isLt
  obtain rfl : id = ⟨s.NEXT.val, hn⟩ := Fin.ext hid
  refine ⟨_, exec_of_done (.enql sym freq) hf (enqlRule_room hn hlen hq sym freq), rfl, ?_, fun x hx => ?_,
    State.placed_PQ nodeBefore_tieBreak hn _, ?_⟩
  · rw [State.slot_respond, State.slot_withNode, if_pos rfl]
  · rw [State.slot_respond, State.slot_withNode, if_neg hx]
  · rw [State.respond, responseWord_node]
    rfl

/-- Settles O28: the checks are the branches of `enqRule_allocated`, the effect is `State.enqueued`. -/
theorem enqPutsAHeldNodeBack : Obligations.EnqPutsAHeldNodeBack := by
  intro s b hf
  refine ⟨fun h => exec_of_raised (.enq b) hf (enqRule_unallocated h nodeBefore), fun id n hid hlt hn => ?_⟩
  have hrule := enqRule_allocated hid hlt hn nodeBefore
  refine ⟨fun hst => ?_, fun hst hlen => ?_, fun hst hlen hq => ?_⟩
  · rw [if_pos hst] at hrule
    exact exec_of_raised (.enq b) hf hrule
  · rw [if_neg (not_not.2 hst), if_pos hlen] at hrule
    exact exec_of_raised (.enq b) hf hrule
  · rw [if_neg (not_not.2 hst), if_neg (not_le.2 hlen), State.enqueue_eq hn hq] at hrule
    refine ⟨_, exec_of_done (.enq b) hf hrule, ?_, fun x hx => ?_, State.enqueued_PQ nodeBefore_tieBreak, ?_⟩
    · rw [State.slot_respond, State.slot_enqueued, if_pos rfl, hn]
      rfl
    · rw [State.slot_respond, State.slot_enqueued, if_neg hx]
    · rw [State.respond, responseWord_zero]
      rfl

/-- Settles O29: the queue is sorted, so its front is before every other entry. -/
theorem deqRemovesTheMinimum : Obligations.DeqRemovesTheMinimum := by
  refine fun s hf => ⟨fun hPQ => exec_of_raised .deq hf (deqRule_nil hPQ), fun id rest hPQ => ⟨fun hs e he => ?_, ?_⟩⟩
  · have hsorted := hs.queueSorted
    rw [hPQ] at hsorted
    have hbefore : s.Before id e := (List.pairwise_cons.1 hsorted).1 e he
    exact ⟨hbefore, State.freqOf_le_of_beforeBy nodeBefore_tieBreak hbefore⟩
  · refine ⟨_, exec_of_done .deq hf (deqRule_cons hPQ), rfl, ?_, fun x hx => ?_, ?_⟩
    · rw [State.slot_respond, State.slot_setTag, if_pos rfl, State.slot_setQueue]
    · rw [State.slot_respond, State.slot_setTag, if_neg hx, State.slot_setQueue]
    · rw [State.respond, responseWord_node]
      rfl

/-- Settles O30: ENQ gives the node its tag QUEUED back, so the arena is what it was, and the queue is a function of the
arena (R102). -/
theorem deqThenEnqRestoresTheState : Obligations.DeqThenEnqRestoresTheState := by
  intro s id rest hs hf hPQ
  obtain ⟨-, t, hdeq, htPQ, htid, htother, htframe⟩ := (deqRemovesTheMinimum s hf).2 id rest hPQ
  have ht : t.Inv := exec_keeps_inv hdeq hs
  obtain ⟨n, hn, hst⟩ := (hs.queuedIff id).1 (by simp [hPQ])
  rw [hn, Option.map_some] at htid
  have htf : t.FAULT = 0 := by rw [htframe]; exact hf
  have hoperand : id.val = (BitVec.ofNat 9 id.val).toNat := by
    rw [BitVec.toNat_ofNat, Nat.mod_eq_of_lt (by omega)]
  have hroom : t.PQ.length < 256 := by
    have hbound := hs.queueBound
    rw [hPQ, List.length_cons] at hbound
    rw [htPQ]
    exact hbound
  obtain ⟨u, henq, huid, huother, -, huframe⟩ := ((enqPutsAHeldNodeBack t _ htf).2 id _ hoperand
    ((ht.slots id).1 (by simp [htid])) htid).2.2 rfl hroom (State.invFor_iff.1 ht).1.queue.readable
  have hN : u.N = s.N := State.N_eq_of_slots fun y => by
    by_cases hy : y = id
    · subst hy
      rw [huid, hn, ← hst]
    · rw [huother y hy, htother y hy]
  have huPQ : u.PQ = s.PQ := queueIsAFunctionOfTheNodes u s (exec_keeps_inv henq ht) hs hN
  refine ⟨t, u, hdeq, henq, ?_⟩
  rw [hN, huPQ, htframe] at huframe
  rw [huframe]

end Sys2Proof.Machine

namespace Sys2Proof.Machine

/-! ## MERGE (spec/42_tree_builder.md R106, R107) -/

section mergeRules
variable {before : Comparator} {s : State} {x y : NodeId} {rest : List NodeId} {nx ny : Node}

/-- R107: with fewer than two entries MERGE raises EmptyQueueError. -/
theorem mergeRule_short (h : s.PQ.length < 2) : mergeRule before s = .raised .emptyQueue s := by
  unfold mergeRule State.mergeStep
  split
  · rename_i x y rest hPQ
    simp [hPQ] at h
  · rfl

/-- R107: with two entries and a full arena MERGE raises AllocationError. -/
theorem mergeRule_full (h : 2 ≤ s.PQ.length) (hn : s.NEXT.val = 511) : mergeRule before s = .raised .allocation s := by
  unfold mergeRule State.mergeStep
  split
  · rw [if_pos (by omega)]
    rfl
  · rename_i hshort
    match hPQ : s.PQ, h with
    | x :: y :: rest, _ => exact absurd hPQ (hshort x y rest)

/-- R107: with two entries and room a sum of 2^32 or more raises FreqOverflow. -/
theorem mergeRule_overflow (hPQ : s.PQ = x :: y :: rest) (hx : s.slot x = some nx) (hy : s.slot y = some ny)
    (hn : s.NEXT.val < 511) (hsum : 2 ^ 32 ≤ nx.frequency.toNat + ny.frequency.toNat) :
    mergeRule before s = .raised .freqOverflow s := by
  have hcap : ¬ s.NEXT.val > 510 := by omega
  simp only [mergeRule, State.mergeStep, hPQ, hcap, hx, hy, ge_iff_le, hsum, if_false, if_true]
  rfl

/-- R107: where all three checks pass, MERGE answers the new node's id. -/
theorem mergeRule_readable (hq : s.QueueReadable) (hPQ : s.PQ = x :: y :: rest) (hx : s.slot x = some nx)
    (hy : s.slot y = some ny) (hn : s.NEXT.val < 511) (hsum : nx.frequency.toNat + ny.frequency.toNat < 2 ^ 32) :
    mergeRule before s = .done (.node (some ⟨s.NEXT.val, hn⟩)) (s.merged before hn x y rest nx ny) := by
  rw [mergeRule, State.mergeStep_readable hq hPQ hx hy hn hsum]
  rfl

/-- The two nodes a merge step removes are tagged CHILD, the others are as before (R106). -/
theorem State.slot_consumed (z : NodeId) : (s.consumed x y rest).slot z =
    if z = x ∨ z = y then (s.slot z).map (fun n => { n with st := .child }) else s.slot z := by
  have hqueue : ∀ w, (s.setQueue rest).slot w = s.slot w := fun _ => rfl
  by_cases hy : z = y <;> by_cases hx : z = x
  · subst hy hx
    simp [consumed, hqueue, Function.comp_def]
  · subst hy
    simp [consumed, hqueue, hx]
  · subst hx
    simp [consumed, hqueue, hy]
  · simp [consumed, hqueue, hx, hy]

/-- The slots a merge step leaves but the new node's. -/
theorem State.slot_merged_old (hn : s.NEXT.val < 511) {z : NodeId} (hz : z ≠ ⟨s.NEXT.val, hn⟩) :
    (s.merged before hn x y rest nx ny).slot z =
      if z = x ∨ z = y then (s.slot z).map (fun n => { n with st := .child }) else s.slot z :=
  ((State.slot_withNode (s.consumed x y rest) hn _ _ z).trans (if_neg hz)).trans (State.slot_consumed z)

end mergeRules

/-- Settles O33: the checks are `mergeRule_short`, `mergeRule_full` and `mergeRule_overflow`, the effect is `State.merged`. -/
theorem mergeJoinsTheTwoSmallest : Obligations.MergeJoinsTheTwoSmallest := by
  refine fun s hf => ⟨fun h => exec_of_raised .merge hf (mergeRule_short h),
    fun h hn => exec_of_raised .merge hf (mergeRule_full h hn), fun x y rest nx ny p hPQ hx hy hp => ?_⟩
  have hn : s.NEXT.val < 511 := hp ▸ p.isLt
  obtain rfl : p = ⟨s.NEXT.val, hn⟩ := Fin.ext hp
  refine ⟨fun hsum => exec_of_raised .merge hf (mergeRule_overflow hPQ hx hy hn hsum), fun hsum hq => ?_⟩
  refine ⟨_, _, exec_of_done .merge hf (mergeRule_readable hq hPQ hx hy hn hsum), rfl,
    State.slot_merged_new (before := nodeBefore) hn, rfl, rfl, rfl, Nat.mod_eq_of_lt hsum,
    fun id hid => State.slot_merged_old (before := nodeBefore) hn hid,
    State.placed_PQ (s := s.consumed x y rest) nodeBefore_tieBreak hn _, ?_⟩
  rw [State.respond, responseWord_node]
  rfl

/-! ## BUILD's cases (spec/42_tree_builder.md R109 to R111) -/

section buildRules
variable {before : Comparator} {s t : State} {r p : NodeId}

/-- R109: with a finished tree BUILD raises SequenceError. -/
theorem buildRule_tree (h : s.ROOT ≠ none) : buildRule before s = .raised .sequence s := by
  rw [buildRule, if_pos (Option.isSome_iff_ne_none.2 h)]

/-- R111: with an empty queue BUILD answers NIL and only sets BUILT. -/
theorem buildRule_empty (hroot : s.ROOT = none) (hPQ : s.PQ = []) :
    buildRule before s = .done (.node none) { s with BUILT := true } := by
  simp [buildRule, hroot, State.pqLen, hPQ]

/-- R109: with entries and no tree BUILD is its loop and the drain. -/
theorem buildRule_nonempty (hroot : s.ROOT = none) (hPQ : s.PQ ≠ []) :
    buildRule before s = (s.mergeAll before s.pqLen).andThen fun _ u => u.drainRoot := by
  have hlen : ¬ s.pqLen = 0 := fun e => hPQ (List.length_eq_zero_iff.1 e)
  rw [buildRule, if_neg (by simp [hroot]), if_neg hlen]

/-- The drain of a queue with one entry (R109). -/
theorem State.drainRoot_single (hPQ : s.PQ = [r]) : s.drainRoot = .done (.node (some r)) (s.drained r []) := by
  rw [drainRoot, dequeue, hPQ]
  rfl

/-- With at most one entry BUILD's loop does nothing (R109). -/
theorem State.mergeAll_short (h : s.PQ.length ≤ 1) (rounds : Nat) : s.mergeAll before rounds = .done () s := by
  cases rounds with
  | zero => rfl
  | succ rounds => exact if_neg (not_lt.2 h)

/-- R110: with one entry BUILD makes it the root. -/
theorem buildRule_single (hroot : s.ROOT = none) (hPQ : s.PQ = [r]) :
    buildRule before s = .done (.node (some r)) (s.drained r []) := by
  rw [buildRule_nonempty hroot (by simp [hPQ]), State.mergeAll_short (by simp [hPQ])]
  exact State.drainRoot_single hPQ

/-- With two entries or more BUILD's loop starts with a merge step (R109). -/
theorem State.mergeAll_long (h : 2 ≤ s.PQ.length) (rounds : Nat) : s.mergeAll before (rounds + 1) =
    (s.mergeStep before).andThen fun _ u => u.mergeAll before rounds := by
  rw [mergeAll, if_pos (show s.pqLen > 1 from h)]
  cases s.mergeStep before <;> rfl

/-- With two entries or more BUILD is a merge step, and then the rest of the loop and the drain (R109). -/
theorem buildRule_long (hroot : s.ROOT = none) (hlen : 2 ≤ s.PQ.length) : buildRule before s =
    (s.mergeStep before).andThen fun _ u => (u.mergeAll before (s.PQ.length - 1)).andThen fun _ v => v.drainRoot := by
  obtain ⟨rounds, hrounds⟩ : ∃ rounds, s.PQ.length = rounds + 1 := ⟨s.PQ.length - 1, by omega⟩
  rw [buildRule_nonempty hroot (List.ne_nil_of_length_pos (by omega)), State.pqLen, hrounds, State.mergeAll_long hlen]
  cases s.mergeStep before <;> rfl

/-- After a merge step that completes BUILD goes on as from the state it left (R109, R112). -/
theorem buildRule_of_mergeStep (hroot : s.ROOT = none) (hlen : 2 ≤ s.PQ.length) (hm : s.mergeStep before = .done p t) :
    buildRule before s = buildRule before t := by
  have hshorter := State.mergeStep_length hm
  obtain ⟨_, _, _, hframe⟩ := s.arenaWritten_refl.mergeStep hm
  have hrounds : s.PQ.length - 1 = t.pqLen := by rw [State.pqLen]; omega
  rw [buildRule_long hroot hlen, hm, buildRule_nonempty (by rw [hframe]; exact hroot) (List.ne_nil_of_length_pos (by omega)),
    ← hrounds]
  rfl

end buildRules

/-- Settles O35: the rule's cases but the loop of merge steps. -/
theorem buildCornerCases : Obligations.BuildCornerCases := by
  refine fun s hf => ⟨fun hroot => exec_of_raised .build hf (buildRule_tree hroot), fun hroot hPQ => ?_, fun r hroot hPQ => ?_⟩
  · have hword : responseWord 0 0 ((optNodeField none).setWidth 32) = 0x00000000000001FF := by decide
    rw [exec_of_done .build hf (buildRule_empty hroot hPQ), State.respond, hword]
  · have hslot : ∀ x, (s.drained r []).slot x = if x = r then (s.slot r).map (fun n => { n with st := .root }) else s.slot x :=
      fun x => State.slot_setTag (s.setQueue []) r x .root
    refine ⟨_, exec_of_done .build hf (buildRule_single hroot hPQ), (hslot r).trans (if_pos rfl),
      fun x hx => (hslot x).trans (if_neg hx), ?_⟩
    rw [State.respond, responseWord_node]
    rfl

/-- After a raise FAULT holds a code (R180). -/
theorem State.raise_FAULT_ne_zero (s : State) (f : FaultKind) : (s.raise f).FAULT ≠ 0 := by
  rw [State.raise_FAULT]
  split
  · exact faultCode_ne_zero f
  · assumption

/-- Settles O36: MERGE's rule and BUILD's start with the same merge step. -/
theorem buildIsMergesAndADrain : Obligations.BuildIsMergesAndADrain := by
  intro s t hf hroot hlen h
  have hmerge : ((s.mergeStep nodeBefore).andThen fun p u => .done (.node (some p)) u).finish = .next t :=
    (exec_free .merge hf).symm.trans h
  have hbuild : exec .build s = (buildRule nodeBefore s).finish := exec_free .build hf
  cases hm : s.mergeStep nodeBefore with
  | done p u =>
    obtain ⟨next, N, PQ, hu⟩ := s.arenaWritten_refl.mergeStep hm
    rw [hm] at hmerge
    obtain rfl := Host.Outcome.next.inj hmerge
    have huf : u.FAULT = 0 := by rw [hu]; exact hf
    refine ⟨fun _ => ?_, fun hne => absurd huf hne⟩
    have hself : { u.respond 0 0 ((optNodeField (some p)).setWidth 32) with rsp := s.rsp } = u := by rw [hu]; rfl
    rw [hbuild, buildRule_of_mergeStep hroot hlen hm]
    exact (exec_free .build huf).symm.trans (congrArg (exec .build) hself.symm)
  | raised f u =>
    rw [hm] at hmerge
    obtain rfl := Host.Outcome.next.inj hmerge
    refine ⟨fun hz => absurd hz (u.raise_FAULT_ne_zero f), fun _ => ?_⟩
    rw [hbuild, buildRule_long hroot hlen, hm]
    rfl
  | stuck w =>
    rw [hm] at hmerge
    cases hmerge

/-- Settles O57: `buildRule_ends` is stated for every tie-break. -/
theorem buildCountsForEveryTieBreak : Obligations.BuildCountsForEveryTieBreak := by
  intro before s hb hs hroot hPQ hroom htotal
  obtain ⟨t, r, tr, hrule, hends⟩ := buildRule_ends hb (State.invFor_iff.1 hs).1 hroot hPQ hroom htotal
  obtain ⟨n, hn, hst, hfreq⟩ := hends.root
  have hframe := hends.frame
  exact ⟨t, r, n, tr, hrule, by rw [hframe], by rw [hframe], by rw [hframe], hends.next, hn, hst, hfreq, hends.tree,
    hends.counts, hframe⟩

end Sys2Proof.Machine

namespace Sys2Proof.Machine

/-! ## Weights and code lengths (spec/42_tree_builder.md R114)

Optimality is shown against code lengths alone: `CodeWithin weights c` says that some lengths that meet Kraft's inequality
cost at most `c`. Every tree and every `PrefixCode` gives such lengths, and joining the two smallest weights, as a merge step
does, takes their sum off the cost within reach. -/

/-- The sum of weight times length of pairs (weight, length). -/
def lengthCost (items : List (ℕ × ℕ)) : ℕ := (items.map fun p => p.1 * p.2).sum

/-- Kraft's sum of code lengths. -/
noncomputable def kraftSum (lengths : List ℕ) : ℝ := (lengths.map fun l => (1 / 2 : ℝ) ^ l).sum

/-- Some lengths for these weights meet Kraft's inequality and cost at most `c`. -/
def CodeWithin (weights : List ℕ) (c : ℕ) : Prop :=
  ∃ items : List (ℕ × ℕ), (items.map Prod.fst).Perm weights ∧ kraftSum (items.map Prod.snd) ≤ 1 ∧ lengthCost items ≤ c

section lengths
variable {a b c w l M : ℕ} {items items' : List (ℕ × ℕ)} {lengths lengths' weights : List ℕ}

@[simp] theorem lengthCost_cons (p : ℕ × ℕ) (items : List (ℕ × ℕ)) : lengthCost (p :: items) = p.1 * p.2 + lengthCost items := by
  simp [lengthCost]

@[simp] theorem kraftSum_cons (l : ℕ) (lengths : List ℕ) : kraftSum (l :: lengths) = (1 / 2) ^ l + kraftSum lengths := by
  simp [kraftSum]

theorem lengthCost_perm (h : items.Perm items') : lengthCost items = lengthCost items' := (h.map _).sum_eq

theorem kraftSum_perm (h : lengths.Perm lengths') : kraftSum lengths = kraftSum lengths' := (h.map _).sum_eq

theorem kraftSum_nonneg (lengths : List ℕ) : 0 ≤ kraftSum lengths := by
  induction lengths with
  | nil => simp [kraftSum]
  | cons l rest ih => rw [kraftSum_cons]; positivity

theorem CodeWithin.perm {weights' : List ℕ} (h : CodeWithin weights c) (hp : weights.Perm weights') : CodeWithin weights' c := by
  obtain ⟨items, hw, hk, hc⟩ := h
  exact ⟨items, hw.trans hp, hk, hc⟩

/-- A weight of a list of pairs stands in one of the pairs. -/
theorem exists_perm_cons_of_weight (h : (items.map Prod.fst).Perm (w :: weights)) :
    ∃ l rest, items.Perm ((w, l) :: rest) ∧ (rest.map Prod.fst).Perm weights := by
  obtain ⟨⟨_, l⟩, hmem, rfl⟩ := List.mem_map.1 (h.mem_iff.2 List.mem_cons_self)
  have hp := List.perm_cons_erase hmem
  exact ⟨l, _, hp, ((hp.map Prod.fst).symm.trans h).cons_inv⟩

/-- Exchanges of lengths give the smallest weight the greatest length, at no greater cost. -/
theorem exists_longest_for_smallest (l : ℕ) (hmin : ∀ p ∈ items, a ≤ p.1) : ∃ L items', items'.map Prod.fst = items.map Prod.fst ∧
    (L :: items'.map Prod.snd).Perm (l :: items.map Prod.snd) ∧ (∀ k ∈ items'.map Prod.snd, k ≤ L) ∧
    a * L + lengthCost items' ≤ a * l + lengthCost items := by
  induction items generalizing l with
  | nil => exact ⟨l, [], rfl, .refl _, by simp, le_rfl⟩
  | cons p rest ih =>
    obtain ⟨w, k⟩ := p
    have haw : a ≤ w := hmin (w, k) List.mem_cons_self
    obtain ⟨L, items', hw, hp, hle, hcost⟩ := ih (max l k) fun p hp => hmin p (List.mem_cons_of_mem _ hp)
    have hmaxL : max l k ≤ L := by
      rcases List.mem_cons.1 (hp.mem_iff.2 List.mem_cons_self) with h | h
      · exact h.le
      · exact hle _ h
    have hpair : (min l k :: max l k :: rest.map Prod.snd).Perm (l :: k :: rest.map Prod.snd) := by
      rcases le_total l k with h | h
      · rw [min_eq_left h, max_eq_right h]
      · rw [min_eq_right h, max_eq_left h]
        exact .swap _ _ _
    have hswap : a * max l k + w * min l k ≤ a * l + w * k := by
      rcases le_total l k with h | h
      · rw [min_eq_left h, max_eq_right h]
        exact mul_add_mul_le_mul_add_mul haw h
      · rw [min_eq_right h, max_eq_left h]
    refine ⟨L, (w, min l k) :: items', by simp [hw], ?_, ?_, ?_⟩
    · exact (List.Perm.swap _ _ _).trans ((hp.cons _).trans hpair)
    · rw [List.map_cons, List.forall_mem_cons]
      exact ⟨min_le_max.trans hmaxL, hle⟩
    · simp only [lengthCost_cons]
      omega

/-- Kraft's sum of lengths up to `M`, in units of 2^-M. -/
theorem kraftSum_mul_pow (h : ∀ l ∈ lengths, l ≤ M) :
    kraftSum lengths * 2 ^ M = ((lengths.map fun l => 2 ^ (M - l)).sum : ℕ) := by
  induction lengths with
  | nil => simp [kraftSum]
  | cons l rest ih =>
    have hl : (1 / 2 : ℝ) ^ l * 2 ^ M = 2 ^ (M - l) := by
      rw [← Nat.sub_add_cancel (h l List.mem_cons_self), Nat.add_sub_cancel, pow_add, mul_left_comm, ← mul_pow]
      norm_num
    rw [kraftSum_cons, add_mul, ih fun k hk => h k (List.mem_cons_of_mem _ hk), hl]
    push_cast
    simp

/-- A length above all others may be cut to the greatest of them: the others leave a multiple of 2^-M of Kraft's sum. -/
theorem kraftSum_cut {L : ℕ} (hle : ∀ l ∈ lengths, l ≤ M) (h : kraftSum (L :: lengths) ≤ 1) :
    kraftSum (M :: lengths) ≤ 1 := by
  have hunits := kraftSum_mul_pow hle
  have hpos : (0 : ℝ) < 2 ^ M := by positivity
  rw [kraftSum_cons] at h ⊢
  have hrest : kraftSum lengths < 1 := by
    have : (0 : ℝ) < (1 / 2) ^ L := by positivity
    linarith
  have hlt : (lengths.map fun l => 2 ^ (M - l)).sum < 2 ^ M := by
    have := mul_lt_of_lt_one_left hpos hrest
    rw [hunits] at this
    exact_mod_cast this
  have hfree : kraftSum lengths * 2 ^ M + 1 ≤ 2 ^ M := by
    rw [hunits]
    exact_mod_cast hlt
  rw [one_div, inv_pow, ← le_sub_iff_add_le, inv_le_iff_one_le_mul₀ hpos]
  linarith

/-- Two greatest lengths are siblings: their pair has Kraft's sum of one length less. -/
theorem kraftSum_siblings (h : kraftSum (M :: M :: lengths) ≤ 1) : ∃ m, M = m + 1 ∧ kraftSum (m :: lengths) ≤ 1 := by
  simp only [kraftSum_cons] at h
  have hrest := kraftSum_nonneg lengths
  cases M with
  | zero => norm_num at h; linarith
  | succ m =>
    refine ⟨m, rfl, ?_⟩
    rw [kraftSum_cons]
    rw [pow_succ] at h
    linarith

/-- The two smallest weights joined into one: their sum comes off the cost within reach (R114). -/
theorem CodeWithin.join (hab : a ≤ b) (hmin : ∀ w ∈ weights, b ≤ w) (h : CodeWithin (a :: b :: weights) c) :
    ∃ c', c' + (a + b) ≤ c ∧ CodeWithin ((a + b) :: weights) c' := by
  obtain ⟨items, hw, hkraft, hcost⟩ := h
  obtain ⟨la, itemsb, ha, hwb⟩ := exists_perm_cons_of_weight hw
  obtain ⟨L, itemsb', hwb', hlenb, hleL, hcostb⟩ := exists_longest_for_smallest (a := a) (items := itemsb) la fun p hp => by
    rcases List.mem_cons.1 (hwb.mem_iff.1 (List.mem_map_of_mem hp)) with h | h
    · exact h ▸ hab
    · exact hab.trans (hmin _ h)
  obtain ⟨lb, rest, hb, hwr⟩ := exists_perm_cons_of_weight (hwb' ▸ hwb)
  obtain ⟨M, rest', hwr', hlenr, hleM, hcostr⟩ := exists_longest_for_smallest (a := b) (items := rest) lb fun p hp =>
    hmin _ (hwr.mem_iff.1 (List.mem_map_of_mem hp))
  have hlens : (L :: M :: rest'.map Prod.snd).Perm (items.map Prod.snd) :=
    ((hlenr.trans (hb.map Prod.snd).symm).cons L).trans (hlenb.trans (ha.map Prod.snd).symm)
  have hML : M ≤ L := hleL M ((hlenr.trans (hb.map Prod.snd).symm).mem_iff.1 List.mem_cons_self)
  obtain ⟨m, rfl, hm⟩ := kraftSum_siblings
    (kraftSum_cut (List.forall_mem_cons.2 ⟨le_rfl, hleM⟩) ((kraftSum_perm hlens).trans_le hkraft))
  refine ⟨lengthCost ((a + b, m) :: rest'), ?_, (a + b, m) :: rest', (hwr'.symm ▸ hwr).cons _, hm, le_rfl⟩
  calc lengthCost ((a + b, m) :: rest') + (a + b) = a * (m + 1) + (b * (m + 1) + lengthCost rest') := by
        rw [lengthCost_cons]; ring
    _ ≤ a * L + (b * lb + lengthCost rest) := Nat.add_le_add (Nat.mul_le_mul_left a hML) hcostr
    _ = a * L + lengthCost itemsb' := by rw [lengthCost_perm hb, lengthCost_cons]
    _ ≤ a * la + lengthCost itemsb := hcostb
    _ = lengthCost items := by rw [lengthCost_perm ha, lengthCost_cons]
    _ ≤ c := hcost

end lengths
end Sys2Proof.Machine

namespace Sys2Proof.Machine

/-! ## Trees and codes as code lengths (spec/42_tree_builder.md R114) -/

section codes
variable {chars : List Byte} {weight : Byte → ℕ} {code : Byte → List Bool} {l r t : CodeTree}

/-- The sum of the weights of a tree's leaves. -/
def CodeTree.totalWeight (weight : Byte → ℕ) (t : CodeTree) : ℕ := (t.leaves.map weight).sum

theorem CodeTree.leaves_eq_map_paths (t : CodeTree) : t.leaves = t.paths.map Prod.fst := by
  induction t with
  | leaf c => rfl
  | node l r ihl ihr => simp [leaves, paths, ihl, ihr, Function.comp_def]

/-- One branch more in front of every path costs each leaf's weight once. -/
theorem cost_cons_paths (weight : Byte → ℕ) (b : Bool) (t : CodeTree) :
    ((t.paths.map fun q => (q.1, b :: q.2)).map fun q => weight q.1 * q.2.length).sum = t.cost weight + t.totalWeight weight := by
  rw [CodeTree.cost, CodeTree.totalWeight, t.leaves_eq_map_paths]
  simp [Function.comp_def, Nat.mul_add, List.sum_map_add]

theorem CodeTree.cost_leaf (weight : Byte → ℕ) (c : Byte) : (CodeTree.leaf c).cost weight = 0 := by
  simp [cost, paths]

/-- The cost of a joined tree (R114). -/
theorem CodeTree.cost_node (weight : Byte → ℕ) (l r : CodeTree) : (CodeTree.node l r).cost weight =
    l.cost weight + l.totalWeight weight + (r.cost weight + r.totalWeight weight) := by
  rw [← cost_cons_paths weight false l, ← cost_cons_paths weight true r, ← List.sum_append, ← List.map_append]
  rfl

theorem CodeTree.totalWeight_leaf (weight : Byte → ℕ) (c : Byte) : (CodeTree.leaf c).totalWeight weight = weight c := by
  simp [CodeTree.totalWeight, leaves]

theorem CodeTree.totalWeight_node (weight : Byte → ℕ) (l r : CodeTree) :
    (CodeTree.node l r).totalWeight weight = l.totalWeight weight + r.totalWeight weight := by
  simp [CodeTree.totalWeight, leaves]

/-- One branch more in front of every path halves Kraft's sum. -/
theorem kraftSum_cons_paths (b : Bool) (paths : List (Byte × List Bool)) :
    kraftSum ((paths.map fun q => (q.1, b :: q.2)).map fun q => q.2.length) = kraftSum (paths.map fun q => q.2.length) / 2 := by
  induction paths with
  | nil => simp [kraftSum]
  | cons q rest ih =>
    simp only [List.map_cons, kraftSum_cons, ih, List.length_cons, pow_succ]
    ring

theorem kraftSum_append (k m : List ℕ) : kraftSum (k ++ m) = kraftSum k + kraftSum m := by
  simp [kraftSum]

/-- The depths of a tree's leaves use up Kraft's sum. -/
theorem CodeTree.kraftSum_paths (t : CodeTree) : kraftSum (t.paths.map fun q => q.2.length) = 1 := by
  induction t with
  | leaf c => simp [paths, kraftSum]
  | node l r ihl ihr =>
    rw [paths, List.map_append, kraftSum_append, kraftSum_cons_paths, kraftSum_cons_paths, ihl, ihr]
    norm_num

/-- Code lengths for byte values. -/
theorem CodeWithin.of_paths {paths : List (Byte × List Bool)} (weight : Byte → ℕ)
    (hkraft : kraftSum (paths.map fun q => q.2.length) ≤ 1) :
    CodeWithin ((paths.map Prod.fst).map weight) (paths.map fun q => weight q.1 * q.2.length).sum := by
  refine ⟨paths.map fun q => (weight q.1, q.2.length), ?_, ?_, ?_⟩
  · simp [Function.comp_def]
  · simpa [Function.comp_def] using hkraft
  · simp [lengthCost, Function.comp_def]

/-- A tree is a code for its leaves. -/
theorem CodeTree.codeWithin (weight : Byte → ℕ) (t : CodeTree) : CodeWithin (t.leaves.map weight) (t.cost weight) := by
  rw [t.leaves_eq_map_paths]
  exact .of_paths weight t.kraftSum_paths.le

/-- A `PrefixCode` gives different byte values different words. -/
theorem PrefixCode.injOn (h : PrefixCode chars code) : ∀ c ∈ chars, ∀ d ∈ chars, code c = code d → c = d := by
  intro c hc d hd he
  by_contra hne
  exact h.2 c hc d hd hne (he ▸ List.prefix_refl _)

/-- The words of a `PrefixCode`, written one after another, are read back in one way only. -/
theorem PrefixCode.uniquelyDecodable (h : PrefixCode chars code) :
    InformationTheory.UniquelyDecodable {w | ∃ c ∈ chars, code c = w} := by
  have hword : ∀ {L : List (List Bool)}, (∀ w ∈ L, ∃ c ∈ chars, code c = w) → L.flatten = [] → L = [] := by
    rintro (_ | ⟨w, rest⟩) hL hflat
    · rfl
    · obtain ⟨c, hc, rfl⟩ := hL w List.mem_cons_self
      exact absurd (List.append_eq_nil_iff.1 hflat).1 (h.1 c hc)
  intro L₁
  induction L₁ with
  | nil => exact fun L₂ _ h₂ hflat => (hword h₂ hflat.symm).symm
  | cons w rest ih =>
    rintro (_ | ⟨v, rest'⟩) h₁ h₂ hflat
    · exact hword h₁ hflat
    · obtain ⟨c, hc, rfl⟩ := h₁ w List.mem_cons_self
      obtain ⟨d, hd, rfl⟩ := h₂ v List.mem_cons_self
      rw [List.flatten_cons, List.flatten_cons] at hflat
      have hcd : c = d := by
        by_contra hne
        rcases List.prefix_or_prefix_of_prefix ⟨_, hflat⟩ (List.prefix_append (code d) rest'.flatten) with hp | hp
        · exact h.2 c hc d hd hne hp
        · exact h.2 d hd c hc (Ne.symm hne) hp
      subst hcd
      rw [ih rest' (fun w hw => h₁ w (List.mem_cons_of_mem _ hw)) (fun w hw => h₂ w (List.mem_cons_of_mem _ hw))
        (List.append_cancel_left hflat)]

/-- Kraft's inequality for a `PrefixCode`. -/
theorem PrefixCode.kraftSum_le (h : PrefixCode chars code) (hnodup : chars.Nodup) :
    kraftSum (chars.map fun c => (code c).length) ≤ 1 := by
  have hset : ((chars.toFinset.image code : Finset (List Bool)) : Set (List Bool)) = {w | ∃ c ∈ chars, code c = w} := by
    ext w; simp
  have hkraft := InformationTheory.kraft_mcmillan_inequality (hset ▸ h.uniquelyDecodable)
  rw [Finset.sum_image (by simpa [Set.InjOn] using h.injOn), List.sum_toFinset _ hnodup] at hkraft
  simpa [kraftSum, Function.comp_def] using hkraft

/-- A `PrefixCode` as code lengths. -/
theorem PrefixCode.codeWithin (h : PrefixCode chars code) (hnodup : chars.Nodup) (weight : Byte → ℕ) :
    CodeWithin (chars.map weight) (codeCost chars weight fun c => (code c).length) := by
  have hpaths := CodeWithin.of_paths (paths := chars.map fun c => (c, code c)) weight
    (by simpa [Function.comp_def] using h.kraftSum_le hnodup)
  simpa [codeCost, Function.comp_def] using hpaths

end codes
end Sys2Proof.Machine

namespace Sys2Proof.Machine

/-! ## BUILD's tree is optimal (spec/42_tree_builder.md R114)

For every tie-break. BUILD's loop keeps `State.WithinReach`: what the trees made so far cost, and what a code for the
frequencies in the queue still has to cost, is together no more than the code BUILD is compared with. -/

/-- The id names the tree, and its frequency is the sum of the leaves' weights (R105). -/
def State.WeighedTreeAt (weight : Byte → ℕ) (s : State) (id : NodeId) (tr : CodeTree) : Prop :=
  s.TreeAt id tr ∧ s.freqOf id = tr.totalWeight weight

/-- The trees the queue names cost together so much less than `c` that a code for its frequencies is within reach of the
difference. -/
def State.WithinReach (weight : Byte → ℕ) (c : ℕ) (s : State) : Prop :=
  ∃ trees c', List.Forall₂ (s.WeighedTreeAt weight) s.PQ trees ∧ CodeWithin (s.PQ.map s.freqOf) c' ∧
    (trees.map (CodeTree.cost weight)).sum + c' ≤ c

section optimal
variable {before : Comparator} {s t u v : State} {x y r p : NodeId} {rest : List NodeId} {nx ny : Node} {tr tx ty : CodeTree}
  {weight : Byte → ℕ} {chars : List Byte} {c : ℕ}

theorem State.TreeAt.isSome (h : s.TreeAt x tr) : (s.slot x).isSome = true := by
  cases h with
  | leaf hn _ | node hn _ _ _ => simp [hn]

theorem State.KeepsNodes.weighedTreeAt (hk : s.KeepsNodes t) (h : s.WeighedTreeAt weight x tr) : t.WeighedTreeAt weight x tr :=
  ⟨hk.treeAt h.1, (hk.freqOf h.1.isSome).trans h.2⟩

/-- The frequency of the node a merge step makes (R106). -/
theorem State.freqOf_merged_new (hx : s.slot x = some nx) (hy : s.slot y = some ny) (hn : s.NEXT.val < 511)
    (hsum : nx.frequency.toNat + ny.frequency.toNat < 2 ^ 32) :
    (s.merged before hn x y rest nx ny).freqOf ⟨s.NEXT.val, hn⟩ = s.freqOf x + s.freqOf y := by
  simp only [freqOf, State.slot_merged_new hn, hx, hy, Option.map_some, Option.getD_some]
  exact Nat.mod_eq_of_lt hsum

/-- The new node of a merge step names the join of the two trees it removes. -/
theorem State.WeighedTreeAt.merged (hn : s.NEXT.val < 511) (hkeep : s.KeepsNodes (s.merged before hn x y rest nx ny))
    (hx : s.slot x = some nx) (hy : s.slot y = some ny) (hsum : nx.frequency.toNat + ny.frequency.toNat < 2 ^ 32)
    (htx : s.WeighedTreeAt weight x tx) (hty : s.WeighedTreeAt weight y ty) :
    (s.merged before hn x y rest nx ny).WeighedTreeAt weight ⟨s.NEXT.val, hn⟩ (.node tx ty) := by
  refine ⟨.node (State.slot_merged_new hn) rfl (hkeep.treeAt htx.1) (hkeep.treeAt hty.1), ?_⟩
  rw [State.freqOf_merged_new hx hy hn hsum, htx.2, hty.2, CodeTree.totalWeight_node]

/-- In a sorted queue the frequencies do not fall (R90). -/
theorem State.QueueInv.freqs_sorted (hb : before.TieBreak) (h : s.QueueInv before) :
    (s.PQ.map s.freqOf).Pairwise (· ≤ ·) :=
  List.pairwise_map.2 (h.sorted.imp fun hxy => State.freqOf_le_of_beforeBy hb hxy)

/-- A merge step joins the two smallest frequencies, so it leaves the code within reach. -/
theorem State.WithinReach.mergeStep (hb : before.TieBreak) (ha : u.ArenaInv before) (h : u.WithinReach weight c)
    (hm : u.mergeStep before = .done p v) : v.WithinReach weight c := by
  obtain ⟨x, y, rest, nx, ny, hPQ, hx, hy, hsum, hn, rfl⟩ := State.mergeStep_done_readable ha.queue.readable hm
  have hkeep := ha.forest.keepsNodes_merged (before := before) hn x y rest nx ny
  have hsorted := ha.queue.freqs_sorted hb
  obtain ⟨trees, c', htrees, hcode, hcost⟩ := h
  rw [hPQ] at htrees hcode hsorted
  obtain ⟨tx, trees', htx, htrees', rfl⟩ := List.forall₂_cons_left_iff.1 htrees
  obtain ⟨ty, others, hty, hothers, rfl⟩ := List.forall₂_cons_left_iff.1 htrees'
  simp only [List.map_cons, List.pairwise_cons, List.forall_mem_cons] at hsorted
  obtain ⟨⟨hxy, -⟩, hyrest, -⟩ := hsorted
  obtain ⟨c'', hc'', hjoined⟩ := hcode.join hxy hyrest
  have hrest : rest.map (u.merged before hn x y rest nx ny).freqOf = rest.map u.freqOf :=
    List.map_congr_left fun e he => hkeep.freqOf (ha.queue.readable e (by simp [hPQ, he]))
  have hfreqs : (⟨u.NEXT.val, hn⟩ :: rest).map (u.merged before hn x y rest nx ny).freqOf =
      (u.freqOf x + u.freqOf y) :: rest.map u.freqOf := by
    rw [List.map_cons, hrest, State.freqOf_merged_new hx hy hn hsum]
  have hnew := htx.merged hn hkeep hx hy hsum hty
  refine ⟨_, c'', forall₂_insertAt (hothers.imp fun _ _ => hkeep.weighedTreeAt) hnew _,
    hjoined.perm ((List.Perm.of_eq hfreqs.symm).trans ((insertAt_perm rest _ _).map _).symm), ?_⟩
  rw [((perm_take_cons_drop others _ (CodeTree.node tx ty)).map _).sum_eq, List.map_cons, List.sum_cons,
    CodeTree.cost_node, ← htx.2, ← hty.2]
  simp only [List.map_cons, List.sum_cons] at hcost
  omega

/-- A queue of leaves with the frequencies as weights is within reach of every code for them. -/
theorem State.QueueOfLeaves.withinReach (h : s.QueueOfLeaves chars) (hw : s.QueueWeights weight)
    (hcode : CodeWithin (chars.map weight) c) : s.WithinReach weight c := by
  have hleaves : List.Forall₂ (fun e ch => s.WeighedTreeAt weight e (.leaf ch) ∧ s.freqOf e = weight ch) s.PQ chars := by
    refine ((List.forall₂_and_left _ _).2 ⟨hw, h⟩).imp ?_
    rintro e _ ⟨hwe, n, hn, hch, rfl⟩
    have hfreq : s.freqOf e = weight n.character := by simp [hwe n hn, freqOf, hn]
    exact ⟨⟨.leaf hn hch, by rw [hfreq, CodeTree.totalWeight_leaf]⟩, hfreq⟩
  have hfreqs : s.PQ.map s.freqOf = chars.map weight := by
    rw [← List.forall₂_eq_eq_eq, List.forall₂_map_left_iff, List.forall₂_map_right_iff]
    exact hleaves.imp fun _ _ he => he.2
  refine ⟨chars.map .leaf, c, List.forall₂_map_right_iff.2 (hleaves.imp fun _ _ he => he.1), hfreqs ▸ hcode, ?_⟩
  simp [Function.comp_def, CodeTree.cost_leaf]

/-- BUILD's loop ends with at most one entry (R109, R112). -/
theorem State.mergeAll_done_length (rounds : ℕ) : ∀ s : State, s.mergeAll before rounds = .done () u →
    s.PQ.length ≤ rounds + 1 → u.PQ.length ≤ 1 := by
  induction rounds with
  | zero =>
    intro s h hlen
    obtain rfl : s = u := by simpa [mergeAll] using h
    exact hlen
  | succ rounds ih =>
    intro s h hlen
    by_cases hshort : s.PQ.length ≤ 1
    · rw [State.mergeAll_short hshort, RuleResult.done.injEq] at h
      exact h.2 ▸ hshort
    · rw [State.mergeAll_long (by omega)] at h
      cases hm : s.mergeStep before with
      | done p v =>
        rw [hm] at h
        have hshorter := State.mergeStep_length hm
        exact ih v h (by omega)
      | raised f v => rw [hm] at h; cases h
      | stuck w => rw [hm] at h; cases h

/-- A BUILD of a queue with entries has gone through its loop, down to one entry, and drained it (R109). -/
theorem buildRule_done {a : Reply} (hroot : s.ROOT = none) (hPQ : s.PQ ≠ []) (h : buildRule before s = .done a t) :
    ∃ u r, s.mergeAll before s.pqLen = .done () u ∧ u.PQ = [r] ∧ t = u.drained r [] := by
  rw [buildRule_nonempty hroot hPQ] at h
  cases hm : s.mergeAll before s.pqLen with
  | raised f u => rw [hm] at h; cases h
  | stuck w => rw [hm] at h; cases h
  | done _ u =>
    rw [hm, RuleResult.andThen_done] at h
    have hlen := State.mergeAll_done_length _ s hm (Nat.le_succ _)
    match hu : u.PQ, hlen with
    | [], _ => rw [State.drainRoot, State.dequeue, hu] at h; cases h
    | [r], _ =>
      rw [State.drainRoot_single hu, RuleResult.done.injEq] at h
      exact ⟨u, r, rfl, hu, h.2.symm⟩

/-- A BUILD that has made a tree found entries in the queue (R109, R111). -/
theorem queue_ne_nil_of_buildRule {a : Reply} (hroot : s.ROOT = none) (h : buildRule before s = .done a t)
    (ht : t.ROOT = some r) : s.PQ ≠ [] := by
  intro hPQ
  rw [buildRule_empty hroot hPQ, RuleResult.done.injEq] at h
  obtain ⟨-, rfl⟩ := h
  simp [hroot] at ht

/-- R114, for every tie-break: from a queue of leaves BUILD makes a tree of these leaves that costs no more than any code
for them. -/
theorem buildRule_optimal {a : Reply} (hb : before.TieBreak) (hs : s.ArenaInv before) (hroot : s.ROOT = none)
    (hleaves : s.QueueOfLeaves chars) (hw : s.QueueWeights weight) (h : buildRule before s = .done a t)
    (ht : t.ROOT = some r) (htr : t.TreeAt r tr) :
    tr.leaves.Perm chars ∧ ∀ c, CodeWithin (chars.map weight) c → tr.cost weight ≤ c := by
  have hPQ := queue_ne_nil_of_buildRule hroot h ht
  obtain ⟨u, q, hu, hone, rfl⟩ := buildRule_done hroot hPQ h
  obtain rfl : q = r := Option.some.inj ht
  have htrees := State.QueueOfLeaves.treesAt hleaves
  refine ⟨?_, fun c hcode => ?_⟩
  · have hmerging : (s.mergeAll before s.pqLen).Leaves (State.Merging before s (chars.map .leaf)) :=
      State.mergeAll_leaves (fun _ _ _ hv hm => hv.mergeStep hb hm) _ s (hs.merging_self hPQ htrees)
    rw [hu, RuleResult.leaves_done] at hmerging
    obtain ⟨tr', hends⟩ := hmerging.drained hPQ htrees hone
    obtain rfl := State.TreeAt_unique htr hends.tree
    simpa [List.flatMap_map, CodeTree.leaves] using (hends.counts _ htrees).1
  · have hreach : (s.mergeAll before s.pqLen).Leaves fun v => v.ArenaInv before ∧ v.WithinReach weight c :=
      State.mergeAll_leaves (fun _ _ _ hv hm => ⟨hv.1.mergeStep hb hm, hv.2.mergeStep hb hv.1 hm⟩) _ s
        ⟨hs, hleaves.withinReach hw hcode⟩
    rw [hu, RuleResult.leaves_done] at hreach
    obtain ⟨-, trees, c', htrees, -, hcost⟩ := hreach
    rw [hone] at htrees
    obtain ⟨tr', others, htr', hnil, rfl⟩ := List.forall₂_cons_left_iff.1 htrees
    have hkeep : u.KeepsNodes (u.drained q []) := (u.setQueue_setTag_keepsNodes [] q .root).trans (.of_N_eq rfl)
    obtain rfl := State.TreeAt_unique htr (hkeep.treeAt htr'.1)
    rw [List.map_cons, List.sum_cons] at hcost
    omega

/-- A BUILD that left a tree completed: a BUILD that faults leaves ROOT as it was (R180). -/
theorem exec_build_tree (hf : s.FAULT = 0) (hroot : s.ROOT = none) (h : exec .build s = .next t) (ht : t.ROOT = some r) :
    ∃ a u, buildRule nodeBefore s = .done a u ∧ t = u.respond 0 a.aux a.val := by
  rcases exec_next h with ⟨-, hne, -⟩ | hdone | ⟨f, u, hr, rfl⟩
  · exact absurd hf hne
  · exact hdone
  · obtain ⟨_, _, _, rfl⟩ := RuleResult.raises_iff.1 (buildRule_raises nodeBefore) f u hr
    exact absurd (hroot.symm.trans ht) (by simp)

end optimal

/-- Settles O38: every tree with these leaves is a code for them. -/
theorem buildIsOptimal : Obligations.BuildIsOptimal := by
  intro s t r tr other chars weight hs hf hroot hleaves _ hw h ht htr hother
  obtain ⟨a, u, hrule, rfl⟩ := exec_build_tree hf hroot h ht
  have hkeep : (u.respond 0 a.aux a.val).KeepsNodes u := .of_N_eq rfl
  have hopt := (buildRule_optimal nodeBefore_tieBreak (State.invFor_iff.1 hs).1 hroot hleaves hw hrule ht
    (hkeep.treeAt htr)).2
  exact hopt _ ((other.codeWithin weight).perm (hother.map weight))
end Sys2Proof.Machine

namespace Sys2Proof.Machine

/-! ## The codes of a tree (spec/44_encoding_table.md R131 to R134) -/

section tables
variable {s : State} {r id : NodeId} {tr l : CodeTree} {table : Vector CodeEntry 256} {sym : Byte} {pre : List Bool}
  {q : Byte × List Bool} {codes : List (Byte × List Bool)}

/-! ### Paths -/

/-- A leaf's path is as long as its depth at most. -/
theorem CodeTree.length_le_depth (hq : q ∈ tr.paths) : q.2.length ≤ tr.depth := by
  induction tr generalizing q with
  | leaf c =>
    obtain rfl : q = (c, []) := by simpa [paths] using hq
    exact le_rfl
  | node l r ihl ihr =>
    rcases List.mem_append.1 hq with hq | hq <;> obtain ⟨p, hp, rfl⟩ := List.mem_map.1 hq
    · have := ihl hp
      simp only [depth, List.length_cons]
      omega
    · have := ihr hp
      simp only [depth, List.length_cons]
      omega

/-- In a tree with an internal node no leaf's path is empty. -/
theorem CodeTree.path_ne_nil {l r : CodeTree} (hq : q ∈ (CodeTree.node l r).paths) : q.2 ≠ [] := by
  rcases List.mem_append.1 hq with hq | hq <;> obtain ⟨p, -, rfl⟩ := List.mem_map.1 hq <;> simp

/-- Where every leaf has its own byte value, a byte value picks its leaf. -/
theorem filter_paths_eq_singleton (hnodup : (codes.map Prod.fst).Nodup) (hq : q ∈ codes) :
    codes.filter (fun p => p.1 == q.1) = [q] := by
  induction codes with
  | nil => cases hq
  | cons p rest ih =>
    rw [List.map_cons, List.nodup_cons] at hnodup
    rcases List.mem_cons.1 hq with rfl | hq
    · have hnone : rest.filter (fun p => p.1 == q.1) = [] := List.filter_eq_nil_iff.2 fun p hp he =>
        hnodup.1 (eq_of_beq he ▸ List.mem_map_of_mem hp)
      simp [hnone]
    · have hne : ¬ (p.1 == q.1) = true := fun he => hnodup.1 (eq_of_beq he ▸ List.mem_map_of_mem hq)
      rw [List.filter_cons, if_neg hne, ih hnodup.2 hq]

/-- Where every leaf has its own byte value, its code is its path (R131). -/
theorem CodeTree.codeOf_path (hnodup : tr.leaves.Nodup) (hq : q ∈ tr.paths) (hne : q.2 ≠ []) :
    tr.codeOf q.1 = (bitsNumber q.2, q.2.length) := by
  rw [leaves_eq_map_paths] at hnodup
  rw [codeOf, filter_paths_eq_singleton hnodup hq]
  obtain ⟨c, path⟩ := q
  cases path with
  | nil => exact absurd rfl hne
  | cons b rest => rfl

/-- The single leaf's code is one bit long (R133). -/
theorem CodeTree.codeOf_leaf (c : Byte) : (CodeTree.leaf c).codeOf c = (0, 1) := by
  simp [codeOf, paths]

/-- With more than one leaf the code lengths are the depths (R131). -/
theorem CodeTree.codeCost_node {l r : CodeTree} (hnodup : (CodeTree.node l r).leaves.Nodup) (weight : Byte → ℕ) :
    codeCost (CodeTree.node l r).leaves weight (fun c => ((CodeTree.node l r).codeOf c).2) =
      (CodeTree.node l r).cost weight := by
  rw [codeCost, cost, leaves_eq_map_paths, List.map_map]
  refine congrArg List.sum (List.map_congr_left fun q hq => ?_)
  simp only [Function.comp_apply, CodeTree.codeOf_path hnodup hq (CodeTree.path_ne_nil hq)]

theorem codeCost_perm {chars chars' : List Byte} (h : chars.Perm chars') (weight len : Byte → ℕ) :
    codeCost chars weight len = codeCost chars' weight len := (h.map _).sum_eq

/-- The code of a tree that costs no more than any code for its leaves is optimal (R114, R133). -/
theorem CodeTree.codeCost_le {chars : List Byte} {weight : Byte → ℕ} {code : Byte → List Bool} (hperm : tr.leaves.Perm chars)
    (hnodup : chars.Nodup) (hopt : ∀ c, CodeWithin (chars.map weight) c → tr.cost weight ≤ c)
    (hcode : PrefixCode chars code) :
    codeCost chars weight (fun c => (tr.codeOf c).2) ≤ codeCost chars weight (fun c => (code c).length) := by
  cases tr with
  | leaf c =>
    obtain rfl : chars = [c] := List.perm_singleton.1 hperm.symm
    have hpos : 1 ≤ (code c).length := List.length_pos_iff.2 (hcode.1 c (by simp))
    simpa [codeCost, codeOf_leaf] using Nat.mul_le_mul_left (weight c) hpos
  | node l r =>
    rw [← codeCost_perm hperm, CodeTree.codeCost_node (hperm.nodup_iff.2 hnodup)]
    exact hopt _ (hcode.codeWithin hnodup weight)

/-! ### The walk -/

/-- The entry the table holds for a code. -/
def codeEntry (code : ℕ × ℕ) : CodeEntry := ⟨BitVec.ofNat 255 code.1, BitVec.ofNat 8 code.2⟩

/-- The codes written into a table one after another. -/
def writeCodes (codes : List (Byte × List Bool)) (table : Vector CodeEntry 256) : Vector CodeEntry 256 :=
  codes.foldl (fun table q => setCode table q.1 (bitsNumber q.2) q.2.length) table

/-- One more branch of a path (R131). -/
theorem bitsNumber_concat (bits : List Bool) (b : Bool) : bitsNumber (bits ++ [b]) = 2 * bitsNumber bits + b.toNat := by
  simp [bitsNumber]

/-- The walk of a tree that fits the stack writes its leaves' codes, left to right (R131, R132). -/
theorem State.walk_tree (h : s.TreeAt id tr) {stack : ℕ} (hd : tr.depth < stack) (pre : List Bool)
    (table : Vector CodeEntry 256) : s.walk stack id (bitsNumber pre) pre.length table =
      .ok (writeCodes (tr.paths.map fun q => (q.1, pre ++ q.2)) table) := by
  induction h generalizing stack pre table with
  | leaf hn hch =>
    obtain ⟨k, rfl⟩ : ∃ k, stack = k + 1 := ⟨stack - 1, by omega⟩
    simp [walk, hn, hch, CodeTree.paths, writeCodes]
  | @node id l r n tl tr hn hch _ _ ihl ihr =>
    obtain ⟨k, rfl⟩ : ∃ k, stack = k + 1 := ⟨stack - 1, by omega⟩
    simp only [CodeTree.depth] at hd
    have hl := ihl (stack := k) (by omega) (pre ++ [false]) table
    have hr := ihr (stack := k) (by omega) (pre ++ [true])
    simp only [bitsNumber_concat, List.length_append, List.length_singleton, Bool.toNat_false, Bool.toNat_true,
      Nat.add_zero] at hl hr
    simp [walk, hn, hch, hl, hr, CodeTree.paths, writeCodes, List.foldl_append, Function.comp_def]

theorem get_setCode (table : Vector CodeEntry 256) (sym x : Byte) (bits len : ℕ) :
    (setCode table sym bits len).get (symIndex x) = if x = sym then codeEntry (bits, len) else table.get (symIndex x) := by
  by_cases h : x = sym
  · subst h
    simp [setCode, codeEntry, Vector.get_eq_getElem]
  · have hne : (symIndex sym).val ≠ (symIndex x).val := fun e => h ((symIndex_inj _ _).1 (Fin.ext e.symm))
    simp [setCode, h, Vector.get_eq_getElem, Vector.getElem_set_ne, hne]

/-- Of the codes written for a byte value the last one stays (R132). -/
theorem get_writeCodes (codes : List (Byte × List Bool)) (table : Vector CodeEntry 256) (sym : Byte) :
    (writeCodes codes table).get (symIndex sym) = ((codes.filter fun q => q.1 == sym).getLast?.map fun q =>
      codeEntry (bitsNumber q.2, q.2.length)).getD (table.get (symIndex sym)) := by
  induction codes using List.reverseRecOn with
  | nil => rfl
  | append_singleton codes q ih =>
    rw [writeCodes, List.foldl_append, List.foldl_cons, List.foldl_nil, get_setCode, List.filter_append]
    by_cases h : sym = q.1
    · subst h
      simp
    · have hne : ¬ (q.1 == sym) = true := fun he => h (eq_of_beq he).symm
      rw [if_neg h, List.filter_cons, if_neg hne, List.filter_nil, List.append_nil]
      exact ih

theorem get_emptyTable (sym : Byte) : emptyTable.get (symIndex sym) = codeEntry (0, 0) := by
  simp [emptyTable, CodeEntry.empty, codeEntry, Vector.get_eq_getElem]

/-- The single leaf's table (R133). -/
theorem get_leafTable (c sym : Byte) :
    (setCode emptyTable c 0 1).get (symIndex sym) = codeEntry ((CodeTree.leaf c).codeOf sym) := by
  rw [get_setCode, get_emptyTable]
  by_cases h : sym = c
  · subst h
    rw [if_pos rfl, CodeTree.codeOf_leaf]
  · have hne : ¬ (c == sym) = true := fun he => h (eq_of_beq he).symm
    simp [h, hne, CodeTree.codeOf, CodeTree.paths]

/-- The table of a tree with an internal node (R132). -/
theorem get_nodeTable (l r : CodeTree) (sym : Byte) :
    (writeCodes (CodeTree.node l r).paths emptyTable).get (symIndex sym) = codeEntry ((CodeTree.node l r).codeOf sym) := by
  rw [get_writeCodes, get_emptyTable, CodeTree.codeOf]
  cases hlast : ((CodeTree.node l r).paths.filter fun q => q.1 == sym).getLast? with
  | none => rfl
  | some q =>
    have hmem := (List.mem_filter.1 (List.mem_of_getLast? hlast)).1
    obtain ⟨c, path⟩ := q
    cases path with
    | nil => exact absurd rfl (CodeTree.path_ne_nil hmem)
    | cons b rest => rfl

/-- MKTAB's table for a tree that fits the stack (R132 to R134). -/
theorem State.codeTable_tree (hroot : s.ROOT = some r) (h : s.TreeAt r tr) (hd : tr.depth ≤ 255) :
    ∃ table, s.codeTable = .ok table ∧ ∀ sym, table.get (symIndex sym) = codeEntry (tr.codeOf sym) := by
  cases h with
  | leaf hn hch => exact ⟨_, by simp only [codeTable, hroot, hn, hch], get_leafTable _⟩
  | @node _ _ _ _ tl tr hn hch hl hr =>
    have hwalk := State.walk_tree (.node hn hch hl hr) (Nat.lt_succ_of_le hd) [] emptyTable
    simp only [List.nil_append, Prod.mk.eta, List.map_id'] at hwalk
    refine ⟨_, ?_, get_nodeTable tl tr⟩
    simp only [codeTable, hroot, hn, hch]
    exact hwalk

/-- A code of a tree that fits the stack is at most 255 bits long (R26, R132). -/
theorem CodeTree.codeOf_length_le (hd : tr.depth ≤ 255) (sym : Byte) : (tr.codeOf sym).2 ≤ 255 := by
  unfold codeOf
  cases hlast : (tr.paths.filter fun q => q.1 == sym).getLast? with
  | none => exact Nat.zero_le _
  | some q =>
    have hlen := (CodeTree.length_le_depth (List.mem_filter.1 (List.mem_of_getLast? hlast)).1).trans hd
    obtain ⟨c, path⟩ := q
    cases path with
    | nil => exact Nat.le_of_ble_eq_true rfl
    | cons b rest => exact hlen

/-- MKTAB, with a tree that fits the stack, completes and writes the code of every byte value (R134). -/
theorem exec_mktab_tree (hf : s.FAULT = 0) (hroot : s.ROOT = some r) (h : s.TreeAt r tr) (hd : tr.depth ≤ 255) :
    ∃ t, exec .mktab s = .next t ∧ ∀ sym, t.code sym = codeEntry (tr.codeOf sym) := by
  obtain ⟨table, htable, hcodes⟩ := State.codeTable_tree hroot h hd
  have hrule : mktabRule s = .done (.count (usedCodes table)) { s with CODE := table } := by rw [mktabRule, htable]
  exact ⟨_, exec_of_done .mktab hf hrule, hcodes⟩

end tables

/-- Settles O58: the tree costs no more than any code (`buildRule_optimal`), and its code costs what it does, but for the
single leaf, whose one bit no word undercuts. -/
theorem codeIsOptimalForEveryTieBreak : Obligations.CodeIsOptimalForEveryTieBreak := by
  intro before s t a r tr chars weight code hb hs hroot hleaves hnodup hw hbuild ht htr hcode
  obtain ⟨hperm, hopt⟩ := buildRule_optimal hb (State.invFor_iff.1 hs).1 hroot hleaves hw hbuild ht htr
  exact CodeTree.codeCost_le hperm hnodup hopt hcode

/-- Settles O59: MKTAB writes the code of BUILD's tree. -/
theorem codeTableIsOptimal : Obligations.CodeTableIsOptimal := by
  intro s t chars weight code hs hf hroot hPQ hleaves hnodup hw h htf hcode
  have ht := (State.invFor_iff.1 (exec_keeps_inv h hs)).1
  rcases exec_next h with ⟨-, hne, -⟩ | ⟨a, u, hrule, rfl⟩ | ⟨f, u, -, rfl⟩
  · exact absurd hf hne
  · obtain ⟨v, r, -, -, rfl⟩ := buildRule_done hroot hPQ hrule
    obtain ⟨tr, htr⟩ := ht.forest.exists_treeAt r (ht.links.rootAllocated r rfl)
    have hshallow := (htr.shallow ht.forest).1
    have hkeep : ((v.drained r []).respond 0 a.aux a.val).KeepsNodes (v.drained r []) := .of_N_eq rfl
    obtain ⟨hperm, hopt⟩ := buildRule_optimal nodeBefore_tieBreak (State.invFor_iff.1 hs).1 hroot hleaves hw hrule rfl
      (hkeep.treeAt htr)
    obtain ⟨w, hw, hcodes⟩ := exec_mktab_tree htf rfl htr hshallow
    have hlens : (fun c => (w.code c).len.toNat) = fun c => (tr.codeOf c).2 := funext fun c => by
      rw [hcodes c]
      exact Nat.mod_eq_of_lt (Nat.lt_succ_of_le (CodeTree.codeOf_length_le hshallow c))
    exact ⟨w, hw, hlens ▸ CodeTree.codeCost_le hperm hnodup hopt hcode⟩
  · exact absurd htf (u.raise_FAULT_ne_zero f)

end Sys2Proof.Machine

namespace Sys2Proof.Machine

/-! ## The serialized tree (spec/43_tree_serializer.md R121 to R126) -/

/-! ### Bits most significant first -/

@[simp] theorem length_msbFirst {n : ℕ} (w : ℕ) (v : BitVec n) : (msbFirst w v).length = w := by
  simp [msbFirst]

@[simp] theorem getElem_msbFirst {n : ℕ} (w : ℕ) (v : BitVec n) (i : ℕ) (hi : i < (msbFirst w v).length) :
    (msbFirst w v)[i] = v.getLsbD (w - 1 - i) := by
  simp [msbFirst]

/-- The last bit out is the lowest one. -/
theorem msbFirst_succ {n : ℕ} (w : ℕ) (v : BitVec n) : msbFirst (w + 1) v = msbFirst w (v >>> 1) ++ [v.getLsbD 0] := by
  simp [msbFirst, List.range_succ_eq_map, Function.comp_def, Nat.add_comm]

/-- The bits that go out are the binary digits of the value (R43, R131). -/
theorem bitsNumber_msbFirst {n : ℕ} (w : ℕ) (v : BitVec n) : bitsNumber (msbFirst w v) = v.toNat % 2 ^ w := by
  induction w generalizing v with
  | zero => simp [msbFirst, bitsNumber, Nat.mod_one]
  | succ w ih =>
    have hlow : (v.getLsbD 0).toNat = v.toNat % 2 := by
      rw [BitVec.getLsbD, Nat.toNat_testBit, pow_zero, Nat.div_one]
    rw [msbFirst_succ, bitsNumber_concat, ih, hlow, BitVec.toNat_ushiftRight, Nat.shiftRight_eq_div_pow, pow_one,
      Nat.pow_succ', Nat.mod_mul, Nat.add_comm]

/-- A byte is read back from its bits (R126). -/
theorem byteOfBits_msbFirst (c : Byte) : byteOfBits (msbFirst 8 c) = c := by
  rw [byteOfBits, bitsNumber_msbFirst, Nat.mod_eq_of_lt c.isLt, BitVec.ofNat_toNat, BitVec.setWidth_eq]

/-! ### The bits accepted in a scope -/

/-- The bit written below the first `k` of a byte stands after them (R145). -/
theorem take_msbFirst_setBit (v : Byte) {k : ℕ} (hk : k < 8) (b : Bool) :
    (msbFirst 8 (setBit v (7 - k) b)).take (k + 1) = (msbFirst 8 v).take k ++ [b] := by
  refine List.ext_getElem (by simp; omega) fun i hi _ => ?_
  have hik : i < k + 1 := by simp at hi; omega
  rw [List.getElem_take, getElem_msbFirst, getLsbD_setBit v (by omega)]
  by_cases h : i = k
  · subst h
    simp [Nat.le_of_lt hk]
  · rw [if_neg (by omega), List.getElem_append_left (by simp; omega), List.getElem_take, getElem_msbFirst]

/-- A bit accepted comes after the bits accepted so far, whether or not it completes a byte (R145, R147). -/
theorem State.acceptedBits_putBit (s : State) (b : Bool) : (s.putBit b).acceptedBits = s.acceptedBits ++ [b] := by
  have hbit := take_msbFirst_setBit s.ACC s.NBITS.isLt b
  unfold putBit
  by_cases h : s.NBITS.val < 7
  · simp only [h, dite_true, acceptedBits, hbit, List.append_assoc]
  · have h7 : s.NBITS.val = 7 := by omega
    have hbyte : msbFirst 8 (setBit s.ACC (7 - s.NBITS.val) b) = (msbFirst 8 s.ACC).take s.NBITS.val ++ [b] := by
      rw [← hbit, List.take_of_length_le (by simp [h7])]
    simp [h, acceptedBits, hbyte]

/-- Bits accepted one after another come after the bits accepted so far (R147). -/
theorem State.acceptedBits_putBitSeq (s : State) (bits : List Bool) :
    (s.putBitSeq bits).acceptedBits = s.acceptedBits ++ bits := by
  induction bits generalizing s with
  | nil => simp
  | cons b rest ih => rw [putBitSeq_cons, ih, acceptedBits_putBit, List.append_assoc, List.singleton_append]

/-- Accepting a bit appends the byte it completes to OUT, or nothing (R145). -/
theorem State.putBit_OUT (s : State) (b : Bool) :
    ∃ bytes : List Byte, (s.putBit b).OUT = s.OUT ++ bytes.map .byte := by
  unfold putBit
  split
  · exact ⟨[], (List.append_nil _).symm⟩
  · exact ⟨[_], rfl⟩

/-- Accepting bits appends completed bytes to OUT and nothing else (R145). -/
theorem State.putBitSeq_OUT (s : State) (bits : List Bool) :
    ∃ bytes : List Byte, (s.putBitSeq bits).OUT = s.OUT ++ bytes.map .byte := by
  induction bits generalizing s with
  | nil => exact ⟨[], (List.append_nil _).symm⟩
  | cons b rest ih =>
    obtain ⟨first, hfirst⟩ := s.putBit_OUT b
    obtain ⟨bytes, hbytes⟩ := ih (s.putBit b)
    exact ⟨first ++ bytes, by rw [putBitSeq_cons, hbytes, hfirst, List.map_append, List.append_assoc]⟩

/-- Accepting bits writes ACC, NBITS and OUT only (R145). -/
theorem State.putBitSeq_frame (s : State) (bits : List Bool) : s.putBitSeq bits =
    { s with ACC := (s.putBitSeq bits).ACC, NBITS := (s.putBitSeq bits).NBITS, OUT := (s.putBitSeq bits).OUT } := by
  obtain ⟨acc, nbits, out, -, h⟩ := s.bitsWritten_putBitSeq bits
  rw [h]

/-! ### The decoder (R126) -/

/-- A leaf's marker and byte put the leaf on the stack. -/
theorem rebuild_leaf (c : Byte) (leaves internals : ℕ) (stack : List CodeTree) (rest : List Bool) :
    rebuild (leaves + 1) internals stack ((CodeTree.leaf c).postorder ++ rest) =
      rebuild leaves internals (.leaf c :: stack) rest := by
  conv_rhs => rw [← byteOfBits_msbFirst c]
  cases internals <;> rfl

/-- An internal marker joins the two trees on top of the stack. -/
theorem rebuild_node (l r : CodeTree) (leaves internals : ℕ) (stack : List CodeTree) (rest : List Bool) :
    rebuild leaves (internals + 1) (r :: l :: stack) (false :: rest) =
      rebuild leaves internals (.node l r :: stack) rest := by
  cases leaves <;> rfl

/-- The bits of a tree put the tree on the stack, whatever is there and whatever follows. -/
theorem rebuild_postorder (t : CodeTree) (leaves internals : ℕ) (stack : List CodeTree) (rest : List Bool) :
    rebuild (leaves + t.leaves.length) (internals + t.internals) stack (t.postorder ++ rest) =
      rebuild leaves internals (t :: stack) rest := by
  induction t generalizing leaves internals stack rest with
  | leaf c => exact rebuild_leaf c leaves internals stack rest
  | node l r ihl ihr =>
    calc rebuild (leaves + (CodeTree.node l r).leaves.length) (internals + (CodeTree.node l r).internals) stack
          ((CodeTree.node l r).postorder ++ rest)
      _ = rebuild (leaves + r.leaves.length + l.leaves.length) (internals + 1 + r.internals + l.internals) stack
          (l.postorder ++ (r.postorder ++ false :: rest)) := by
        simp only [CodeTree.leaves, CodeTree.internals, CodeTree.postorder, List.length_append, List.append_assoc,
          List.singleton_append]
        congr 1 <;> omega
      _ = rebuild leaves (internals + 1) (r :: l :: stack) (false :: rest) := by rw [ihl, ihr]
      _ = rebuild leaves internals (.node l r :: stack) rest := rebuild_node l r leaves internals stack rest

/-- From a tree's bits and its number of leaves the decoder gives the tree and what follows (R126). -/
theorem CodeTree.rebuild_bits (t : CodeTree) (after : List Bool) :
    rebuild t.leaves.length (t.leaves.length - 1) [] (t.postorder ++ after) = some (t, after) := by
  have hcount : t.leaves.length - 1 = t.internals := by rw [t.leaves_internals, Nat.add_sub_cancel]
  have h := rebuild_postorder t 0 0 [] after
  rw [Nat.zero_add, Nat.zero_add] at h
  rw [hcount, h, rebuild]

/-! ### SER -/

section serializer
variable {s : State} {r : NodeId} {tr : CodeTree}

theorem serRule_closed (ho : s.OPEN = false) (order : SerOrder) : serRule order s = .raised .sinkClosed s :=
  if_pos ho

theorem serRule_noTree (ho : s.OPEN = true) (hroot : s.ROOT = none) (order : SerOrder) :
    serRule order s = .done (.val32 0) s := by
  simp [serRule, ho, hroot]

/-- With a tree that fits the stack SER accepts its postorder bits and answers their number (R123, R124). -/
theorem serRule_tree (ho : s.OPEN = true) (hroot : s.ROOT = some r) (h : s.TreeAt r tr) (hd : tr.depth ≤ 255) :
    serRule .post s = .done (.count (10 * tr.leaves.length - 1)) (s.putBitSeq tr.postorder) := by
  have hlen : tr.postorder.length = 10 * tr.leaves.length - 1 := by rw [← tr.length_postorder, Nat.add_sub_cancel]
  simp [serRule, ho, hroot, State.serBits_tree h (Nat.lt_succ_of_le hd), hlen]

theorem exec_ser_tree (hf : s.FAULT = 0) (ho : s.OPEN = true) (hroot : s.ROOT = some r) (h : s.TreeAt r tr)
    (hd : tr.depth ≤ 255) :
    exec .ser s = .next ((s.putBitSeq tr.postorder).respond 0 0 (BitVec.ofNat 32 (10 * tr.leaves.length - 1))) :=
  exec_of_done .ser hf (serRule_tree ho hroot h hd)

end serializer

/-- Settles O39: the rule's three cases, and what accepting the bits of the tree writes. -/
theorem serWritesThePostorderBits : Obligations.SerWritesThePostorderBits := by
  refine fun s hf => ⟨fun ho => exec_of_raised .ser hf (serRule_closed ho _), fun ho hroot => ?_,
    fun r tr ho hroot h hd => ?_⟩
  · rw [exec_of_done .ser hf (serRule_noTree ho hroot _), State.respond, responseWord_zero]
  · refine ⟨_, exec_ser_tree hf ho hroot h hd, s.acceptedBits_putBitSeq _, s.putBitSeq_NBITS_val _,
      fun hclean => hclean.putBitSeq _, s.putBitSeq_OUT _, ?_⟩
    rw [s.putBitSeq_frame]
    rfl

/-- Settles O40: SER accepts the postorder bits (`exec_ser_tree`), and the decoder reads them (`CodeTree.rebuild_bits`). -/
theorem serializedTreeRoundTrips : Obligations.SerializedTreeRoundTrips := by
  intro s r tr hf ho hroot h hd
  exact ⟨_, tr.postorder, exec_ser_tree hf ho hroot h hd, s.acceptedBits_putBitSeq _, tr.rebuild_bits⟩

end Sys2Proof.Machine

namespace Sys2Proof.Machine

/-! ## The encoding table (spec/44_encoding_table.md R131 to R138) -/

/-! ### Bits as numbers -/

/-- The bits are the binary digits of their number, the last one lowest (R131). -/
theorem bitsNumber_eq_ofDigits (bits : List Bool) : bitsNumber bits = Nat.ofDigits 2 (bits.reverse.map Bool.toNat) := by
  induction bits using List.reverseRecOn with
  | nil => rfl
  | append_singleton bits b ih => simp [bitsNumber_concat, ih, Nat.ofDigits_cons, Nat.add_comm]

theorem digit_lt_two {bits : List Bool} : ∀ d ∈ bits.map Bool.toNat, d < 2 := by
  intro d hd
  obtain ⟨b, -, rfl⟩ := List.mem_map.1 hd
  exact b.toNat_lt

/-- A number has no more binary digits than bits (R31 item 10). -/
theorem bitsNumber_lt (bits : List Bool) : bitsNumber bits < 2 ^ bits.length := by
  rw [bitsNumber_eq_ofDigits]
  simpa using Nat.ofDigits_lt_base_pow_length (by decide) (digit_lt_two (bits := bits.reverse))

theorem bitsNumber_append (a b : List Bool) : bitsNumber (a ++ b) = bitsNumber b + 2 ^ b.length * bitsNumber a := by
  simp [bitsNumber_eq_ofDigits, Nat.ofDigits_append]

/-- Of equally many bits the number tells which they are. -/
theorem eq_of_bitsNumber_eq {a b : List Bool} (hlen : a.length = b.length) (h : bitsNumber a = bitsNumber b) : a = b := by
  rw [bitsNumber_eq_ofDigits, bitsNumber_eq_ofDigits] at h
  have hdigits := Nat.ofDigits_inj_of_len_eq (by decide) (by simpa using hlen) digit_lt_two digit_lt_two h
  have hinj : Function.Injective Bool.toNat := by decide
  exact List.reverse_injective (List.map_injective_iff.2 hinj hdigits)

/-- Where the number of the first bits of `b` is the number of `a`, `b` begins with `a`. -/
theorem prefix_of_bitsNumber_div {a b : List Bool} (hlen : a.length ≤ b.length)
    (h : bitsNumber b / 2 ^ (b.length - a.length) = bitsNumber a) : a <+: b := by
  have hdrop : (b.drop a.length).length = b.length - a.length := List.length_drop
  have hlow := bitsNumber_lt (b.drop a.length)
  have hb := bitsNumber_append (b.take a.length) (b.drop a.length)
  rw [hdrop] at hlow hb
  rw [List.take_append_drop] at hb
  rw [hb, Nat.add_mul_div_left _ _ (Nat.two_pow_pos _), Nat.div_eq_of_lt hlow, Nat.zero_add] at h
  have htake : b.take a.length = a := eq_of_bitsNumber_eq (List.length_take_of_le hlen) h
  exact List.prefix_iff_eq_take.2 htake.symm

section tables
variable {s : State} {r : NodeId} {tr : CodeTree} {table : Vector CodeEntry 256} {sym x y : Byte} {q : Byte × List Bool}

/-! ### The codes of a tree -/

theorem CodeTree.mem_leaves_iff : sym ∈ tr.leaves ↔ ∃ path, (sym, path) ∈ tr.paths := by
  simp [leaves_eq_map_paths]

/-- The first branch of a path says under which child the rest of it lies (R131). -/
theorem CodeTree.mem_paths_cons {l r : CodeTree} {b : Bool} {path : List Bool} :
    (sym, b :: path) ∈ (CodeTree.node l r).paths ↔ (sym, path) ∈ (if b then r else l).paths := by
  cases b <;> simp [paths]

/-- No leaf's path is the start of another leaf's (R135). -/
theorem CodeTree.eq_of_path_prefix {px py : List Bool} (hx : (x, px) ∈ tr.paths) (hy : (y, py) ∈ tr.paths)
    (h : px <+: py) : x = y := by
  induction tr generalizing px py with
  | leaf c =>
    simp only [paths, List.mem_singleton, Prod.mk.injEq] at hx hy
    exact hx.1.trans hy.1.symm
  | node l r ihl ihr =>
    obtain ⟨b, px, rfl⟩ := List.exists_cons_of_ne_nil (path_ne_nil hx)
    obtain ⟨b', py, rfl⟩ := List.exists_cons_of_ne_nil (path_ne_nil hy)
    obtain ⟨rfl, hrest⟩ := List.cons_prefix_cons.1 h
    rw [mem_paths_cons] at hx hy
    cases b with
    | false => exact ihl hx hy hrest
    | true => exact ihr hx hy hrest

/-- A byte value no leaf carries has no code (R134). -/
theorem CodeTree.codeOf_of_notMem (h : sym ∉ tr.leaves) : tr.codeOf sym = (0, 0) := by
  have hnone : tr.paths.filter (fun q => q.1 == sym) = [] := List.filter_eq_nil_iff.2 fun q hq he =>
    h (mem_leaves_iff.2 ⟨q.2, by rwa [← eq_of_beq he]⟩)
  rw [codeOf, hnone]
  rfl

/-- The code of a byte value that leaves carry is the path of one of them, or one bit for the single leaf (R132, R133). -/
theorem CodeTree.codeOf_of_mem (h : sym ∈ tr.leaves) : ∃ path, (sym, path) ∈ tr.paths ∧
    tr.codeOf sym = if path = [] then (0, 1) else (bitsNumber path, path.length) := by
  obtain ⟨path, hpath⟩ := mem_leaves_iff.1 h
  have hmem : (sym, path) ∈ tr.paths.filter fun q => q.1 == sym := List.mem_filter.2 ⟨hpath, beq_self_eq_true sym⟩
  obtain ⟨q, hlast⟩ := Option.isSome_iff_exists.1 (List.getLast?_isSome.2 (List.ne_nil_of_mem hmem))
  obtain ⟨hq, hsym⟩ := List.mem_filter.1 (List.mem_of_getLast? hlast)
  obtain ⟨c, last⟩ := q
  obtain rfl : c = sym := eq_of_beq hsym
  refine ⟨last, hq, ?_⟩
  rw [codeOf, hlast]
  cases last <;> rfl

/-- Exactly the leaves' byte values have a code (R134). -/
theorem CodeTree.codeOf_length_ne_zero : (tr.codeOf sym).2 ≠ 0 ↔ sym ∈ tr.leaves := by
  by_cases h : sym ∈ tr.leaves
  · obtain ⟨path, -, hcode⟩ := codeOf_of_mem h
    rw [hcode]
    split <;> simp [*]
  · simp [codeOf_of_notMem h, h]

/-- A code fits its length (R31 item 10). -/
theorem CodeTree.codeOf_lt (tr : CodeTree) (sym : Byte) : (tr.codeOf sym).1 < 2 ^ (tr.codeOf sym).2 := by
  by_cases h : sym ∈ tr.leaves
  · obtain ⟨path, -, hcode⟩ := codeOf_of_mem h
    rw [hcode]
    split
    · decide
    · exact bitsNumber_lt path
  · rw [codeOf_of_notMem h]
    decide

/-- Where every leaf has its own byte value, a code is as long as its leaf is deep, but for the single leaf (R135). -/
theorem CodeTree.codeOf_length (hnodup : tr.leaves.Nodup) (hq : q ∈ tr.paths) :
    (tr.codeOf q.1).2 = if tr.internals = 0 then 1 else q.2.length := by
  cases tr with
  | leaf c =>
    obtain rfl : q = (c, []) := by simpa [paths] using hq
    rw [codeOf_leaf]
    rfl
  | node l r =>
    rw [codeOf_path hnodup hq (path_ne_nil hq), if_neg (show (node l r).internals ≠ 0 from Nat.succ_ne_zero _)]

/-- The code of one leaf's byte value is not the start of another's (R135). -/
theorem CodeTree.codeOf_prefixFree (hx : x ∈ tr.leaves) (hy : y ∈ tr.leaves) (hne : x ≠ y)
    (hlen : (tr.codeOf x).2 ≤ (tr.codeOf y).2) :
    (tr.codeOf y).1 / 2 ^ ((tr.codeOf y).2 - (tr.codeOf x).2) ≠ (tr.codeOf x).1 := by
  cases tr with
  | leaf c => exact absurd ((List.mem_singleton.1 hx).trans (List.mem_singleton.1 hy).symm) hne
  | node l r =>
    obtain ⟨px, hpx, hcx⟩ := codeOf_of_mem hx
    obtain ⟨py, hpy, hcy⟩ := codeOf_of_mem hy
    rw [if_neg (path_ne_nil hpx)] at hcx
    rw [if_neg (path_ne_nil hpy)] at hcy
    rw [hcx, hcy] at hlen ⊢
    exact fun h => hne (eq_of_path_prefix hpx hpy (prefix_of_bitsNumber_div hlen h))

/-! ### The entries of a table -/

theorem codeEntry_len_toNat (hd : tr.depth ≤ 255) (sym : Byte) :
    (codeEntry (tr.codeOf sym)).len.toNat = (tr.codeOf sym).2 :=
  Nat.mod_eq_of_lt (Nat.lt_succ_of_le (CodeTree.codeOf_length_le hd sym))

theorem codeEntry_bits_toNat (hd : tr.depth ≤ 255) (sym : Byte) :
    (codeEntry (tr.codeOf sym)).bits.toNat = (tr.codeOf sym).1 :=
  Nat.mod_eq_of_lt ((tr.codeOf_lt sym).trans_le (Nat.pow_le_pow_right (by decide) (CodeTree.codeOf_length_le hd sym)))

theorem codeEntry_len_ne_zero (hd : tr.depth ≤ 255) : (codeEntry (tr.codeOf sym)).len ≠ 0 ↔ sym ∈ tr.leaves := by
  rw [← CodeTree.codeOf_length_ne_zero, ← codeEntry_len_toNat hd]
  exact BitVec.toNat_inj.symm.not

theorem mem_allSyms (sym : Byte) : sym ∈ allSyms :=
  List.mem_map.2 ⟨sym.toNat, List.mem_range.2 sym.isLt, by rw [BitVec.ofNat_toNat, BitVec.setWidth_eq]⟩

theorem nodup_allSyms : allSyms.Nodup := by
  refine List.Nodup.map_on (fun a ha b hb h => ?_) List.nodup_range
  have hab := congrArg BitVec.toNat h
  rwa [BitVec.toNat_ofNat, BitVec.toNat_ofNat, Nat.mod_eq_of_lt (List.mem_range.1 ha),
    Nat.mod_eq_of_lt (List.mem_range.1 hb)] at hab

/-- A table is its entries, byte value after byte value (R26). -/
theorem toList_eq_map_allSyms (table : Vector CodeEntry 256) :
    table.toList = allSyms.map fun sym => table.get (symIndex sym) := by
  refine List.ext_getElem (by simp [allSyms]) fun i hi _ => ?_
  have hmod : i % 256 = i := Nat.mod_eq_of_lt (by simpa using hi)
  simp [allSyms, symIndex, Vector.get_eq_getElem, hmod]

/-- The used entries are counted byte value by byte value (R134). -/
theorem usedCodes_eq (table : Vector CodeEntry 256) :
    usedCodes table = (allSyms.filter fun sym => (table.get (symIndex sym)).len != 0).length := by
  rw [usedCodes, toList_eq_map_allSyms, List.countP_map, List.countP_eq_length_filter]
  rfl

theorem usedCodes_emptyTable : usedCodes emptyTable = 0 := by
  simp [usedCodes_eq, get_emptyTable, codeEntry]

theorem usedCodes_le (table : Vector CodeEntry 256) : usedCodes table ≤ 256 :=
  List.countP_le_length.trans_eq table.length_toList

/-- The table of a tree uses as many entries as its leaves have byte values (R134). -/
theorem usedCodes_tree (hd : tr.depth ≤ 255) (htable : ∀ sym, table.get (symIndex sym) = codeEntry (tr.codeOf sym)) :
    usedCodes table = tr.leaves.dedup.length := by
  rw [usedCodes_eq]
  refine List.Perm.length_eq ((List.perm_ext_iff_of_nodup (nodup_allSyms.filter _) (List.nodup_dedup _)).2 fun sym => ?_)
  rw [List.mem_filter, List.mem_dedup, htable, bne_iff_ne, codeEntry_len_ne_zero hd]
  exact and_iff_right (mem_allSyms sym)

/-! ### MKTAB -/

theorem mktabRule_noTree (hroot : s.ROOT = none) :
    mktabRule s = .done (.val32 0) { s with CODE := emptyTable } := by
  simp [mktabRule, State.codeTable, hroot, usedCodes_emptyTable, Reply.count]

/-- MKTAB, with a tree that fits the stack, writes the code of every byte value, answers how many there are, and changes
nothing else (R134). -/
theorem exec_mktab_tree_eq (hf : s.FAULT = 0) (hroot : s.ROOT = some r) (h : s.TreeAt r tr) (hd : tr.depth ≤ 255) :
    ∃ table, (∀ sym, table.get (symIndex sym) = codeEntry (tr.codeOf sym)) ∧ exec .mktab s =
      .next { s with CODE := table, rsp := s.rsp ++ [BitVec.ofNat 64 tr.leaves.dedup.length] } := by
  obtain ⟨table, htable, hcodes⟩ := State.codeTable_tree hroot h hd
  have hused := usedCodes_tree hd hcodes
  have hword := responseWord_count _ (hused ▸ (usedCodes_le table).trans_lt (by decide))
  have hrule : mktabRule s = .done (.count tr.leaves.dedup.length) { s with CODE := table } := by
    rw [mktabRule, htable, ← hused]
  exact ⟨table, hcodes, by rw [exec_of_done .mktab hf hrule, State.respond, hword]⟩

end tables

/-- Settles O42: without a tree the table is `emptyTable`; with one it is `exec_mktab_tree_eq`'s, no field of which is
narrowed. -/
theorem mktabBuildsTheTable : Obligations.MktabBuildsTheTable := by
  refine fun s hf => ⟨fun hroot => ?_, fun r tr hroot h hd => ?_⟩
  · refine ⟨_, exec_of_done .mktab hf (mktabRule_noTree hroot), get_emptyTable, ?_⟩
    rw [State.respond, responseWord_zero]
  · obtain ⟨table, hcodes, hexec⟩ := exec_mktab_tree_eq hf hroot h hd
    refine ⟨_, hexec, fun sym => ?_, rfl⟩
    rw [State.code, hcodes]
    exact ⟨codeEntry_bits_toNat hd sym, codeEntry_len_toNat hd sym⟩

/-- Settles O43: what holds of the tree's codes (`CodeTree.codeOf_length`, `CodeTree.codeOf_prefixFree`) holds of the table's
entries. -/
theorem codesArePrefixFree : Obligations.CodesArePrefixFree := by
  intro s r tr hf hroot h hd hnodup
  obtain ⟨table, hcodes, hexec⟩ := exec_mktab_tree_eq hf hroot h hd
  rw [hnodup.dedup] at hexec
  refine ⟨_, hexec, rfl, fun x => ?_, fun q hq => ?_, fun x hx y hy hne => ?_⟩
  · rw [State.code, hcodes, codeEntry_len_ne_zero hd]
  · rw [State.code, hcodes, codeEntry_len_toNat hd, CodeTree.codeOf_length hnodup hq]
  · simp only [State.code, hcodes, codeEntry_len_toNat hd, codeEntry_bits_toNat hd]
    exact fun ⟨hlen, hdiv⟩ => CodeTree.codeOf_prefixFree hx hy hne hlen hdiv

/-! ### EMIT and CODE_RD -/

section emit
variable {s : State} {sym : Byte}

theorem emitRule_closed (ho : s.OPEN = false) : emitRule sym s = .raised .sinkClosed s := if_pos ho

theorem emitRule_noCode (ho : s.OPEN = true) (hlen : (s.code sym).len = 0) : emitRule sym s = .raised .noCode s := by
  simp [emitRule, ho, hlen]

/-- With an open sink and a code EMIT accepts the code's bits and answers their number (R138). -/
theorem emitRule_code (ho : s.OPEN = true) (hlen : (s.code sym).len ≠ 0) :
    emitRule sym s = .done (.val32 ((s.code sym).len.setWidth 32)) (s.putBitSeq (s.code sym).path) := by
  rw [emitRule, if_neg (ne_false_of_eq_true ho), if_neg hlen]

theorem CodeEntry.length_path (c : CodeEntry) : c.path.length = c.len.toNat := length_msbFirst _ _

/-- A code's length as a response (R65). -/
theorem responseWord_len (len : BitVec 8) : responseWord 0 0 (len.setWidth 32) = BitVec.ofNat 64 len.toNat := by
  rw [← BitVec.ofNat_toNat, responseWord_count _ (by omega)]

end emit

/-- Settles O45: the rule's three cases, and what accepting the code's bits writes. -/
theorem emitWritesTheCode : Obligations.EmitWritesTheCode := by
  refine fun s sym hf => ⟨fun ho => exec_of_raised (.emit sym) hf (emitRule_closed ho),
    fun ho hlen => exec_of_raised (.emit sym) hf (emitRule_noCode ho hlen), fun ho hlen => ?_⟩
  refine ⟨_, exec_of_done (.emit sym) hf (emitRule_code ho hlen), s.acceptedBits_putBitSeq _, ?_,
    fun hclean => hclean.putBitSeq _, s.putBitSeq_OUT _, ?_⟩
  · rw [State.respond_NBITS, s.putBitSeq_NBITS_val, CodeEntry.length_path]
  · rw [s.putBitSeq_frame, ← responseWord_len]
    rfl

/-- A chunk is 32 bits of the pattern (R136). -/
theorem CodeEntry.chunk_toNat (c : CodeEntry) (chunk : BitVec 3) :
    (c.chunk chunk).toNat = c.bits.toNat / 2 ^ (32 * chunk.toNat) % 2 ^ 32 := by
  have hbits : c.bits.toNat % 2 ^ 256 = c.bits.toNat :=
    Nat.mod_eq_of_lt (c.bits.isLt.trans (Nat.pow_lt_pow_right (by decide) (by decide)))
  rw [CodeEntry.chunk, BitVec.extractLsb'_toNat, BitVec.toNat_setWidth, hbits, Nat.shiftRight_eq_div_pow]

/-- Settles O44: the rule completes in every state, with the entry's length and chunk. -/
theorem codeRdReadsAChunk : Obligations.CodeRdReadsAChunk := by
  intro s sym chunk
  refine ⟨responseWord 0 ((s.code sym).len.setWidth 24) ((s.code sym).chunk chunk),
    exec_always (i := .codeRd sym chunk) s (.inr rfl), respCode_responseWord _ _ _, ?_, ?_⟩
  · rw [respAux_responseWord, BitVec.toNat_setWidth_of_le (by decide)]
  · rw [respVal_responseWord, CodeEntry.chunk_toNat]

end Sys2Proof.Machine

namespace Sys2Proof.Machine

/-! ## The bit writer (spec/45_bit_writer.md R145 to R154) -/

section writer
variable {s t : State} {value : Byte} {width : BitVec 16} {bits more : List Bool} {cmds cmds' : List Instr}

/-! ### The rules of OPEN, WBITS and CLOSE -/

theorem openRule_open (ho : s.OPEN = true) : openRule s = .raised .sequence s := if_pos ho

theorem openRule_closed (ho : s.OPEN = false) : openRule s = .done (.val32 0) (s.clearWriter true) :=
  if_neg (by simp [ho])

theorem wbitsRule_closed (ho : s.OPEN = false) : wbitsRule value width s = .raised .sinkClosed s := if_pos ho

theorem wbitsRule_badWidth (ho : s.OPEN = true) (hw : width.toNat = 0 ∨ 8 < width.toNat) :
    wbitsRule value width s = .raised .badWidth s := by
  rw [wbitsRule, if_neg (ne_false_of_eq_true ho), if_pos hw]

/-- With an open sink and a width of 1 to 8 WBITS accepts the low `width` bits (R146, R150). -/
theorem wbitsRule_granule (ho : s.OPEN = true) (hpos : 1 ≤ width.toNat) (hle : width.toNat ≤ 8) :
    wbitsRule value width s = .done (.val32 0) (s.putBitSeq (msbFirst width.toNat value)) := by
  rw [wbitsRule, if_neg (ne_false_of_eq_true ho), if_neg (by omega), State.putBits]

theorem closeRule_closed (ho : s.OPEN = false) (pad : Bool) : closeRule pad s = .raised .sinkClosed s := if_pos ho

theorem closeRule_open (ho : s.OPEN = true) (pad : Bool) :
    closeRule pad s = .done (.val32 0) ((s.flushSink pad).clearWriter false) :=
  if_neg (ne_false_of_eq_true ho)

theorem resetRule_open (ho : s.OPEN = true) (pad : Bool) :
    resetRule pad s = .done (.val32 0) (s.flushSink pad).release := by
  rw [resetRule, if_pos ho]

theorem exec_openSink (hf : s.FAULT = 0) (ho : s.OPEN = false) :
    exec .openSink s = .next ((s.clearWriter true).respond 0 0 0) :=
  exec_of_done .openSink hf (openRule_closed ho)

theorem exec_wbits (hf : s.FAULT = 0) (ho : s.OPEN = true) (hpos : 1 ≤ width.toNat) (hle : width.toNat ≤ 8) :
    exec (.wbits value width) s = .next ((s.putBitSeq (msbFirst width.toNat value)).respond 0 0 0) :=
  exec_of_done (.wbits value width) hf (wbitsRule_granule ho hpos hle)

theorem exec_closeSink (hf : s.FAULT = 0) (ho : s.OPEN = true) :
    exec .closeSink s = .next (((s.flushSink Config.padBit).clearWriter false).respond 0 0 0) :=
  exec_of_done .closeSink hf (closeRule_open ho _)

theorem exec_reset_open (ho : s.OPEN = true) :
    exec .reset s = .next ((s.flushSink Config.padBit).release.respond 0 0 0) := by
  rw [exec_always s (.inl rfl), State.runAlways, ruleOf, resetRule_open ho]
  rfl

/-! ### The register OPEN -/

/-- A command other than OPEN, CLOSE and RESET leaves OPEN as it is (R149). -/
theorem exec_keeps_OPEN {i : Instr} (h : exec i s = .next t) (hopen : i ≠ .openSink) (hclose : i ≠ .closeSink)
    (hreset : i ≠ .reset) : t.OPEN = s.OPEN := by
  obtain ⟨u, _, _, hu, rfl⟩ := exec_frame h
  cases i with
  | openSink => exact absurd rfl hopen
  | closeSink => exact absurd rfl hclose
  | reset => exact absurd rfl hreset
  | rdreg _ | nodeRd _ _ | codeRd _ _ | srcerr => obtain rfl : u = s := hu; rfl
  | freqWr _ _ | mktab => obtain ⟨_, rfl⟩ := hu; rfl
  | enq _ | deq => obtain ⟨_, _, rfl⟩ := hu; rfl
  | seed | enql _ _ | merge => obtain ⟨_, _, _, rfl⟩ := hu; rfl
  | build => obtain ⟨_, _, _, rfl⟩ | ⟨_, _, _, _, _, _, rfl⟩ := hu <;> rfl
  | ser | emit _ | wbits _ _ => obtain ⟨_, _, _, _, rfl⟩ := hu; rfl

/-- OPEN leaves no open sink closed (R148). -/
theorem exec_openSink_OPEN (h : exec .openSink s = .next t) (ho : s.OPEN = true) : t.OPEN = true := by
  obtain ⟨u, _, _, hu, rfl⟩ := exec_leaves (P := fun u => u.OPEN = true) h (fun _ => ho) (openRule_leaves ho rfl)
  exact hu

/-- CLOSE leaves no closed sink open (R152). -/
theorem exec_closeSink_OPEN (h : exec .closeSink s = .next t) (ho : s.OPEN = false) : t.OPEN = false := by
  obtain ⟨u, _, _, hu, rfl⟩ := exec_leaves (P := fun u => u.OPEN = false) h (fun _ => ho) (closeRule_leaves ho rfl)
  exact hu

end writer

/-- Settles O46: the two cases of OPEN's rule. -/
theorem openStartsAScope : Obligations.OpenStartsAScope := by
  refine fun s hf => ⟨fun ho => ?_, fun ho => ?_⟩
  · have hword : responseWord 0x11 0 0 = 0x1100000000000000 := by decide
    rw [exec_of_raised .openSink hf (openRule_open ho), State.afterFault, if_pos hf, ← hword]
    rfl
  · rw [exec_openSink hf ho, State.respond, responseWord_zero]
    rfl

/-- Settles O19: OPEN only opens, CLOSE and RESET only close, and every other command leaves OPEN. -/
theorem sinkIsOpenedOnlyByOpen : Obligations.SinkIsOpenedOnlyByOpen := by
  refine ⟨fun i s t h => ?_, ?_⟩
  · by_cases hopen : i = .openSink
    · subst hopen
      exact ⟨fun _ _ => rfl, fun ho ht => by simp [exec_openSink_OPEN h ho] at ht⟩
    by_cases hclose : i = .closeSink
    · subst hclose
      exact ⟨fun ho ht => by simp [exec_closeSink_OPEN h ho] at ht, fun _ _ => .inl rfl⟩
    by_cases hreset : i = .reset
    · subst hreset
      obtain ⟨out, -, rfl⟩ := exec_reset h
      exact ⟨fun _ ht => absurd ht Bool.false_ne_true, fun _ _ => .inr rfl⟩
    · rw [exec_keeps_OPEN h hopen hclose hreset]
      exact ⟨fun ho ht => by simp [ho] at ht, fun ho ht => by simp [ho] at ht⟩
  · rintro i s (rfl | ⟨sym, rfl⟩ | ⟨value, width, rfl⟩) ho hf
    · exact exec_of_raised .ser hf (serRule_closed ho _)
    · exact exec_of_raised (.emit sym) hf (emitRule_closed ho)
    · exact exec_of_raised (.wbits value width) hf (wbitsRule_closed ho)

end Sys2Proof.Machine

namespace Sys2Proof.Machine

/-! ## Sequences of WBITS (spec/45_bit_writer.md R151) -/

section granules
variable {s t : State} {bits more : List Bool} {cmds cmds' : List Instr}

theorem execAll_cons {i : Instr} (h : exec i s = .next t) : execAll (i :: cmds) s = execAll cmds t := by
  rw [execAll, h]

theorem execAll_append (h : execAll cmds s = .next t) : execAll (cmds ++ cmds') s = execAll cmds' t := by
  induction cmds generalizing s with
  | nil => rw [Host.Outcome.next.inj h, List.nil_append]
  | cons i rest ih =>
    cases he : exec i s with
    | next u =>
      simp only [execAll, he] at h
      simp only [List.cons_append, execAll, he, ih h]
    | fault why => simp [execAll, he] at h
    | refused why => simp [execAll, he] at h

/-- The state with other responses given. -/
def State.withResponses (s : State) (rsp : List Word) : State := { s with rsp := rsp }

@[simp] theorem State.withResponses_OPEN (s : State) (rsp : List Word) : (s.withResponses rsp).OPEN = s.OPEN := rfl
@[simp] theorem State.withResponses_FAULT (s : State) (rsp : List Word) : (s.withResponses rsp).FAULT = s.FAULT := rfl

/-- What accepting a bit does is independent of the responses. -/
theorem State.putBit_withResponses (s : State) (rsp : List Word) (b : Bool) :
    (s.withResponses rsp).putBit b = (s.putBit b).withResponses rsp := by
  by_cases h : s.NBITS.val < 7 <;> simp [putBit, withResponses, h]

theorem State.putBitSeq_withResponses (s : State) (rsp : List Word) (bits : List Bool) :
    (s.withResponses rsp).putBitSeq bits = (s.putBitSeq bits).withResponses rsp := by
  induction bits generalizing s with
  | nil => rfl
  | cons b rest ih => rw [putBitSeq_cons, putBit_withResponses, ih, putBitSeq_cons]

/-- In every open sink without a fault the commands complete and do, responses apart, what accepting `bits` does. -/
def AcceptBits (cmds : List Instr) (bits : List Bool) : Prop :=
  ∀ s : State, s.FAULT = 0 → s.OPEN = true → ∃ rsp, execAll cmds s = .next ((s.putBitSeq bits).withResponses rsp)

theorem acceptBits_nil : AcceptBits [] [] := fun s _ _ => ⟨s.rsp, rfl⟩

theorem AcceptBits.append (h : AcceptBits cmds bits) (h' : AcceptBits cmds' more) :
    AcceptBits (cmds ++ cmds') (bits ++ more) := by
  intro s hf ho
  obtain ⟨rsp, hfirst⟩ := h s hf ho
  obtain ⟨rsp', hthen⟩ := h' ((s.putBitSeq bits).withResponses rsp) (by simpa using hf) (by simpa using ho)
  rw [State.putBitSeq_withResponses, ← State.putBitSeq_append] at hthen
  exact ⟨rsp', (execAll_append hfirst).trans hthen⟩

/-- A WBITS of 1 to 8 bits accepts the low bits of its value (R150). -/
theorem acceptBits_wbits (value : Byte) {width : BitVec 16} (hpos : 1 ≤ width.toNat) (hle : width.toNat ≤ 8) :
    AcceptBits [.wbits value width] (msbFirst width.toNat value) := by
  intro s hf ho
  exact ⟨_, execAll_cons (exec_wbits hf ho hpos hle)⟩

/-- The WBITS of a tree accept its postorder bits (R122, R151). -/
theorem CodeTree.acceptBits (tr : CodeTree) : AcceptBits tr.wbits tr.postorder := by
  induction tr with
  | leaf c =>
    exact (acceptBits_wbits 1 (width := 1) (by decide) (by decide)).append
      (acceptBits_wbits c (width := 8) (by decide) (by decide))
  | node l r ihl ihr =>
    exact (ihl.append ihr).append (acceptBits_wbits 0 (width := 1) (by decide) (by decide))

/-- Up to 8 bits are read back from the byte they make. -/
theorem msbFirst_byteOfBits (h : bits.length ≤ 8) : msbFirst bits.length (byteOfBits bits) = bits := by
  refine eq_of_bitsNumber_eq (length_msbFirst _ _) ?_
  have hlt := bitsNumber_lt bits
  have hbyte : bitsNumber bits < 2 ^ 8 := hlt.trans_le (Nat.pow_le_pow_right (by decide) h)
  rw [bitsNumber_msbFirst, byteOfBits, BitVec.toNat_ofNat, Nat.mod_eq_of_lt hbyte, Nat.mod_eq_of_lt hlt]

/-- The WBITS of slices of a bit sequence accept the sequence (R151). -/
theorem acceptBits_sliceGranules {slices : List (List Bool)} (h : GranuleSlices slices) :
    AcceptBits (sliceGranules slices) slices.flatten := by
  induction slices with
  | nil => exact acceptBits_nil
  | cons b rest ih =>
    obtain ⟨⟨hpos, hle⟩, hrest⟩ := List.forall_mem_cons.1 h
    have hwidth : (BitVec.ofNat 16 b.length).toNat = b.length := by rw [BitVec.toNat_ofNat]; omega
    have hb := acceptBits_wbits (byteOfBits b) (hwidth.symm ▸ hpos) (hwidth.symm ▸ hle)
    rw [hwidth, msbFirst_byteOfBits hle] at hb
    exact hb.append (ih hrest)

end granules

/-- Settles O41: SER and EMIT accept the bits that their WBITS accept. -/
theorem serAndEmitEqualWbits : Obligations.SerAndEmitEqualWbits := by
  refine ⟨fun s r tr hf ho hroot h hd => ?_, fun s sym slices hf ho hlen hslices hcode => ?_⟩
  · obtain ⟨rsp, hw⟩ := tr.acceptBits s hf ho
    exact ⟨_, _, exec_ser_tree hf ho hroot h hd, hw, rfl⟩
  · obtain ⟨rsp, hw⟩ := acceptBits_sliceGranules hslices s hf ho
    have hpath : slices.flatten = (s.code sym).path := hcode
    rw [hpath] at hw
    exact ⟨_, _, exec_of_done (.emit sym) hf (emitRule_code ho hlen), hw, rfl⟩

end Sys2Proof.Machine

namespace Sys2Proof.Machine

/-! ## The bits held in ACC (spec/45_bit_writer.md R145 to R147) -/

/-- The bits accepted that have not completed a byte (R27). -/
def State.heldBits (s : State) : List Bool := (msbFirst 8 s.ACC).take s.NBITS.val

/-- From a state in which OUT was `out` and no bit was held, `bits` have been accepted and nothing else has gone out. -/
def State.WrittenSince (out : List OutEvent) (bits : List Bool) (s : State) : Prop :=
  ∃ bytes : List Byte, s.OUT = out ++ bytes.map .byte ∧ bits = bytes.flatMap (msbFirst 8) ++ s.heldBits

section held
variable {s t : State} {out : List OutEvent} {bits : List Bool}

theorem State.length_heldBits (s : State) : s.heldBits.length = s.NBITS.val := by
  simp [heldBits, Nat.le_of_lt s.NBITS.isLt]

theorem State.WrittenSince.acceptedBits (h : s.WrittenSince out bits) :
    s.acceptedBits = (scopeBytes out).flatMap (msbFirst 8) ++ bits := by
  obtain ⟨bytes, hout, rfl⟩ := h
  rw [State.acceptedBits, hout, scopeBytes_append_bytes, List.flatMap_append, List.append_assoc, heldBits]

theorem State.writtenSince_self (s : State) : s.WrittenSince s.OUT s.heldBits := ⟨[], by simp, rfl⟩

/-- OPEN starts a scope in which no bit has been accepted (R148). -/
theorem State.writtenSince_opened (s : State) : ((s.clearWriter true).respond 0 0 0).WrittenSince s.OUT [] :=
  ⟨[], by simp, by simp [heldBits]⟩

/-- OUT, ACC and NBITS tell what has been accepted. -/
theorem State.WrittenSince.congr (h : s.WrittenSince out bits) (hout : t.OUT = s.OUT) (hacc : t.ACC = s.ACC)
    (hnbits : t.NBITS = s.NBITS) : t.WrittenSince out bits := by
  rwa [WrittenSince, heldBits, hout, hacc, hnbits]

theorem State.WrittenSince.withResponses (h : s.WrittenSince out bits) (rsp : List Word) :
    (s.withResponses rsp).WrittenSince out bits := h.congr rfl rfl rfl

/-- Bits accepted come after those accepted before (R147). -/
theorem State.WrittenSince.putBitSeq (h : s.WrittenSince out bits) (more : List Bool) :
    (s.putBitSeq more).WrittenSince out (bits ++ more) := by
  obtain ⟨bytes, hout, hbits⟩ := id h
  obtain ⟨bytes', hout'⟩ := s.putBitSeq_OUT more
  have hnew : (s.putBitSeq more).WrittenSince out ((bytes ++ bytes').flatMap (msbFirst 8) ++ (s.putBitSeq more).heldBits) :=
    ⟨bytes ++ bytes', by rw [hout', hout, List.map_append, List.append_assoc], rfl⟩
  have hacc := s.acceptedBits_putBitSeq more
  rw [hnew.acceptedBits, h.acceptedBits, List.append_assoc, List.append_cancel_left_eq] at hacc
  rwa [hacc] at hnew

/-- The held bits are the top `NBITS` bits of ACC (R27). -/
theorem State.bitsNumber_heldBits (s : State) : bitsNumber s.heldBits = s.ACC.toNat / 2 ^ (8 - s.NBITS.val) := by
  have hk := s.NBITS.isLt
  have hheld : s.heldBits = msbFirst s.NBITS.val (s.ACC >>> (8 - s.NBITS.val)) :=
    List.ext_getElem (by simp [length_heldBits]) fun i hi _ => by
      rw [length_heldBits] at hi
      simp only [heldBits, List.getElem_take, getElem_msbFirst, BitVec.getLsbD_ushiftRight]
      congr 1
      omega
  rw [hheld, bitsNumber_msbFirst, BitVec.toNat_ushiftRight, Nat.shiftRight_eq_div_pow, Nat.mod_eq_of_lt]
  rw [Nat.div_lt_iff_lt_mul (Nat.two_pow_pos _), ← Nat.pow_add, Nat.add_sub_of_le hk.le]
  exact s.ACC.isLt

/-- Shifting down and up again clears the low positions. -/
theorem getLsbD_ushiftRight_shiftLeft (v : Byte) (n : ℕ) {i : ℕ} (hi : i < 8) :
    ((v >>> n) <<< n).getLsbD i = if i < n then false else v.getLsbD i := by
  rw [BitVec.getLsbD_shiftLeft, BitVec.getLsbD_ushiftRight]
  by_cases hlow : i < n
  · simp [hlow]
  · simp [hlow, hi, Nat.add_sub_cancel' (not_lt.1 hlow)]

/-- Where the unused positions of ACC are 0, clearing them changes nothing (R31 item 8). -/
theorem State.AccClean.shifted (h : s.AccClean) : (s.ACC >>> (8 - s.NBITS.val)) <<< (8 - s.NBITS.val) = s.ACC := by
  refine BitVec.eq_of_getLsbD_eq fun i hi => ?_
  rw [getLsbD_ushiftRight_shiftLeft _ _ hi]
  split
  · exact (h i ‹_›).symm
  · rfl

/-- ACC holds the held bits left-aligned (R27). -/
theorem State.AccClean.ACC_toNat (h : s.AccClean) : s.ACC.toNat = bitsNumber s.heldBits * 2 ^ (8 - s.NBITS.val) := by
  have hle : s.ACC.toNat / 2 ^ (8 - s.NBITS.val) * 2 ^ (8 - s.NBITS.val) < 2 ^ 8 :=
    (Nat.div_mul_le_self _ _).trans_lt s.ACC.isLt
  conv_lhs => rw [← h.shifted]
  rw [BitVec.toNat_shiftLeft, BitVec.toNat_ushiftRight, Nat.shiftRight_eq_div_pow, Nat.shiftLeft_eq, Nat.mod_eq_of_lt hle,
    s.bitsNumber_heldBits]

theorem length_flatMap_msbFirst (bytes : List Byte) : (bytes.flatMap (msbFirst 8)).length = 8 * bytes.length := by
  simp [List.length_flatMap, Nat.mul_comm]

/-- With k bits held and w accepted, k + w < 8, all are held (R146). -/
theorem State.AccClean.putBitSeq_short (h : s.AccClean) (hlt : s.NBITS.val + bits.length < 8) :
    (s.putBitSeq bits).OUT = s.OUT ∧
    (s.putBitSeq bits).ACC.toNat = bitsNumber (s.heldBits ++ bits) * 2 ^ (8 - (s.NBITS.val + bits.length)) := by
  obtain ⟨bytes, hout, hbits⟩ := s.writtenSince_self.putBitSeq bits
  have hlen := congrArg List.length hbits
  rw [List.length_append, List.length_append, length_flatMap_msbFirst, s.length_heldBits] at hlen
  obtain rfl : bytes = [] := List.length_eq_zero_iff.1 (by omega)
  refine ⟨by simpa using hout, ?_⟩
  rw [(h.putBitSeq bits).ACC_toNat, s.putBitSeq_NBITS_val, Nat.mod_eq_of_lt hlt, hbits, List.flatMap_nil, List.nil_append]

/-- With k bits held and w ≤ 8 accepted, 8 ≤ k + w, the first 8 go out as a byte and the rest are held (R146). -/
theorem State.AccClean.putBitSeq_byte (h : s.AccClean) (hle : bits.length ≤ 8) (hge : 8 ≤ s.NBITS.val + bits.length) :
    (s.putBitSeq bits).OUT = s.OUT ++
      [.byte (BitVec.ofNat 8 (bitsNumber (s.heldBits ++ bits) / 2 ^ (s.NBITS.val + bits.length - 8)))] ∧
    (s.putBitSeq bits).ACC.toNat = bitsNumber (s.heldBits ++ bits) % 2 ^ (s.NBITS.val + bits.length - 8) *
      2 ^ (16 - (s.NBITS.val + bits.length)) := by
  have hrest : (s.putBitSeq bits).heldBits.length = s.NBITS.val + bits.length - 8 := by
    have hk := s.NBITS.isLt
    rw [length_heldBits, s.putBitSeq_NBITS_val]
    omega
  obtain ⟨bytes, hout, hbits⟩ := s.writtenSince_self.putBitSeq bits
  have hlen := congrArg List.length hbits
  rw [List.length_append, List.length_append, length_flatMap_msbFirst, s.length_heldBits, hrest] at hlen
  obtain ⟨b, rfl⟩ : ∃ b, bytes = [b] := List.length_eq_one_iff.1 (by omega)
  have hlow := bitsNumber_lt (s.putBitSeq bits).heldBits
  rw [hbits, List.flatMap_singleton, bitsNumber_append, bitsNumber_msbFirst, Nat.mod_eq_of_lt b.isLt, ← hrest,
    Nat.add_mul_div_left _ _ (Nat.two_pow_pos _), Nat.div_eq_of_lt hlow, Nat.zero_add, BitVec.ofNat_toNat,
    BitVec.setWidth_eq, Nat.add_mul_mod_self_left, Nat.mod_eq_of_lt hlow]
  refine ⟨hout, ?_⟩
  rw [(h.putBitSeq bits).ACC_toNat, ← length_heldBits, hrest]
  congr 2
  omega

end held

/-- Settles O47: the rule's cases; T is the number of the held and the accepted bits, cut after 8 of them where there are
so many. -/
theorem wbitsAcceptsAGranule : Obligations.WbitsAcceptsAGranule := by
  refine fun s value width hf => ⟨fun ho => exec_of_raised (.wbits value width) hf (wbitsRule_closed ho),
    fun ho hw => exec_of_raised (.wbits value width) hf (wbitsRule_badWidth ho hw), ?_⟩
  rintro k w T ho rfl hpos hle rfl hT hclean
  have hlen : (msbFirst width.toNat value).length = width.toNat := length_msbFirst _ _
  have hnum : T = bitsNumber (s.heldBits ++ msbFirst width.toNat value) := by
    rw [hT, bitsNumber_append, bitsNumber_msbFirst, hlen, s.bitsNumber_heldBits, Nat.add_comm, Nat.mul_comm]
  have hshort := hclean.putBitSeq_short (bits := msbFirst width.toNat value)
  have hbyte := hclean.putBitSeq_byte (bits := msbFirst width.toNat value)
  have hnbits := s.putBitSeq_NBITS_val (msbFirst width.toNat value)
  rw [hlen, ← hnum] at hshort hbyte
  rw [hlen] at hnbits
  refine ⟨_, exec_wbits hf ho hpos hle, s.acceptedBits_putBitSeq _, hnbits, hclean.putBitSeq _, hshort, hbyte hle, ?_⟩
  rw [s.putBitSeq_frame, State.respond, responseWord_zero]

end Sys2Proof.Machine

namespace Sys2Proof.Machine

/-! ## The end of a scope (spec/45_bit_writer.md R152, R154) -/

section flush
variable {s t : State} {out : List OutEvent} {bits : List Bool}

/-! ### The last byte -/

theorem getLsbD_foldl_setBit (v : Byte) (pad : Bool) {n : ℕ} (hn : n ≤ 8) (i : ℕ) :
    ((List.range n).foldl (fun acc j => setBit acc j pad) v).getLsbD i = if i < n then pad else v.getLsbD i := by
  induction n with
  | zero => rfl
  | succ n ih =>
    rw [List.range_succ, List.foldl_append, List.foldl_cons, List.foldl_nil, getLsbD_setBit _ hn, ih (by omega)]
    by_cases hlt : i < n
    · simp [hlt, Nat.lt_succ_of_lt hlt]
    · by_cases heq : i = n
      · simp [heq]
      · simp [hlt, heq, show ¬ i < n + 1 by omega]

/-- The last byte's bits are the held ones and then the pad bit (R152). -/
theorem State.getLsbD_paddedAcc (pad : Bool) (s : State) (i : ℕ) :
    (s.paddedAcc pad).getLsbD i = if i < 8 - s.NBITS.val then pad else s.ACC.getLsbD i :=
  getLsbD_foldl_setBit s.ACC pad (Nat.sub_le _ _) i

/-- With PAD_BIT = 0 the positions below the held bits are cleared (R152). -/
theorem State.paddedAcc_false (s : State) :
    s.paddedAcc false = (s.ACC >>> (8 - s.NBITS.val)) <<< (8 - s.NBITS.val) :=
  BitVec.eq_of_getLsbD_eq fun i hi => by rw [getLsbD_paddedAcc, getLsbD_ushiftRight_shiftLeft _ _ hi]

theorem State.flushSink_OUT (s : State) (pad : Bool) : (s.flushSink pad).OUT =
    s.OUT ++ (if s.NBITS.val = 0 then [] else [.byte (s.paddedAcc pad)]) ++ [.eos] := by
  unfold flushSink
  by_cases h : s.NBITS = 0
  · simp [h]
  · have hne : s.NBITS.val ≠ 0 := fun e => h (Fin.ext e)
    simp [h, hne]

/-! ### Bits cut into bytes -/

theorem packBytes_append_bytes (pad : Bool) (bytes : List Byte) (bits : List Bool) :
    packBytes pad (bytes.flatMap (msbFirst 8) ++ bits) = bytes ++ packBytes pad bits := by
  induction bytes with
  | nil => rfl
  | cons b rest ih =>
    have hb : packBytes pad (msbFirst 8 b ++ (rest.flatMap (msbFirst 8) ++ bits)) =
        byteOfBits (msbFirst 8 b) :: packBytes pad (rest.flatMap (msbFirst 8) ++ bits) := rfl
    rw [List.flatMap_cons, List.append_assoc, hb, byteOfBits_msbFirst, ih, List.cons_append]

theorem packBytes_short (pad : Bool) (hpos : bits ≠ []) (hlt : bits.length < 8) :
    packBytes pad bits = [byteOfBits ((bits ++ List.replicate 8 pad).take 8)] := by
  unfold packBytes
  split
  · exact absurd rfl hpos
  · simp only [List.length_cons] at hlt; omega
  · rfl

/-- B bits give ⌈B / 8⌉ bytes (R154). -/
theorem length_packBytes (pad : Bool) (bits : List Bool) : (packBytes pad bits).length = (bits.length + 7) / 8 := by
  induction bits using packBytes.induct with
  | case1 => rfl
  | case2 b7 b6 b5 b4 b3 b2 b1 b0 rest ih => simp only [packBytes, List.length_cons, ih]; omega
  | case3 short hne hshort =>
    have hlt : short.length < 8 := by
      by_contra hge
      have hfirst := msbFirst_byteOfBits (bits := short.take 8) (by simp)
      rw [List.length_take_of_le (not_lt.1 hge)] at hfirst
      exact hshort _ _ _ _ _ _ _ _ (short.drop 8) (by rw [← List.take_append_drop 8 short, ← hfirst]; rfl)
    have hpos := List.length_pos_of_ne_nil hne
    rw [packBytes_short pad hne hlt, List.length_singleton]
    omega

/-- The held bits cut into bytes are the last byte of the scope, or nothing (R152). -/
theorem State.packBytes_heldBits (s : State) (pad : Bool) :
    packBytes pad s.heldBits = if s.NBITS.val = 0 then [] else [s.paddedAcc pad] := by
  have hlen := s.length_heldBits
  have hk := s.NBITS.isLt
  by_cases h : s.NBITS.val = 0
  · rw [if_pos h, List.length_eq_zero_iff.1 (hlen.trans h), packBytes]
  · have hbits : (s.heldBits ++ List.replicate 8 pad).take 8 = msbFirst 8 (s.paddedAcc pad) := by
      refine List.ext_getElem (by simp) fun i hi _ => ?_
      have hi8 : i < 8 := by simp at hi; omega
      rw [List.getElem_take, getElem_msbFirst, getLsbD_paddedAcc]
      by_cases hik : i < s.NBITS.val
      · rw [List.getElem_append_left (by omega), if_neg (by omega)]
        simp [heldBits]
      · rw [List.getElem_append_right (by omega), if_pos (by omega), List.getElem_replicate]
    rw [if_neg h, packBytes_short pad (List.ne_nil_of_length_pos (by omega)) (by omega), hbits, byteOfBits_msbFirst]

/-- The flush leaves the bits accepted since OUT was `out` as bytes, the last one padded, and EOS (R154, R161). -/
theorem State.WrittenSince.flushSink_OUT (h : s.WrittenSince out bits) (pad : Bool) :
    (s.flushSink pad).OUT = out ++ (packBytes pad bits).map .byte ++ [.eos] := by
  obtain ⟨bytes, hout, rfl⟩ := h
  rw [State.flushSink_OUT, hout, packBytes_append_bytes, s.packBytes_heldBits]
  split <;> simp

/-- CLOSE and RESET end an open scope with the flush (R152, R161). -/
theorem State.WrittenSince.scope_ends (h : s.WrittenSince out bits) (ho : s.OPEN = true) :
    (s.FAULT = 0 → ∃ t, exec .closeSink s = .next t ∧
      t.OUT = out ++ (packBytes Config.padBit bits).map .byte ++ [.eos]) ∧
    ∃ t, exec .reset s = .next t ∧ t.OUT = out ++ (packBytes Config.padBit bits).map .byte ++ [.eos] :=
  ⟨fun hf => ⟨_, exec_closeSink hf ho, h.flushSink_OUT _⟩, _, exec_reset_open ho, h.flushSink_OUT _⟩

/-! ### The commands of a scope -/

/-- The sink is open, and since OUT was `out` only accepted bits have gone out. -/
def State.InScope (out : List OutEvent) (s : State) : Prop := s.OPEN = true ∧ ∃ bits, s.WrittenSince out bits

/-- A command other than CLOSE and RESET keeps the scope (R149, R40). -/
theorem exec_keeps_inScope {i : Instr} (hs : s.InScope out) (h : exec i s = .next t) (hclose : i ≠ .closeSink)
    (hreset : i ≠ .reset) : t.InScope out := by
  obtain ⟨ho, bits, hbits⟩ := id hs
  have hput : s.OPEN = true → ∀ more, (s.putBitSeq more).InScope out :=
    fun _ more => ⟨by simpa using ho, _, hbits.putBitSeq more⟩
  have hrule : (ruleOf i s).Leaves (State.InScope out) := by
    cases i with
    | closeSink => exact absurd rfl hclose
    | reset => exact absurd rfl hreset
    | ser => exact serRule_leaves hs hput _
    | emit sym => exact emitRule_leaves hs hput sym
    | wbits value width => exact wbitsRule_leaves hs hput value width
    | openSink => rw [ruleOf, openRule_open ho]; exact hs
    | _ =>
      refine (rule_frame _ s).mono fun u hu => ?_
      have hw := hu.writesOnly (by simp)
      obtain ⟨hopen, hacc, hnbits⟩ := by simpa using hw.writer
      exact ⟨hopen.trans ho, bits, hbits.congr (by simpa using hw.OUT) hacc hnbits⟩
  obtain ⟨u, _, _, ⟨hou, bits', hu⟩, rfl⟩ := exec_leaves h (fun _ => hs) hrule
  exact ⟨hou, bits', hu⟩

theorem execAll_keeps_inScope {cmds : List Instr} (hs : s.InScope out)
    (hcmds : ∀ i ∈ cmds, i ≠ .closeSink ∧ i ≠ .reset) (h : execAll cmds s = .next t) : t.InScope out := by
  induction cmds generalizing s with
  | nil => exact Host.Outcome.next.inj h ▸ hs
  | cons i rest ih =>
    obtain ⟨⟨hclose, hreset⟩, hrest⟩ := List.forall_mem_cons.1 hcmds
    cases he : exec i s with
    | next u =>
      simp only [execAll, he] at h
      exact ih (exec_keeps_inScope hs he hclose hreset) hrest h
    | fault why => simp [execAll, he] at h
    | refused why => simp [execAll, he] at h

end flush

/-- Settles O48: CLOSE's rule, and the flush with PAD_BIT = 0. -/
theorem closeFlushesAndEndsTheScope : Obligations.CloseFlushesAndEndsTheScope := by
  refine fun s hf => ⟨fun ho => exec_of_raised .closeSink hf (closeRule_closed ho _), fun ho => ?_⟩
  have hexec := exec_closeSink hf ho
  refine ⟨_, hexec, ⟨hexec, by simp, by simpa using hf⟩, ?_, State.AccClean.shifted, ?_⟩
  · rw [← s.paddedAcc_false]
    exact s.flushSink_OUT false
  · obtain ⟨out, -, hout⟩ := s.flushSink_out Config.padBit
    rw [hout, State.respond, responseWord_zero]
    rfl

/-- Settles O49: since OPEN the writer has accepted the scope's bits (`State.WrittenSince`), and the flush that ends the
scope leaves them as bytes. -/
theorem scopeIsTheAcceptedBitsInBytes : Obligations.ScopeIsTheAcceptedBitsInBytes := by
  refine ⟨fun s slices hf ho hslices => ?_, fun s m cmds hf ho hcmds h => ?_, fun s before ho hout => ?_⟩
  · obtain ⟨rsp, hgranules⟩ := acceptBits_sliceGranules hslices ((s.clearWriter true).respond 0 0 0) hf rfl
    have hwritten := (s.writtenSince_opened.putBitSeq slices.flatten).withResponses rsp
    obtain ⟨t, hclose, hout⟩ := (hwritten.scope_ends (by simp)).1 (by simpa using hf)
    refine ⟨t, ?_, hout, length_packBytes _ _⟩
    rw [execAll_cons (exec_openSink hf ho), execAll_append hgranules, execAll_cons hclose, execAll]
  · rw [execAll_cons (exec_openSink hf ho)] at h
    obtain ⟨hom, bits, hbits⟩ := execAll_keeps_inScope ⟨rfl, [], s.writtenSince_opened⟩ hcmds h
    exact ⟨hom, bits, hbits.acceptedBits, length_packBytes _ _, hbits.scope_ends hom⟩
  · exact State.WrittenSince.scope_ends ⟨_, hout, rfl⟩ ho

end Sys2Proof.Machine

namespace Sys2Proof.Machine

/-! ## The system commands (spec/46_system.md R160 to R166) -/

section system
variable {before : Comparator} {s t : State} {i : Instr}

/-! ### Steps -/

/-- With nothing presented the block holds its state (R195, R202). -/
theorem step_idle (hhost : s.host = []) : step s = .next s := by
  simp only [step, State.nextPresented, hhost, State.idle]

/-- The platform's reset (R200). -/
theorem step_hardwareReset {rest : List HostEvent} (hhost : s.host = .hardwareReset :: rest) :
    step s = .next { s with host := rest }.hardwareReset := by
  simp only [step, State.nextPresented, hhost]

/-- A presented word that decodes to a command runs it (R160). -/
theorem step_command {w : Word} {rest : List HostEvent} (hhost : s.host = .command w :: rest)
    (hd : decode w = .instr i) : step s = exec i { s with host := rest } := by
  simp only [step, State.nextPresented, hhost, hd]

/-! ### RESET -/

/-- RESET leaves the reset state, but for OUT, which an open sink's flush extends, and the host's side (R161). -/
theorem exec_reset_eq (s : State) : exec .reset s =
    .next { State.reset with
      OUT := if s.OPEN then (s.flushSink Config.padBit).OUT else s.OUT, host := s.host, rsp := s.rsp ++ [0] } := by
  rw [exec_always s (.inl rfl), State.runAlways, ruleOf, resetRule, RuleResult.finish_done, Reply.val32, State.respond,
    responseWord_zero]
  cases s.OPEN with
  | true => simp [State.release]
  | false => rfl

@[simp] theorem State.freq_reset (sym : Byte) : State.reset.freq sym = 0 := by
  simp [State.freq, State.reset, Vector.get_eq_getElem]

@[simp] theorem State.code_reset (sym : Byte) : State.reset.code sym = ⟨0, 0⟩ := by
  simp [State.code, State.reset, CodeEntry.empty, Vector.get_eq_getElem]

theorem State.status_reset : State.reset.status = 0 := by decide

/-- A command other than RESET leaves a FAULT that is set (R161, R180). -/
theorem exec_keeps_faulted (h : exec i s = .next t) (hi : i ≠ .reset) (hf : s.FAULT ≠ 0) : t.FAULT = s.FAULT := by
  obtain ⟨-, _, _, _, -, -, hfault, -⟩ := oneResponseAndFirstFaultKept i s t h
  rw [hfault hi, if_neg hf]

/-! ### The read class -/

/-- The registers 0 to 5 have a view (R17). -/
theorem State.exists_view (s : State) {reg : BitVec 3} (h : reg.toNat ≤ 5) : ∃ v, s.view reg = some v := by
  unfold State.view
  interval_cases reg.toNat <;> exact ⟨_, rfl⟩

/-- Of the read class only NODE_RD raises (R163, R165, R136). -/
theorem readClass_raises {f : FaultKind} {u : State} (hw : i.wellFormed = true) (hc : i.readClass = true)
    (h : ruleOf i s = .raised f u) : ∃ id field, i = .nodeRd id field := by
  cases i with
  | nodeRd id field => exact ⟨id, field, rfl⟩
  | codeRd sym chunk => cases h
  | rdreg reg =>
    obtain ⟨v, hv⟩ := s.exists_view (of_decide_eq_true hw)
    rw [ruleOf, rdregRule, hv] at h
    cases h
  | _ => cases hc

/-- The rule of a command of the read class leaves the state as it is (R166). -/
theorem readClass_leaves (hc : i.readClass = true) (s : State) : (ruleOf i s).Leaves (· = s) := by
  have hframe := rule_frame i s
  cases i with
  | rdreg _ | nodeRd _ _ | codeRd _ _ => exact hframe
  | _ => cases hc

/-! ### NODE_RD -/

/-- R165: NODE_RD of an id at or above NEXT, or of 0x1FF, which is none. -/
theorem nodeRdRule_unallocated {b : BitVec 9} (h : s.NEXT.val ≤ b.toNat) (field : BitVec 1) :
    nodeRdRule b field s = .raised .badNode s := by
  unfold nodeRdRule nodeOperand
  by_cases hb : b.toNat < 511
  · simp [hb, h]
  · simp [hb]

/-- R165: NODE_RD of an allocated id. -/
theorem nodeRdRule_allocated {b : BitVec 9} {x : NodeId} {n : Node} (hx : x.val = b.toNat) (hlt : x.val < s.NEXT.val)
    (hn : s.slot x = some n) (field : BitVec 1) :
    nodeRdRule b field s = .done (.val32 (if field = 0 then n.frequency else nodeWord n)) s := by
  simp only [nodeRdRule, nodeOperand_eq_some hx, if_neg (not_le.2 hlt), hn]

/-- NODE_RD of an allocated id leaves everything but the response (R165, R166). -/
theorem exec_nodeRd {b : BitVec 9} {x : NodeId} {n : Node} (hx : x.val = b.toNat) (hlt : x.val < s.NEXT.val)
    (hn : s.slot x = some n) (field : BitVec 1) : exec (.nodeRd b field) s =
      .next { s with rsp := s.rsp ++ [responseWord 0 0 (if field = 0 then n.frequency else nodeWord n)] } := by
  show (nodeRdRule b field s).finish = _
  rw [nodeRdRule_allocated hx hlt hn]
  rfl

/-! The fields of the node word (30_encoding.md R65). -/

theorem nodeWord_leaf (n : Node) : (nodeWord n).extractLsb' 31 1 = flagBit n.children.isNone := by
  unfold nodeWord
  iterate 5 rw [BitVec.extractLsb'_append_eq_of_le (by decide)]
  exact BitVec.extractLsb'_eq_self

theorem nodeWord_reserved (n : Node) : (nodeWord n).extractLsb' 28 3 = 0 := by
  unfold nodeWord
  iterate 4 rw [BitVec.extractLsb'_append_eq_of_le (by decide)]
  exact extractLsb'_append_low _ _

theorem nodeWord_st (n : Node) : (nodeWord n).extractLsb' 26 2 = tagField n.st := by
  unfold nodeWord
  iterate 3 rw [BitVec.extractLsb'_append_eq_of_le (by decide)]
  exact extractLsb'_append_low _ _

theorem nodeWord_left (n : Node) : (nodeWord n).extractLsb' 17 9 = optNodeField (n.children.map Prod.fst) := by
  unfold nodeWord
  iterate 2 rw [BitVec.extractLsb'_append_eq_of_le (by decide)]
  exact extractLsb'_append_low _ _

theorem nodeWord_right (n : Node) : (nodeWord n).extractLsb' 8 9 = optNodeField (n.children.map Prod.snd) := by
  unfold nodeWord
  rw [BitVec.extractLsb'_append_eq_of_le (by decide)]
  exact extractLsb'_append_low _ _

theorem nodeWord_character (n : Node) : (nodeWord n).extractLsb' 0 8 = n.character := by
  unfold nodeWord
  exact extractLsb'_append_low _ _

/-- A node id fits its 9 bits. -/
theorem toNat_nodeField (x : NodeId) : (nodeField x).toNat = x.val := by
  rw [nodeField, BitVec.toNat_ofNat, Nat.mod_eq_of_lt (by omega)]

/-! ### Nothing stops -/

/-- A rule, or a part of one, completes or raises. -/
def RuleResult.Ends {α : Type} : RuleResult α → Prop
  | .done _ _ | .raised _ _ => True
  | .stuck _ => False

theorem RuleResult.Ends.andThen {α β : Type} {r : RuleResult α} {k : α → State → RuleResult β} (h : r.Ends)
    (hk : ∀ a u, r = .done a u → (k a u).Ends) : (r.andThen k).Ends := by
  cases r with
  | done a u => exact hk a u rfl
  | raised f u => trivial
  | stuck w => exact h

theorem RuleResult.Ends.ite {α : Type} {p : Prop} [Decidable p] {r r' : RuleResult α} (h : r.Ends) (h' : r'.Ends) :
    (if p then r else r').Ends := by
  split
  · exact h
  · exact h'

/-- A rule that completes or raises has a next state (R160). -/
theorem RuleResult.Ends.finish {r : RuleResult Reply} (h : r.Ends) : ∃ t, r.finish = .next t := by
  cases r with
  | done a u => exact ⟨_, rfl⟩
  | raised f u => exact ⟨_, rfl⟩
  | stuck w => exact h.elim

/-- A command whose rule completes or raises has a next state, which may be a refusal's. -/
theorem exec_next_of_ends (h : (ruleOf i s).Ends) : ∃ t, exec i s = .next t := by
  by_cases hi : i = .reset ∨ i.readClass = true
  · rw [exec_always s hi]
    exact h.finish
  · simp only [not_or, Bool.not_eq_true] at hi
    rw [exec_unlessFaulted s hi.1 hi.2]
    by_cases hf : s.FAULT = 0
    · rw [s.runUnlessFaulted_free _ hf]
      exact h.finish
    · exact ⟨_, s.runUnlessFaulted_faulted _ hf⟩

/-! ### The engine's operations, where every entry of the queue names a node -/

theorem State.QueueReadable.allocate_ends (hq : s.QueueReadable) (c : Byte) (f : Freq) (ch : Option (NodeId × NodeId)) :
    (s.allocate before c f ch).Ends := by
  by_cases hn : s.NEXT.val < 511
  · rw [State.allocate_readable s before c f ch hn hq]
    trivial
  · rw [State.allocate, dif_neg hn]
    trivial

theorem State.QueueReadable.newLeaf_ends (hq : s.QueueReadable) (sym : Byte) (f : Freq) :
    (s.newLeaf before sym f).Ends :=
  .ite trivial (.ite trivial (hq.allocate_ends sym f none))

theorem State.QueueReadable.consumed {x y : NodeId} {rest : List NodeId} (hq : s.QueueReadable)
    (hPQ : s.PQ = x :: y :: rest) : (s.consumed x y rest).QueueReadable := by
  intro e he
  have hmem : e ∈ rest := he
  exact (s.keepsNodes_consumed x y rest).isSome (hq e (by simp [hPQ, hmem]))

theorem State.QueueReadable.mergeStep_ends (hq : s.QueueReadable) : (s.mergeStep before).Ends := by
  unfold State.mergeStep
  split
  · rename_i x y rest hPQ
    obtain ⟨nx, hx⟩ := Option.isSome_iff_exists.1 (hq x (by simp [hPQ]))
    obtain ⟨ny, hy⟩ := Option.isSome_iff_exists.1 (hq y (by simp [hPQ]))
    simp only [hx, hy]
    exact .ite trivial (.ite trivial ((hq.consumed hPQ).allocate_ends _ _ _))
  · trivial

/-- BUILD's loop ends, for merge steps keep the arena's invariants (R109). -/
theorem State.ArenaInv.mergeAll_ends (hb : before.TieBreak) (rounds : Nat) :
    ∀ s : State, s.ArenaInv before → (s.mergeAll before rounds).Ends := by
  induction rounds with
  | zero => exact fun _ _ => trivial
  | succ rounds ih =>
    intro s hs
    by_cases hlen : 2 ≤ s.PQ.length
    · rw [State.mergeAll_long hlen]
      exact hs.queue.readable.mergeStep_ends.andThen fun p u hm => ih u (hs.mergeStep hb hm)
    · rw [State.mergeAll_short (by omega)]
      trivial

theorem rdregRule_ends (s : State) (reg : BitVec 3) : (rdregRule reg s).Ends := by
  unfold rdregRule
  split <;> trivial

theorem deqRule_ends (s : State) : (deqRule s).Ends := by
  cases hPQ : s.PQ with
  | nil => rw [deqRule_nil hPQ]; trivial
  | cons x rest => rw [deqRule_cons hPQ]; trivial

theorem State.drainRoot_ends (s : State) : s.drainRoot.Ends := by
  unfold State.drainRoot
  rcases s.dequeue_cases with ⟨-, hd⟩ | ⟨x, rest, -, hd⟩ <;> rw [hd] <;> trivial

/-- An id below NEXT names a node (R33). -/
theorem State.SlotsBelowNext.exists_node (h : s.SlotsBelowNext) {b : BitVec 9} (hb : b.toNat < s.NEXT.val) :
    ∃ (x : NodeId) (n : Node), x.val = b.toNat ∧ s.slot x = some n := by
  obtain ⟨n, hn⟩ := Option.isSome_iff_exists.1 ((h ⟨b.toNat, by omega⟩).2 hb)
  exact ⟨_, n, rfl, hn⟩

/-! ### The rules under the invariants -/

theorem State.Inv.arena (hs : s.Inv) : s.ArenaInv nodeBefore := (State.invFor_iff.1 hs).1

theorem State.Inv.readable (hs : s.Inv) : s.QueueReadable := hs.arena.queue.readable

theorem State.Inv.nodeRdRule_ends (hs : s.Inv) (b : BitVec 9) (field : BitVec 1) : (nodeRdRule b field s).Ends := by
  rcases le_or_gt s.NEXT.val b.toNat with hb | hb
  · rw [nodeRdRule_unallocated hb]
    trivial
  · obtain ⟨x, n, hx, hn⟩ := hs.slots.exists_node hb
    rw [nodeRdRule_allocated hx (hx ▸ hb) hn]
    trivial

theorem State.Inv.seedRule_ends (hs : s.Inv) : (seedRule nodeBefore s).Ends := by
  obtain ⟨t, -, -, hend⟩ := State.seedFrom_eq allSyms s 0 hs.readable
  rw [seedRule, hend]
  exact .ite trivial trivial

theorem State.Inv.enqRule_ends (hs : s.Inv) (b : BitVec 9) : (enqRule nodeBefore b s).Ends := by
  rcases le_or_gt s.NEXT.val b.toNat with hb | hb
  · rw [enqRule_unallocated hb]
    trivial
  · obtain ⟨x, n, hx, hn⟩ := hs.slots.exists_node hb
    rw [enqRule_allocated hx (hx ▸ hb) hn, State.enqueue_eq hn hs.readable]
    exact .ite trivial (.ite trivial trivial)

theorem State.Inv.buildRule_ends (hs : s.Inv) : (buildRule nodeBefore s).Ends :=
  .ite trivial (.ite trivial
    ((State.ArenaInv.mergeAll_ends nodeBefore_tieBreak _ s hs.arena).andThen fun _ u _ => u.drainRoot_ends))

/-- ROOT names a tree that fits the traversal stack (R30, R31). -/
theorem State.Inv.rootTree (hs : s.Inv) {r : NodeId} (hroot : s.ROOT = some r) :
    ∃ tr, s.TreeAt r tr ∧ tr.depth ≤ 255 := by
  obtain ⟨tr, htr, hd, -⟩ := treesAreShallow s r hs ((hs.slots r).1 (hs.rootAllocated r hroot))
  exact ⟨tr, htr, hd⟩

theorem State.Inv.serRule_ends (hs : s.Inv) : (serRule .post s).Ends := by
  cases ho : s.OPEN with
  | false => rw [serRule_closed ho]; trivial
  | true =>
    cases hroot : s.ROOT with
    | none => rw [serRule_noTree ho hroot]; trivial
    | some r =>
      obtain ⟨tr, htr, hd⟩ := hs.rootTree hroot
      rw [serRule_tree ho hroot htr hd]
      trivial

theorem State.Inv.mktabRule_ends (hs : s.Inv) : (mktabRule s).Ends := by
  cases hroot : s.ROOT with
  | none => rw [mktabRule_noTree hroot]; trivial
  | some r =>
    obtain ⟨tr, htr, hd⟩ := hs.rootTree hroot
    obtain ⟨table, htable, -⟩ := State.codeTable_tree hroot htr hd
    rw [mktabRule, htable]
    trivial

/-- Under the invariants every rule completes or raises. -/
theorem State.Inv.rule_ends (hs : s.Inv) (i : Instr) : (ruleOf i s).Ends := by
  cases i with
  | reset | freqWr _ _ | srcerr | codeRd _ _ => trivial
  | rdreg reg => exact rdregRule_ends s reg
  | nodeRd id field => exact hs.nodeRdRule_ends id field
  | seed => exact hs.seedRule_ends
  | enql sym freq => exact (hs.readable.newLeaf_ends sym freq).andThen fun _ _ _ => trivial
  | enq id => exact hs.enqRule_ends id
  | deq => exact deqRule_ends s
  | merge => exact hs.readable.mergeStep_ends.andThen fun _ _ _ => trivial
  | build => exact hs.buildRule_ends
  | ser => exact hs.serRule_ends
  | mktab => exact hs.mktabRule_ends
  | emit _ | wbits _ _ => exact .ite trivial (.ite trivial trivial)
  | openSink | closeSink => exact .ite trivial trivial

theorem State.Inv.exec_completes (hs : s.Inv) (i : Instr) : ∃ t, exec i s = .next t := exec_next_of_ends (hs.rule_ends i)

end system

/-- Settles O6: the three things that can be presented. -/
theorem stepRunsThePresentedCommand : Obligations.StepRunsThePresentedCommand :=
  ⟨fun _ _ _ _ hhost hd => step_command hhost hd, fun _ hhost => step_idle hhost,
    fun _ _ hhost => ⟨_, step_hardwareReset hhost, rfl, rfl⟩⟩

/-- Settles O8: what RESET leaves is `exec_reset_eq`, and no other command clears FAULT (`exec_keeps_faulted`). -/
theorem resetCommandReleasesEverything : Obligations.ResetCommandReleasesEverything := by
  refine ⟨fun s => ⟨_, exec_reset_eq s, State.freq_reset, rfl, rfl, rfl, rfl, State.code_reset, rfl, rfl, rfl, rfl,
    State.slot_reset, rfl, rfl, State.status_reset, ?_⟩, fun s hs => ?_, fun i s t h hf ht => ?_⟩
  · show (if s.OPEN then (s.flushSink Config.padBit).OUT else s.OUT) = _
    rw [← s.paddedAcc_false]
    cases s.OPEN with
    | true => exact (s.flushSink_OUT Config.padBit).trans (List.append_assoc _ _ _)
    | false => exact (List.append_nil _).symm
  · have ho : s.OPEN = false := by rw [hs]; rfl
    rw [exec_reset_eq, if_neg (ne_true_of_eq_false ho)]
    exact congrArg (fun u : State => Host.Outcome.next { u with rsp := s.rsp ++ [0] }) hs.symm
  · by_contra hi
    exact hf ((exec_keeps_faulted h hi hf).symm.trans ht)

/-- Settles O9: the read class leaves the state and only NODE_RD raises; the other commands are refused. -/
theorem readClassAndRefusal : Obligations.ReadClassAndRefusal := by
  refine ⟨fun i s t hw hc h => ?_, fun i s hc hi hf => ?_⟩
  · have hleaves := RuleResult.leaves_iff.1 (readClass_leaves hc s)
    rw [exec_always s (.inr hc)] at h
    rcases RuleResult.finish_next h with ⟨a, u, hr, rfl⟩ | ⟨f, u, hr, rfl⟩
    · obtain rfl : u = s := hleaves.1 a u hr
      exact ⟨rfl, .inl rfl, _, rfl, by rw [respCode_responseWord]; decide⟩
    · obtain rfl : u = s := hleaves.2 f u hr
      refine ⟨rfl, ?_, _, rfl, by rw [respCode_responseWord]; exact faultCode_ne_refused f⟩
      by_cases hf : u.FAULT = 0
      · exact .inr ⟨hf, readClass_raises hw hc hr⟩
      · exact .inl (if_neg hf)
  · rw [exec_unlessFaulted s hi hc]
    exact s.runUnlessFaulted_faulted _ hf

/-- Settles O51: the rule's two cases, and the fields of the node word. -/
theorem nodeRdReadsANode : Obligations.NodeRdReadsANode := by
  refine fun s b => ⟨fun h field => ?_, fun id n hid hlt hn => ?_⟩
  · show (nodeRdRule b field s).finish = _
    rw [nodeRdRule_unallocated h]
    rfl
  · refine ⟨exec_nodeRd hid hlt hn 0, nodeWord n, exec_nodeRd hid hlt hn 1, getLsbD_of_flagBit (nodeWord_leaf n),
      nodeWord_reserved n, ?_, ?_, ?_, nodeWord_character n⟩
    · rw [nodeWord_st]
      cases n.st <;> rfl
    · rw [nodeWord_left]
      rcases n.children with _ | ⟨l, r⟩
      · rfl
      · exact toNat_nodeField l
    · rw [nodeWord_right]
      rcases n.children with _ | ⟨l, r⟩
      · rfl
      · exact toNat_nodeField r

/-- Settles O55: under the invariants every rule completes or raises (`State.Inv.rule_ends`), and a step is a command, a
raise, a reset or nothing. -/
theorem everyCommandHasAStep : Obligations.EveryCommandHasAStep := by
  refine fun s hs => ⟨hs.exec_completes, ?_⟩
  match hhost : s.host with
  | [] => exact ⟨_, step_idle hhost⟩
  | .hardwareReset :: rest => exact ⟨_, step_hardwareReset hhost⟩
  | .command w :: rest =>
    cases hd : decode w with
    | illegal why => exact ⟨_, step_illegal hhost hd⟩
    | instr i =>
      rw [step_command hhost hd]
      exact State.Inv.exec_completes (hs.of_host_side s.FAULT rest s.rsp) i

end Sys2Proof.Machine

namespace Sys2Proof.Machine

/-! ## Reset (spec/70_reset_and_hazards.md R200, R202) -/

section resetState
variable {s : State}

/-- SEED's loop over entries of FREQ that are 0 creates nothing (R83). -/
theorem State.seedFrom_of_zero {before : Comparator} (h : ∀ sym, s.freq sym = 0) (k : ℕ) (syms : List Byte) :
    s.seedFrom before k syms = .done (.count k) s := by
  induction syms with
  | nil => rfl
  | cons sym rest ih => rw [seedFrom, if_pos (h sym), ih]

/-- With FAULT 0 a rule that raises before it writes leaves its fault's code in FAULT (R180). -/
theorem exec_raised_FAULT (i : Instr) {f : FaultKind} (hf : s.FAULT = 0) (h : ruleOf i s = .raised f s) :
    ∃ t, exec i s = .next t ∧ t.FAULT = faultCode f :=
  ⟨_, exec_of_raised i hf h, if_pos hf⟩

end resetState

/-- Settles O7: every register has its value of `State.reset`, and OUT is kept. -/
theorem hardwareResetLeavesResetValues : Obligations.HardwareResetLeavesResetValues :=
  fun _ _ hhost => ⟨_, step_hardwareReset hhost, State.freq_reset, rfl, rfl, rfl, rfl, State.code_reset, rfl, rfl, rfl, rfl,
    State.slot_reset, rfl⟩

/-- Settles O13: the case of each command's rule in which FREQ is all 0, no node is allocated, the queue is empty, there is
no tree and no sink is open. -/
theorem commandsInTheResetState : Obligations.CommandsInTheResetState := by
  intro i s hw hs
  have hf : s.FAULT = 0 := by rw [hs]; rfl
  have ho : s.OPEN = false := by rw [hs]; rfl
  have hPQ : s.PQ = [] := by rw [hs]; rfl
  have hroot : s.ROOT = none := by rw [hs]; rfl
  have hnext : s.NEXT.val = 0 := by rw [hs]; rfl
  have hfreq : ∀ sym, s.freq sym = 0 := by rw [hs]; exact State.freq_reset
  cases i with
  | reset => exact ⟨_, exec_reset_eq s, rfl⟩
  | rdreg reg =>
    obtain ⟨v, hv⟩ := s.exists_view (of_decide_eq_true hw)
    exact ⟨_, exec_rdreg s hv, hf⟩
  | nodeRd id field => exact exec_raised_FAULT (.nodeRd id field) hf (nodeRdRule_unallocated (by omega) field)
  | freqWr sym count => exact ⟨_, exec_of_done (.freqWr sym count) hf rfl, hf⟩
  | seed => exact ⟨_, exec_of_done .seed hf (State.seedFrom_of_zero hfreq 0 allSyms), hf⟩
  | srcerr => exact exec_raised_FAULT .srcerr hf rfl
  | enql sym freq =>
    have hq : s.QueueReadable := by simp [State.QueueReadable, hPQ]
    have hrule := enqlRule_room (before := nodeBefore) (by omega) (by simp [hPQ]) hq sym freq
    exact ⟨_, exec_of_done (.enql sym freq) hf hrule, hf⟩
  | enq id => exact exec_raised_FAULT (.enq id) hf (enqRule_unallocated (by omega) nodeBefore)
  | deq => exact exec_raised_FAULT .deq hf (deqRule_nil hPQ)
  | merge => exact exec_raised_FAULT .merge hf (mergeRule_short (by simp [hPQ]))
  | build => exact ⟨_, exec_of_done .build hf (buildRule_empty hroot hPQ), hf⟩
  | ser => exact exec_raised_FAULT .ser hf (serRule_closed ho _)
  | mktab => exact ⟨_, exec_of_done .mktab hf (mktabRule_noTree hroot), hf⟩
  | codeRd sym chunk => exact ⟨_, rfl, hf⟩
  | emit sym => exact exec_raised_FAULT (.emit sym) hf (emitRule_closed ho)
  | openSink => exact ⟨_, exec_openSink hf ho, hf⟩
  | wbits value width => exact exec_raised_FAULT (.wbits value width) hf (wbitsRule_closed ho)
  | closeSink => exact exec_raised_FAULT .closeSink hf (closeRule_closed ho _)

end Sys2Proof.Machine

namespace Sys2Proof.Machine

/-! ## The end of a run (spec/70_reset_and_hazards.md R216) -/

section runs
variable {s t : State}

/-- OUT is what came up to the last EOS, or nothing, and then the bytes of the scope (R216). -/
theorem exists_out_eq_append_scopeBytes (out : List OutEvent) :
    ∃ before, out = before ++ (scopeBytes out).map .byte ∧ (before = [] ∨ before.getLast? = some .eos) := by
  induction out using List.reverseRecOn with
  | nil => exact ⟨[], rfl, .inl rfl⟩
  | append_singleton out e ih =>
    cases e with
    | byte b =>
      obtain ⟨before, hout, hbefore⟩ := ih
      refine ⟨before, ?_, hbefore⟩
      rw [scopeBytes_byte, List.map_append, ← List.append_assoc, ← hout]
      rfl
    | eos => exact ⟨out ++ [.eos], by simp, .inr (by simp)⟩

/-- A CLOSE that leaves FAULT 0 found FAULT 0 and the sink open: it was neither refused nor raised SinkClosed (R152). -/
theorem exec_closeSink_no_fault (h : exec .closeSink s = .next t) (ht : t.FAULT = 0) : s.FAULT = 0 ∧ s.OPEN = true := by
  have hf : s.FAULT = 0 := by
    by_contra hf
    exact hf ((exec_keeps_faulted h (by simp) hf).symm.trans ht)
  refine ⟨hf, ?_⟩
  by_contra ho
  obtain ⟨u, hu, hcode⟩ := exec_raised_FAULT .closeSink hf (closeRule_closed (Bool.eq_false_of_not_eq_true ho) _)
  obtain rfl : u = t := Host.Outcome.next.inj (hu.symm.trans h)
  exact faultCode_ne_zero _ (hcode.symm.trans ht)

/-- With FAULT 0 and the sink open CLOSE ends the run successfully (R216). -/
theorem runSucceeded_closeSink (hf : s.FAULT = 0) (ho : s.OPEN = true) :
    s.RunSucceeded (((s.flushSink Config.padBit).clearWriter false).respond 0 0 0) :=
  ⟨exec_closeSink hf ho, by simp, by simpa using hf⟩

/-- A CLOSE ends the run successfully or leaves it failed (R216). -/
theorem runSucceeded_iff_not_runFailed (h : exec .closeSink s = .next t) : s.RunSucceeded t ↔ ¬ t.RunFailed := by
  refine ⟨fun ⟨_, _, ht⟩ hfailed => hfailed ht, fun hfailed => ?_⟩
  obtain ⟨hf, ho⟩ := exec_closeSink_no_fault h (not_not.1 hfailed)
  obtain rfl := Host.Outcome.next.inj (h.symm.trans (exec_closeSink hf ho))
  exact runSucceeded_closeSink hf ho

end runs

/-- Settles O56: CLOSE ends the run successfully exactly where it runs with FAULT 0 and the sink open
(`exec_closeSink_no_fault`), and its flush leaves the accepted bits as the bytes of the last scope. -/
theorem runEndsAtClose : Obligations.RunEndsAtClose := by
  refine ⟨fun s t hrun => ?_, fun s t h => runSucceeded_iff_not_runFailed h,
    fun s hf ho => ⟨_, runSucceeded_closeSink hf ho⟩, fun s t rest hhost h => ?_⟩
  · obtain ⟨h, -, ht⟩ := hrun
    obtain ⟨hf, ho⟩ := exec_closeSink_no_fault h ht
    obtain rfl := Host.Outcome.next.inj (h.symm.trans (exec_closeSink hf ho))
    obtain ⟨before, hbytes, hbefore⟩ := exists_out_eq_append_scopeBytes s.OUT
    have hwritten : s.WrittenSince before s.acceptedBits := ⟨scopeBytes s.OUT, hbytes, rfl⟩
    have hout := hwritten.flushSink_OUT Config.padBit
    have hscope : scopeBytes before = [] := by
      rcases hbefore with rfl | hlast
      · rfl
      · obtain ⟨earlier, rfl⟩ := List.getLast?_eq_some_iff.1 hlast
        exact scopeBytes_eos earlier
    refine ⟨ho, rfl, ht, before, _, ?_, rfl, hout, hbefore⟩
    show artifactOf (s.flushSink Config.padBit).OUT = _
    rw [hout, artifactOf_eos, scopeBytes_append_bytes, hscope, List.nil_append]
  · have hclose : decode 0x6200000000000000 = .instr .closeSink := by decide
    rw [step_command hhost hclose] at h
    exact runSucceeded_iff_not_runFailed h

end Sys2Proof.Machine
